-- ==== Sys2Proof/Word.lean ====
section
/-! DEFINITION. The word types of KR8 (spec/00_scope.md rules R5, R14, R15): every value the block adds, shifts,
masks or shows is an unsigned bit vector of the width the spec states. -/

namespace Sys2Proof

/-- A command or response word: 32 bits (30_encoding.md rule R90). -/
abbrev Word := BitVec 32

/-- A byte of the source queue, or one that the packer completes: 8 bits (00_scope.md rule R15). -/
abbrev Byte := BitVec 8

/-- A node address: `AW = 16` bits (00_scope.md rule R5). -/
abbrev NodeAddr := BitVec 16

/-- The contents of one slot of a node: 16 bits, `ABSENT` or a child address (10_state.md rule R41). -/
abbrev SlotWord := BitVec 16

/-- The value carried by a response word, and by a CSR: 16 bits (30_encoding.md rule R100). -/
abbrev Value := BitVec 16

/-- A symbol of the packer, the trie and the enumerator: 3 bits, 0 to 7 (00_scope.md rule R5). -/
abbrev Symbol := BitVec 3

/-- The `ctx` field: a context index of 4 bits (30_encoding.md rule R91). -/
abbrev CtxIdx := BitVec 4

/-- A CSR number: 8 bits (30_encoding.md rule R92, format R). -/
abbrev CsrNum := BitVec 8

end Sys2Proof
end

