-- ==== Sys2Proof/Config.lean ====
section
/-! DEFINITION. What an implementation of KR8 fixes: the four open parameters of spec/00_scope.md rule R5
(92_eei_decisions.md D5, D8, D9, D11), and the two constants of the arena. The spec leaves no value free
(rule R11), so there is no opaque constant here. -/

namespace Sys2Proof

/-- The four parameters of 00_scope.md rule R5. -/
structure Config where
  /-- `NODE_MAX`: the most nodes the arena can hold. -/
  nodeMax : Nat
  /-- `NPK`: the number of packer contexts. -/
  npk : Nat
  /-- `NEN`: the number of enumerator contexts. -/
  nen : Nat
  /-- `SQ_DEPTH`: the most bytes the source queue can hold. -/
  sqDepth : Nat
  deriving DecidableEq, Repr

/-- The default values of 00_scope.md rule R5. -/
def Config.default : Config := { nodeMax := 65535, npk := 8, nen := 8, sqDepth := 256 }

/-- The legal ranges of 00_scope.md rule R5. -/
abbrev Config.Legal (c : Config) : Prop :=
  (1 ≤ c.nodeMax ∧ c.nodeMax ≤ 65535) ∧ (1 ≤ c.npk ∧ c.npk ≤ 16) ∧ (1 ≤ c.nen ∧ c.nen ≤ 16) ∧
    (1 ≤ c.sqDepth ∧ c.sqDepth ≤ 65535)

/-- `ABSENT`: the slot word that means "no child here", the maximum of the address width
(10_state.md rule R41; 92_eei_decisions.md D10). -/
def absent : SlotWord := 0xFFFF

end Sys2Proof
end

