-- ==== Sys2Proof/Syntax.lean ====
section
/-! DEFINITION. The abstract syntax of KR8: one constructor of `Instr` for each of the fifteen rows of the command
table (spec/30_encoding.md rule R96, spec/opcode_table.json), the names of the status registers (10_state.md rule
R45), and the three pseudo-instructions (30_encoding.md rule R102). -/

namespace Sys2Proof

/-- The symbol width of the forward splitter. One bit cannot spell a width other than 3 or 4
(30_encoding.md rule R93). -/
inductive Width where
  | w3
  | w4
  deriving DecidableEq, Repr

/-- The fifteen commands with their operands, in the order of the table of 30_encoding.md rule R96. -/
inductive Instr where
  /-- `TR.NEW`: create the trie (42_trie.md rule R157). -/
  | trNew
  /-- `TR.NAV a, s`: follow symbol `s` from node `a`, creating the child if it is absent (R158). -/
  | trNav (a : NodeAddr) (s : Symbol)
  /-- `TR.CNT a`: count the children of node `a` (R159). -/
  | trCnt (a : NodeAddr)
  /-- `TR.ADDS`: add the byte string held in the source queue to the trie (R162). -/
  | trAdds
  /-- `EN.OPEN e, a`: start an enumeration of the children of node `a` in context `e` (R176). -/
  | enOpen (e : CtxIdx) (a : NodeAddr)
  /-- `EN.NEXT e`: produce the next (symbol, child) pair (R177). -/
  | enNext (e : CtxIdx)
  /-- `EN.CLOSE e`: drop the enumeration (R178). -/
  | enClose (e : CtxIdx)
  /-- `FS.BIND w`: create the forward transcoder with symbol width `w` (R124). -/
  | fsBind (w : Width)
  /-- `FS.NEXT`: produce the next symbol (R125). -/
  | fsNext
  /-- `SQ.PUT b`: put one byte into the source queue (R122). -/
  | sqPut (b : Byte)
  /-- `SQ.CLR`: empty the source queue (R123). -/
  | sqClr
  /-- `PK.CLR p`: create a fresh inverse packer in context `p` (R142). -/
  | pkClr (p : CtxIdx)
  /-- `PK.PUSH p, s`: feed one symbol to the packer in context `p` (R143). -/
  | pkPush (p : CtxIdx) (s : Symbol)
  /-- `PK.COPY d, q`: make context `d` an independent copy of context `q` (R144). -/
  | pkCopy (d : CtxIdx) (q : CtxIdx)
  /-- `CSR.RD c, x`: read status register number `c`, of context `x` where it is per context (R190). The number stays
  a number here: one outside the table of R45 decodes to `CSR.RD` and raises ILLEGAL_CMD when executed (R97). -/
  | csrRd (c : CsrNum) (x : CtxIdx)
  deriving DecidableEq, Repr

/-- The status registers of 10_state.md rule R45. -/
inductive Csr where
  | version
  | cfgNodeMax
  | cfgNpk
  | cfgNen
  | cfgSqDepth
  | trSize
  | fsStat
  | fsRem
  | fsBits
  | sqLevel
  | pkStored
  | pkBits
  | enStat
  | enNode
  deriving DecidableEq, Repr

/-- The pseudo-instructions of 30_encoding.md rule R102, over the bytes a quoted text stands for. -/
inductive Pseudo where
  | sqPuts (bytes : List Byte)
  | trAddStr (bytes : List Byte)
  | fsOpen (w : Width) (bytes : List Byte)
  deriving DecidableEq, Repr

end Sys2Proof
end

