-- ==== Sys2Proof/WellFormed.lean ====
section
/-! DEFINITION. Which commands the block accepts before their bodies run. The operand types already keep every field
within its width, so what is left to check is what spec/30_encoding.md rules R97 and R99 check after decoding: the CSR
number, the context of a per-block CSR, and the context range under a configuration. The machine's own check
(`csrOperand` and the context checks of Machine/Operands.lean) is written separately; Laws/Ops.lean shows that the two
agree. -/

namespace Sys2Proof

/-- The numbers of the per-block CSRs (10_state.md rule R45, third column "block"). -/
def blockCsrNumbers : List CsrNum := [0x00, 0x01, 0x02, 0x03, 0x04, 0x08, 0x10, 0x11, 0x12, 0x18]

/-- The numbers of the CSRs that exist once per packer context (10_state.md rule R45). -/
def packerCsrNumbers : List CsrNum := [0x20, 0x21]

/-- The numbers of the CSRs that exist once per enumerator context (10_state.md rule R45). -/
def enumeratorCsrNumbers : List CsrNum := [0x30, 0x31]

/-- The command is not one of the two that decode to `CSR.RD` and are illegal all the same
(30_encoding.md rule R97). -/
def Instr.isLegal : Instr → Bool
  | .csrRd c x =>
    (blockCsrNumbers.contains c && x == 0) || packerCsrNumbers.contains c || enumeratorCsrNumbers.contains c
  | .trNew | .trNav _ _ | .trCnt _ | .trAdds | .enOpen _ _ | .enNext _ | .enClose _ | .fsBind _ | .fsNext
  | .sqPut _ | .sqClr | .pkClr _ | .pkPush _ _ | .pkCopy _ _ => true

/-- Every context the command names exists (30_encoding.md rule R99 step 4). -/
def Instr.ctxInRange (cfg : Config) : Instr → Bool
  | .enOpen e _ | .enNext e | .enClose e => decide (e.toNat < cfg.nen)
  | .pkClr p | .pkPush p _ => decide (p.toNat < cfg.npk)
  | .pkCopy d q => decide (d.toNat < cfg.npk) && decide (q.toNat < cfg.npk)
  | .csrRd c x =>
    (!packerCsrNumbers.contains c || decide (x.toNat < cfg.npk)) &&
      (!enumeratorCsrNumbers.contains c || decide (x.toNat < cfg.nen))
  | .trNew | .trNav _ _ | .trCnt _ | .trAdds | .fsBind _ | .fsNext | .sqPut _ | .sqClr => true

/-- The command passes steps 3 and 4 of the common prologue of 30_encoding.md rule R99. -/
def Instr.wellFormed (cfg : Config) (i : Instr) : Bool := i.isLegal && i.ctxInRange cfg

end Sys2Proof
end

