-- ==== Sys2Proof/Decode.lean ====
section
/-! DEFINITION. Command words: the fields (spec/30_encoding.md rule R91), the command table with its masks and matches
(R96), the decoder (R94, R97, R99 step 2), the encoder, the CSR numbers (10_state.md rule R45) and the expansion of the
pseudo-instructions (R102). -/

namespace Sys2Proof

/-- The five fields of a command word, R91. -/
def opField (c : Word) : BitVec 8 := c.extractLsb' 24 8

/-- Bits 23:20, R91. -/
def ctxField (c : Word) : CtxIdx := c.extractLsb' 20 4

/-- Bits 18:16, R91. -/
def symField (c : Word) : Symbol := c.extractLsb' 16 3

/-- Bits 15:0, R91. -/
def immField (c : Word) : BitVec 16 := c.extractLsb' 0 16

/-- The width select `imm[0]`: 0 means 3, 1 means 4 (R93). -/
def Width.ofSelect (b : BitVec 1) : Width := if b = 1 then .w4 else .w3

/-- The width select of a width (R93). -/
def Width.select : Width → BitVec 1
  | .w3 => 0
  | .w4 => 1

/-- The commands of the table without their operands. -/
inductive Cmd where
  | trNew | trNav | trCnt | trAdds | enOpen | enNext | enClose | fsBind | fsNext | sqPut | sqClr | pkClr | pkPush
  | pkCopy | csrRd
  deriving DecidableEq, Repr

/-- One row of the command table of R96: a word `c` is the command of the row when `(c & mask) = pattern`. -/
structure Row where
  cmd : Cmd
  mask : Word
  pattern : Word
  deriving DecidableEq, Repr

/-- Whether a word spells the command of a row (R94). -/
def Row.accepts (r : Row) (c : Word) : Bool := (c &&& r.mask) == r.pattern

/-- The complete command table, R96. -/
def commandTable : List Row :=
  [⟨.trNew, 0xFFFFFFFF, 0x01000000⟩, ⟨.trNav, 0xFFF80000, 0x02000000⟩, ⟨.trCnt, 0xFFFF0000, 0x03000000⟩,
    ⟨.trAdds, 0xFFFFFFFF, 0x04000000⟩] ++
  [⟨.enOpen, 0xFF0F0000, 0x10000000⟩, ⟨.enNext, 0xFF0FFFFF, 0x11000000⟩, ⟨.enClose, 0xFF0FFFFF, 0x12000000⟩] ++
  [⟨.fsBind, 0xFFFFFFFE, 0x20000000⟩, ⟨.fsNext, 0xFFFFFFFF, 0x21000000⟩, ⟨.sqPut, 0xFFFFFF00, 0x28000000⟩,
    ⟨.sqClr, 0xFFFFFFFF, 0x29000000⟩] ++
  [⟨.pkClr, 0xFF0FFFFF, 0x30000000⟩, ⟨.pkPush, 0xFF08FFFF, 0x31000000⟩, ⟨.pkCopy, 0xFF0FFFF0, 0x32000000⟩,
    ⟨.csrRd, 0xFF0FFF00, 0x40000000⟩]

/-- Operand assembly: every operand is the unsigned value of its field (R92, R93). -/
def Cmd.operands (c : Word) : Cmd → Instr
  | .trNew => .trNew
  | .trNav => .trNav (immField c) (symField c)
  | .trCnt => .trCnt (immField c)
  | .trAdds => .trAdds
  | .enOpen => .enOpen (ctxField c) (immField c)
  | .enNext => .enNext (ctxField c)
  | .enClose => .enClose (ctxField c)
  | .fsBind => .fsBind (Width.ofSelect (c.extractLsb' 0 1))
  | .fsNext => .fsNext
  | .sqPut => .sqPut (c.extractLsb' 0 8)
  | .sqClr => .sqClr
  | .pkClr => .pkClr (ctxField c)
  | .pkPush => .pkPush (ctxField c) (symField c)
  | .pkCopy => .pkCopy (ctxField c) (c.extractLsb' 0 4)
  | .csrRd => .csrRd (c.extractLsb' 0 8) (ctxField c)

/-- Why a sequence of bits spells no command. All of them are the illegal command of R97, except that a carrier that
delivered fewer than four bytes has delivered no word at all. -/
inductive DecodeReject where
  /-- The `op` byte is in no row of the table. -/
  | undefinedOp (op : BitVec 8)
  /-- The `op` byte is known and a reserved bit is set (R94). -/
  | reservedBits (op : BitVec 8)
  /-- Fewer than four bytes. -/
  | truncated
  deriving DecidableEq, Repr

/-- The decoder of R99 step 2: the row with `(c & mask) = match`, or the reason there is none. -/
def decodeWord (c : Word) : Except DecodeReject Instr :=
  match commandTable.find? (fun r => r.accepts c) with
  | some r => .ok (r.cmd.operands c)
  | none =>
    .error (if commandTable.any (fun r => opField r.pattern == opField c) then .reservedBits (opField c)
      else .undefinedOp (opField c))

/-- A word as a carrier serialises it, least significant byte first (20_memory.md rule R69;
92_eei_decisions.md D25). -/
def wordBytes (c : Word) : List Byte :=
  [c.extractLsb' 0 8, c.extractLsb' 8 8, c.extractLsb' 16 8, c.extractLsb' 24 8]

/-- Decodes the first command of a byte stream, least significant byte first (R69), and gives the rest of the stream.
Every command is exactly four bytes long (R90). -/
def decodeBytes : List Byte → Except DecodeReject (Instr × List Byte)
  | b0 :: b1 :: b2 :: b3 :: rest =>
    match decodeWord (b3 ++ b2 ++ b1 ++ b0) with
    | .ok i => .ok (i, rest)
    | .error r => .error r
  | _ => .error .truncated

/-- The low `nbits` bits of `w` as one command word, every bit above them zero. -/
def tableWord (nbits w : Nat) : Word := BitVec.ofNat 32 (w % 2 ^ nbits)

/-- The instruction the decoder reads from an opcode-table word: the word as the carrier lays it out, given to the
decoder. -/
def decodeTableWord (nbits w : Nat) : Option Instr :=
  match decodeBytes (wordBytes (tableWord nbits w)) with
  | .ok (i, _) => some i
  | .error _ => none

/-- A command word from its five fields, R91; bit 19 is zero in every command (R94). -/
def fieldsWord (op : BitVec 8) (ctx : CtxIdx) (sym : Symbol) (imm : BitVec 16) : Word :=
  op ++ ctx ++ 0#1 ++ sym ++ imm

/-- The encoder: the word of an instruction, from the opcode map R95 and the formats R92. -/
def encode : Instr → Word
  | .trNew => fieldsWord 0x01 0 0 0
  | .trNav a s => fieldsWord 0x02 0 s a
  | .trCnt a => fieldsWord 0x03 0 0 a
  | .trAdds => fieldsWord 0x04 0 0 0
  | .enOpen e a => fieldsWord 0x10 e 0 a
  | .enNext e => fieldsWord 0x11 e 0 0
  | .enClose e => fieldsWord 0x12 e 0 0
  | .fsBind w => fieldsWord 0x20 0 0 (0#15 ++ w.select)
  | .fsNext => fieldsWord 0x21 0 0 0
  | .sqPut b => fieldsWord 0x28 0 0 (0#8 ++ b)
  | .sqClr => fieldsWord 0x29 0 0 0
  | .pkClr p => fieldsWord 0x30 p 0 0
  | .pkPush p s => fieldsWord 0x31 p s 0
  | .pkCopy d q => fieldsWord 0x32 d 0 (0#12 ++ q)
  | .csrRd c x => fieldsWord 0x40 x 0 (0#8 ++ c)

/-- The encoded instruction as a carrier serialises it. -/
def encodeBytes (i : Instr) : List Byte := wordBytes (encode i)

/-- The CSR numbers of 10_state.md rule R45. -/
def Csr.number : Csr → CsrNum
  | .version => 0x00
  | .cfgNodeMax => 0x01
  | .cfgNpk => 0x02
  | .cfgNen => 0x03
  | .cfgSqDepth => 0x04
  | .trSize => 0x08
  | .fsStat => 0x10
  | .fsRem => 0x11
  | .fsBits => 0x12
  | .sqLevel => 0x18
  | .pkStored => 0x20
  | .pkBits => 0x21
  | .enStat => 0x30
  | .enNode => 0x31

/-- The CSRs in the order of the table of 10_state.md rule R45. -/
def Csr.all : List Csr :=
  [.version, .cfgNodeMax, .cfgNpk, .cfgNen, .cfgSqDepth, .trSize, .fsStat] ++
  [.fsRem, .fsBits, .sqLevel, .pkStored, .pkBits, .enStat, .enNode]

/-- The CSR a number names, if any: "A CSR number not in this table is undefined" (10_state.md rule R45). -/
def Csr.ofNumber (n : CsrNum) : Option Csr := Csr.all.find? (fun r => r.number == n)

/-- The commands a pseudo-instruction expands to, in order (30_encoding.md rule R102). -/
def Pseudo.expand : Pseudo → List Instr
  | .sqPuts bytes => bytes.map .sqPut
  | .trAddStr bytes => bytes.map .sqPut ++ [.trAdds]
  | .fsOpen w bytes => bytes.map .sqPut ++ [.fsBind w]

end Sys2Proof
end

