-- ==== Sys2Proof/Machine/State.lean ====
section
/-! DEFINITION. Everything spec/10_state.md gives the block, as plain data, with the reset values of its rule R48; the
two stores of 20_memory.md; and, as the model's own fields, the configuration and what the host will do next. -/

namespace Sys2Proof.Machine

/-- `FAULT` (10_state.md rule R23): the sticky fault register. -/
structure FaultReg where
  /-- `FAULT.valid`: a fault has occurred since reset. -/
  valid : Bool
  /-- `FAULT.code`: the code of the first fault since reset. -/
  code : BitVec 8
  deriving DecidableEq, Repr

/-- The registers of the forward splitter (10_state.md rules R24, R25, R28, R29, R30). -/
structure Splitter where
  /-- `fs.w`: the symbol width of the current binding. -/
  w : Width
  /-- `fs.bound`: bound by FS.BIND since reset. -/
  bound : Bool
  /-- `fs.exh`: exhausted, produces no more symbols. -/
  exh : Bool
  /-- `fs.rem`: the buffered bits. -/
  rem : BitVec 16
  /-- `fs.bits`: how many buffered bits are valid. -/
  bits : BitVec 4
  deriving DecidableEq, Repr

/-- One packer context (10_state.md rules R33, R34). -/
structure Packer where
  /-- `pk[p].stored`: buffered bits not yet forming a full byte. -/
  stored : BitVec 7
  /-- `pk[p].bits`: how many of them are valid. -/
  bits : BitVec 3
  deriving DecidableEq, Repr

/-- A fresh packer: no bits (41_packer.md rule R142). -/
def Packer.cleared : Packer := { stored := 0, bits := 0 }

/-- One enumerator context (10_state.md rules R26, R37, R38). -/
structure Enumerator where
  /-- `en[e].open`: the context holds an enumeration. -/
  isOpen : Bool
  /-- `en[e].node`: the node being enumerated. -/
  node : NodeAddr
  /-- `en[e].pos`: the lowest symbol not yet examined, 0 to 8. -/
  pos : BitVec 4
  deriving DecidableEq, Repr

/-- An enumerator context after reset (10_state.md rule R48). -/
def Enumerator.closed : Enumerator := { isOpen := false, node := 0, pos := 0 }

/-- A node: a fixed array of eight slots (10_state.md rule R41). -/
abbrev Node := Vector SlotWord 8

/-- A fresh node: all eight slots `ABSENT` (20_memory.md rule R66). -/
def Node.fresh : Node := Vector.replicate 8 absent

/-- The two stores of 20_memory.md rule R60. -/
structure Memory where
  /-- `NM`: the nodes at addresses 0 to `size − 1`, and nothing else (10_state.md rule R47). -/
  nodes : List Node
  /-- `SQ`: the bytes of the source queue, oldest first (20_memory.md rule R62). -/
  sq : List Byte
  deriving DecidableEq, Repr

/-- `size`: the number of nodes (10_state.md rule R40). -/
def Memory.size (m : Memory) : Nat := m.nodes.length

/-- The stores after reset: the root alone, all slots absent, and an empty queue (10_state.md rule R48). -/
def Memory.reset : Memory := { nodes := [Node.fresh], sq := [] }

/-- The form every reachable memory has: the arena holds 1 to `NODE_MAX` nodes, every slot word is `ABSENT` or the
address of a node that exists (10_state.md rule R42 (a), (f)), and the queue holds at most `SQ_DEPTH` bytes (R44).
The sequence of nodes has no entry for an address at or above `size`, so equal stores are equal data. -/
def Memory.wf (cfg : Config) (m : Memory) : Bool :=
  decide (1 ≤ m.size) && decide (m.size ≤ cfg.nodeMax) &&
    m.nodes.all (fun n => n.toList.all (fun v => v == absent || decide (v.toNat < m.size))) &&
    decide (m.sq.length ≤ cfg.sqDepth)

/-- What the host can do to the block (00_scope.md rule R13). -/
inductive HostAction where
  /-- Present a command word. -/
  | present (c : Word)
  /-- Assert reset (70_reset_and_hazards.md rule R230). -/
  | assertReset
  /-- Read the response word; "reading has no side effect" (10_state.md rule R21). -/
  | readResp
  deriving DecidableEq, Repr

/-- What stops the MODEL. Both are guards on preconditions of the spec that the invariant of Safety.lean rules out: no
state that meets it raises either. The block's own seven faults are not here: raising one is a next state
(60_exceptions.md rule R203). -/
inductive Fault where
  /-- A slot of a node at or above `size` would be read, against the precondition of NodeRead (20_memory.md rule R64).
  Raised by EN.NEXT when an open context names no node and by TR.ADDS when there is no root. Safe. -/
  | noSuchNode
  /-- The loop of TR.ADDS reached its bound without seeing `End`. Raised by TR.ADDS. Safe. -/
  | loopBound
  deriving DecidableEq, Repr

/-- What the model has no meaning for. -/
inductive Refusal where
  /-- The instruction has no meaning yet. Raised by no arm: every command is modelled. Safe. -/
  | notModelled (mnemonic : String)
  deriving DecidableEq, Repr

/-- The whole state of the block (00_scope.md rule R7), and the model's own fields `cfg` and `host`. -/
structure State where
  /-- The parameters of 00_scope.md rule R5; the model's own field, changed by no step. -/
  cfg : Config
  /-- What the host will do, next action first; the model's own field. -/
  host : List HostAction
  /-- `RESP`: the response word of the most recent command (10_state.md rule R21). -/
  resp : Word
  /-- `FAULT` (10_state.md rule R23). -/
  fault : FaultReg
  /-- The splitter registers (10_state.md rules R24, R25, R28 to R30). -/
  fs : Splitter
  /-- The packer contexts (10_state.md rule R32); a context at or above `NPK` is never reached. -/
  pks : Vector Packer 16
  /-- The enumerator contexts (10_state.md rule R36); a context at or above `NEN` is never reached. -/
  ens : Vector Enumerator 16
  /-- The node arena and the source queue (20_memory.md rule R60). -/
  mem : Memory
  deriving DecidableEq, Repr

/-- The state right after reset under a configuration: every row of the table of 10_state.md rule R48. -/
def State.resetOf (cfg : Config) : State where
  cfg := cfg
  host := []
  resp := 0
  fault := { valid := false, code := 0 }
  fs := { w := .w3, bound := false, exh := false, rem := 0, bits := 0 }
  pks := Vector.replicate 16 Packer.cleared
  ens := Vector.replicate 16 Enumerator.closed
  mem := Memory.reset

/-- The state right after reset, with the default parameters of 00_scope.md rule R5. -/
def State.reset : State := State.resetOf Config.default

end Sys2Proof.Machine
end

