-- ==== Sys2Proof/Machine/Ops.lean ====
section
/-! DEFINITION. The shared operations of the block: the response word (spec/30_encoding.md rule R100), raising a fault
and refusing in the faulted state (60_exceptions.md rules R203, R204), the common prologue (30_encoding.md rule R99),
the access primitives of the two stores (20_memory.md rules R64 to R68), the context files, and the navigate step
(42_trie.md rule R156). -/

namespace Sys2Proof.Machine

/-- What a command answers. -/
abbrev Result := Host.Outcome State Fault Refusal

/-! ### Responses -/

/-- The `kind` field of a response word (30_encoding.md rule R100). -/
inductive RespKind where
  | done
  | val
  | endOfSeq
  | noByte
  | fault
  deriving DecidableEq, Repr

/-- The code of a response kind: DONE, VAL, END, NONE, FAULT (R100). -/
def RespKind.bits : RespKind → BitVec 4
  | .done => 0x0
  | .val => 0x1
  | .endOfSeq => 0x2
  | .noByte => 0x3
  | .fault => 0xF

/-- `{KIND, 9'b0, s, v}` (30_encoding.md rule R100). -/
def respWord (k : RespKind) (s : Symbol) (v : Value) : Word := k.bits ++ 0#9 ++ s ++ v

/-- `respond(KIND, s, v)` (00_scope.md rule R16). -/
def State.respond (k : RespKind) (s : Symbol) (v : Value) (st : State) : State :=
  { st with resp := respWord k s v }

/-! ### Faults -/

/-- The seven fault codes (60_exceptions.md rule R201). -/
inductive FaultCode where
  | illegalCmd
  | badCtx
  | badAddr
  | capacity
  | sqFull
  | notBound
  | notOpen
  deriving DecidableEq, Repr

/-- The number of a fault code (60_exceptions.md rule R201). -/
def FaultCode.number : FaultCode → BitVec 8
  | .illegalCmd => 0x01
  | .badCtx => 0x02
  | .badAddr => 0x03
  | .capacity => 0x04
  | .sqFull => 0x05
  | .notBound => 0x06
  | .notOpen => 0x07

/-- `raise Fault(CODE)`: the entry of a fault (60_exceptions.md rule R203). Nothing else is saved or changed. -/
def State.raise (c : FaultCode) (st : State) : State :=
  { st with fault := { valid := true, code := c.number }, resp := respWord .fault 0 (c.number.setWidth 16) }

/-- Refusal in the faulted state: only `RESP` is written, with the code that is held (60_exceptions.md rule R204). -/
def State.refuse (st : State) : State :=
  { st with resp := respWord .fault 0 (st.fault.code.setWidth 16) }

/-- The common prologue of one decoded command, steps 1, 3, 4 and 5 of 30_encoding.md rule R99: refuse in the faulted
state, else raise the fault the operand check found, else run the body on what the check gives. -/
def State.command {α : Type} (st : State) (check : Except FaultCode α) (body : α → Result) : Result :=
  if st.fault.valid then .next st.refuse
  else
    match check with
    | .error c => .next (st.raise c)
    | .ok a => body a

/-! ### The context files -/

/-- `pk[p]` (10_state.md rule R32). -/
def State.pk (st : State) (p : CtxIdx) : Packer := st.pks[p.toNat]'p.isLt

/-- `pk[p] <- v`. -/
def State.setPk (st : State) (p : CtxIdx) (v : Packer) : State := { st with pks := st.pks.set p.toNat v p.isLt }

/-- `en[e]` (10_state.md rule R36). -/
def State.en (st : State) (e : CtxIdx) : Enumerator := st.ens[e.toNat]'e.isLt

/-- `en[e] <- v`. -/
def State.setEn (st : State) (e : CtxIdx) (v : Enumerator) : State := { st with ens := st.ens.set e.toNat v e.isLt }

/-! ### The node arena -/

/-- The eight symbols in ascending order. -/
def allSymbols : List Symbol := [0, 1, 2, 3, 4, 5, 6, 7]

/-- Slot `s` of a node. -/
def Node.slot (n : Node) (s : Symbol) : SlotWord := n[s.toNat]'s.isLt

/-- A node with slot `s` holding `v`. -/
def Node.setSlot (n : Node) (s : Symbol) (v : SlotWord) : Node := n.set s.toNat v s.isLt

/-- The linear slot index `{a, s}` of 20_memory.md rule R61; no command shows it. -/
def slotIndex (a : NodeAddr) (s : Symbol) : BitVec 19 := a ++ s

/-- `NodeRead(a, s)` (20_memory.md rule R64); no value for a node at or above `size`. -/
def Memory.nodeRead (m : Memory) (a : NodeAddr) (s : Symbol) : Option SlotWord :=
  m.nodes[a.toNat]?.map (fun n => n.slot s)

/-- `NodeWrite(a, s, v)` (20_memory.md rule R65). -/
def Memory.nodeWrite (m : Memory) (a : NodeAddr) (s : Symbol) (v : SlotWord) : Memory :=
  { m with nodes := m.nodes.modify a.toNat (fun n => n.setSlot s v) }

/-- The address `ArenaAppend()` gives to the new node: the former size (20_memory.md rule R66). -/
def Memory.newAddr (m : Memory) : NodeAddr := BitVec.ofNat 16 m.size

/-- `ArenaAppend()`: a fresh node at the end (20_memory.md rule R66). -/
def Memory.arenaAppend (m : Memory) : Memory := { m with nodes := m.nodes ++ [Node.fresh] }

/-- The arena of a trie just created: the root alone, all slots absent (42_trie.md rule R157). -/
def Memory.newTrie (m : Memory) : Memory := { m with nodes := [Node.fresh] }

/-! ### The source queue -/

/-- `SrcPush(b)` (20_memory.md rule R67). -/
def Memory.srcPush (m : Memory) (b : Byte) : Memory := { m with sq := m.sq ++ [b] }

/-- `SrcPull()`: the oldest byte, or `none` for `End`, and the queue after the pull (20_memory.md rule R68). -/
def Memory.srcPull (m : Memory) : Option Byte × Memory :=
  match m.sq with
  | [] => (none, m)
  | b :: rest => (some b, { m with sq := rest })

/-- The queue emptied (40_splitter.md rule R123). -/
def Memory.srcClear (m : Memory) : Memory := { m with sq := [] }

/-! ### The navigate step -/

/-- What `Navigate` gives: an address and the memory after it, `Full`, or that the node does not exist. -/
inductive NavResult where
  | addr (c : NodeAddr) (m : Memory)
  | full
  | noNode
  deriving DecidableEq, Repr

/-- `Navigate(a, s)` (42_trie.md rule R156). `noNode` is the bounds check `a >= size` of its callers. -/
def navigate (cfg : Config) (m : Memory) (a : NodeAddr) (s : Symbol) : NavResult :=
  match m.nodeRead a s with
  | none => .noNode
  | some v =>
    if v ≠ absent then .addr v m
    else if m.size = cfg.nodeMax then .full
    else .addr m.newAddr (m.arenaAppend.nodeWrite a s m.newAddr)

end Sys2Proof.Machine
end

