-- ==== Sys2Proof/Machine/Flags.lean ====
section
/-! DEFINITION. The flags of the block: `fs.bound` and `fs.exh` (spec/10_state.md rules R24, R25) and `en[e].open`
(R26). No command sets a condition code, carry, overflow or zero flag (R27), so this is all there is to compute; `FAULT`
is written by `State.raise` alone. -/

namespace Sys2Proof.Machine

/-- The splitter as FS.BIND creates it: nothing buffered, `fs.bound` set, `fs.exh` cleared (40_splitter.md rule
R124). -/
def Splitter.bind (w : Width) : Splitter := { w := w, bound := true, exh := false, rem := 0, bits := 0 }

/-- The splitter after a pull that returned `End`: `fs.exh` set, nothing buffered (10_state.md rule R25;
92_eei_decisions.md D22). -/
def Splitter.exhausted (fs : Splitter) : Splitter := { fs with exh := true, rem := 0, bits := 0 }

/-- An enumeration just opened on node `a` (43_enumerator.md rule R176). -/
def Enumerator.opened (a : NodeAddr) : Enumerator := { isOpen := true, node := a, pos := 0 }

/-- `en[e].open <- 0`; node and position keep their values (43_enumerator.md rule R178). -/
def Enumerator.close (en : Enumerator) : Enumerator := { en with isOpen := false }

/-- Every context of a file closed; through a list, so that the kernel evaluates it. -/
def closeEach (ens : Vector Enumerator 16) : Vector Enumerator 16 :=
  ⟨(ens.toList.map Enumerator.close).toArray, by simp⟩

/-- Every enumerator closed (42_trie.md rule R157). -/
def State.closeAll (st : State) : State := { st with ens := closeEach st.ens }

/-- The contents of FS_STAT: `fs.bound`, `fs.exh`, and `fs.w` as the number 3 or 4 in bits 7:4 (10_state.md rule
R45). -/
def Splitter.stat (fs : Splitter) : Value :=
  0#8 ++ (match fs.w with | .w3 => 3#4 | .w4 => 4#4) ++ 0#2 ++ BitVec.ofBool fs.exh ++ BitVec.ofBool fs.bound

/-- The contents of EN_STAT: `en[e].open` in bit 0 and `en[e].pos` in bits 7:4 (10_state.md rule R45). -/
def Enumerator.stat (en : Enumerator) : Value := 0#8 ++ en.pos ++ 0#3 ++ BitVec.ofBool en.isOpen

end Sys2Proof.Machine
end

