-- ==== Sys2Proof/Machine/Operands.lean ====
section
/-! DEFINITION. Every operand form that is checked or mapped: context indices (spec/30_encoding.md rule R99 step 4),
CSR operands (R99 steps 3 and 4, 10_state.md rule R45), and the symbol width of the splitter (30_encoding.md rule R93).
All other operands are the field as it stands (R93). -/

namespace Sys2Proof.Machine

/-- A packer context index: BAD_CTX when it is not below `NPK` (R99 step 4). -/
def pkOperand (cfg : Config) (p : CtxIdx) : Except FaultCode Unit :=
  if p.toNat < cfg.npk then .ok () else .error .badCtx

/-- The two packer context indices of PK.COPY (R99 step 4). -/
def pkPairOperand (cfg : Config) (d q : CtxIdx) : Except FaultCode Unit :=
  if d.toNat < cfg.npk ∧ q.toNat < cfg.npk then .ok () else .error .badCtx

/-- An enumerator context index: BAD_CTX when it is not below `NEN` (R99 step 4). -/
def enOperand (cfg : Config) (e : CtxIdx) : Except FaultCode Unit :=
  if e.toNat < cfg.nen then .ok () else .error .badCtx

/-- What the third column of the table of 10_state.md rule R45 says of a CSR. -/
inductive CsrScope where
  | block
  | packer
  | enumerator
  deriving DecidableEq, Repr

/-- The third column of the table of 10_state.md rule R45. -/
def csrScope : Csr → CsrScope
  | .version | .cfgNodeMax | .cfgNpk | .cfgNen | .cfgSqDepth | .trSize | .fsStat | .fsRem | .fsBits | .sqLevel => .block
  | .pkStored | .pkBits => .packer
  | .enStat | .enNode => .enumerator

/-- A CSR operand: the CSR, or the fault of R99 steps 3 and 4. -/
def csrOperand (cfg : Config) (c : CsrNum) (x : CtxIdx) : Except FaultCode Csr :=
  match Csr.ofNumber c with
  | none => .error .illegalCmd
  | some r =>
    match csrScope r with
    | .block => if x = 0 then .ok r else .error .illegalCmd
    | .packer => if x.toNat < cfg.npk then .ok r else .error .badCtx
    | .enumerator => if x.toNat < cfg.nen then .ok r else .error .badCtx

/-- The 16-bit content of a CSR (of context `x`), the fourth column of the table of 10_state.md rule R45. -/
def csrValue (st : State) (x : CtxIdx) : Csr → Value
  | .version => 0x0100
  | .cfgNodeMax => BitVec.ofNat 16 st.cfg.nodeMax
  | .cfgNpk => BitVec.ofNat 16 st.cfg.npk
  | .cfgNen => BitVec.ofNat 16 st.cfg.nen
  | .cfgSqDepth => BitVec.ofNat 16 st.cfg.sqDepth
  | .trSize => BitVec.ofNat 16 st.mem.size
  | .fsStat => st.fs.stat
  | .fsRem => st.fs.rem
  | .fsBits => st.fs.bits.setWidth 16
  | .sqLevel => BitVec.ofNat 16 st.mem.sq.length
  | .pkStored => (st.pk x).stored.setWidth 16
  | .pkBits => (st.pk x).bits.setWidth 16
  | .enStat => (st.en x).stat
  | .enNode => (st.en x).node

/-- The symbol width as a number of bits, `w` of 40_splitter.md. -/
def widthBits : Width → BitVec 4
  | .w3 => 3
  | .w4 => 4

/-- `rem[w-1:0]`, as a number of at most four bits (40_splitter.md rule R121). -/
def lowSymbol (w : Width) (rem : BitVec 16) : BitVec 4 :=
  match w with
  | .w3 => (rem.extractLsb' 0 3).setWidth 4
  | .w4 => rem.extractLsb' 0 4

end Sys2Proof.Machine
end

