-- ==== Sys2Proof/Machine/EnumeratorUnit.lean ====
section
/-! DEFINITION. The child enumerator (spec/43_enumerator.md): EN.OPEN, EN.NEXT, EN.CLOSE. -/

namespace Sys2Proof.Machine

/-- The loop of EN.NEXT: the lowest symbol at or above `pos` whose slot is not absent (43_enumerator.md rule R177). -/
def nextChild (n : Node) (pos : BitVec 4) : Option Symbol :=
  allSymbols.find? (fun s => decide (pos.toNat ≤ s.toNat) && (n.slot s != absent))

/-- EN.OPEN e, a (43_enumerator.md rule R176). -/
def execEnOpen (e : CtxIdx) (a : NodeAddr) (st : State) : Result :=
  st.command (enOperand st.cfg e) fun _ =>
    if a.toNat < st.mem.size then .next ((st.setEn e (Enumerator.opened a)).respond .done 0 0)
    else .next (st.raise .badAddr)

/-- EN.NEXT e (43_enumerator.md rule R177). -/
def execEnNext (e : CtxIdx) (st : State) : Result :=
  st.command (enOperand st.cfg e) fun _ =>
    if (st.en e).isOpen then
      match st.mem.nodes[(st.en e).node.toNat]? with
      | none => .fault .noSuchNode
      | some n =>
        match nextChild n (st.en e).pos with
        | some s =>
          .next ((st.setEn e { st.en e with pos := s.setWidth 4 + 1 }).respond .val s (n.slot s))
        | none => .next ((st.setEn e { st.en e with pos := 8 }).respond .endOfSeq 0 0)
    else .next (st.raise .notOpen)

/-- EN.CLOSE e (43_enumerator.md rule R178). -/
def execEnClose (e : CtxIdx) (st : State) : Result :=
  st.command (enOperand st.cfg e) fun _ => .next ((st.setEn e (st.en e).close).respond .done 0 0)

end Sys2Proof.Machine
end

