-- ==== Sys2Proof/Machine/PackerUnit.lean ====
section
/-! DEFINITION. The inverse packer (spec/41_packer.md): PK.CLR, PK.PUSH, PK.COPY. -/

namespace Sys2Proof.Machine

/-- The 10-bit temporary of `PackStep`: the symbol above the buffered bits (41_packer.md rule R141). -/
def packCombined (p : Packer) (s : Symbol) : BitVec 10 := p.stored.setWidth 10 ||| (s.setWidth 10 <<< p.bits.toNat)

/-- `PackStep(stored, bits, s)`: the completed byte, if any, and the packer after it (41_packer.md rule R141). -/
def packStep (p : Packer) (s : Symbol) : Option Byte × Packer :=
  if 8 ≤ p.bits.toNat + 3 then
    (some ((packCombined p s).extractLsb' 0 8),
      { stored := ((packCombined p s).extractLsb' 8 2).setWidth 7, bits := BitVec.ofNat 3 (p.bits.toNat + 3 - 8) })
  else (none, { stored := (packCombined p s).extractLsb' 0 7, bits := BitVec.ofNat 3 (p.bits.toNat + 3) })

/-- PK.CLR p (41_packer.md rule R142). -/
def execPkClr (p : CtxIdx) (st : State) : Result :=
  st.command (pkOperand st.cfg p) fun _ => .next ((st.setPk p Packer.cleared).respond .done 0 0)

/-- The response of PK.PUSH to a result of `PackStep` (41_packer.md rule R143). -/
def packRespond (r : Option Byte) (st : State) : State :=
  match r with
  | some b => st.respond .val 0 (b.setWidth 16)
  | none => st.respond .noByte 0 0

/-- PK.PUSH p, s (41_packer.md rule R143). -/
def execPkPush (p : CtxIdx) (s : Symbol) (st : State) : Result :=
  st.command (pkOperand st.cfg p) fun _ =>
    .next (packRespond (packStep (st.pk p) s).1 (st.setPk p (packStep (st.pk p) s).2))

/-- PK.COPY d, q (41_packer.md rule R144). -/
def execPkCopy (d q : CtxIdx) (st : State) : Result :=
  st.command (pkPairOperand st.cfg d q) fun _ => .next ((st.setPk d (st.pk q)).respond .done 0 0)

end Sys2Proof.Machine
end

