-- ==== Sys2Proof/Machine/SystemUnit.lean ====
section
/-! DEFINITION. The system command (spec/44_system.md): CSR.RD. -/

namespace Sys2Proof.Machine

/-- CSR.RD c, x (44_system.md rule R190). -/
def execCsrRd (c : CsrNum) (x : CtxIdx) (st : State) : Result :=
  st.command (csrOperand st.cfg c x) fun r => .next (st.respond .val 0 (csrValue st x r))

end Sys2Proof.Machine
end

