-- ==== Sys2Proof/Machine/SplitterUnit.lean ====
section
/-! DEFINITION. The forward splitter and the source queue (spec/40_splitter.md): SQ.PUT, SQ.CLR, FS.BIND, FS.NEXT. -/

namespace Sys2Proof.Machine

/-- The result of `SplitStep`: a symbol, or `End` (40_splitter.md rule R121). -/
inductive SplitResult where
  | sym (s : BitVec 4)
  | endOfSeq
  deriving DecidableEq, Repr

/-- What `SplitStep` gives: the result, the splitter after it, and the memory after its pull. -/
structure SplitOut where
  result : SplitResult
  fs : Splitter
  mem : Memory
  deriving DecidableEq, Repr

/-- The last two lines of `SplitStep`: take the low `w` bits and keep the rest (40_splitter.md rule R121). -/
def splitTake (fs : Splitter) (m : Memory) : SplitOut :=
  { result := .sym (lowSymbol fs.w fs.rem)
    fs := { fs with rem := fs.rem >>> (widthBits fs.w).toNat, bits := fs.bits - widthBits fs.w, exh := false }
    mem := m }

/-- A pulled byte shifted above the buffered bits (40_splitter.md rule R121). -/
def Splitter.buffer (fs : Splitter) (b : Byte) : Splitter :=
  { fs with rem := fs.rem ||| (b.setWidth 16 <<< fs.bits.toNat), bits := fs.bits + 8 }

/-- `SplitStep(w, rem, bits, exh)` (40_splitter.md rule R121). -/
def splitStep (fs : Splitter) (m : Memory) : SplitOut :=
  if fs.exh then { result := .endOfSeq, fs := fs, mem := m }
  else if fs.bits < widthBits fs.w then
    match m.srcPull with
    | (some b, m') => splitTake (fs.buffer b) m'
    | (none, m') =>
      { result := if fs.bits = 0 then .endOfSeq else .sym (lowSymbol fs.w fs.rem)
        fs := fs.exhausted
        mem := m' }
  else splitTake fs m

/-- SQ.PUT b (40_splitter.md rule R122). -/
def execSqPut (b : Byte) (st : State) : Result :=
  st.command (.ok ()) fun _ =>
    if st.mem.sq.length = st.cfg.sqDepth then .next (st.raise .sqFull)
    else .next ({ st with mem := st.mem.srcPush b }.respond .done 0 0)

/-- SQ.CLR (40_splitter.md rule R123). -/
def execSqClr (st : State) : Result :=
  st.command (.ok ()) fun _ => .next ({ st with mem := st.mem.srcClear }.respond .done 0 0)

/-- FS.BIND w (40_splitter.md rule R124). -/
def execFsBind (w : Width) (st : State) : Result :=
  st.command (.ok ()) fun _ => .next ({ st with fs := Splitter.bind w }.respond .done 0 0)

/-- The response of FS.NEXT to a result of `SplitStep` (40_splitter.md rule R125). -/
def splitRespond (r : SplitResult) (st : State) : State :=
  match r with
  | .sym s => st.respond .val 0 (s.setWidth 16)
  | .endOfSeq => st.respond .endOfSeq 0 0

/-- FS.NEXT (40_splitter.md rule R125). -/
def execFsNext (st : State) : Result :=
  st.command (.ok ()) fun _ =>
    if st.fs.bound then
      .next (splitRespond (splitStep st.fs st.mem).result
        { st with fs := (splitStep st.fs st.mem).fs, mem := (splitStep st.fs st.mem).mem })
    else .next (st.raise .notBound)

end Sys2Proof.Machine
end

