-- ==== Sys2Proof/Machine/TrieUnit.lean ====
section
/-! DEFINITION. The trie unit (spec/42_trie.md): TR.NEW, TR.NAV, TR.CNT, TR.ADDS. -/

namespace Sys2Proof.Machine

/-- The number of slots of a node that are not absent, 0 to 8 (42_trie.md rule R159). -/
def childCount (n : Node) : Nat := allSymbols.countP (fun s => n.slot s != absent)

/-- TR.NEW (42_trie.md rule R157). -/
def execTrNew (st : State) : Result :=
  st.command (.ok ()) fun _ => .next ({ st with mem := st.mem.newTrie }.closeAll.respond .done 0 0)

/-- TR.NAV a, s (42_trie.md rule R158). -/
def execTrNav (a : NodeAddr) (s : Symbol) (st : State) : Result :=
  st.command (.ok ()) fun _ =>
    match navigate st.cfg st.mem a s with
    | .noNode => .next (st.raise .badAddr)
    | .full => .next (st.raise .capacity)
    | .addr c m => .next ({ st with mem := m }.respond .val 0 c)

/-- TR.CNT a (42_trie.md rule R159). -/
def execTrCnt (a : NodeAddr) (st : State) : Result :=
  st.command (.ok ()) fun _ =>
    match st.mem.nodes[a.toNat]? with
    | none => .next (st.raise .badAddr)
    | some n => .next (st.respond .val 0 (BitVec.ofNat 16 (childCount n)))

/-- How the loop of TR.ADDS ends, with the memory it leaves. -/
inductive AddsResult where
  | done (m : Memory)
  | full (m : Memory)
  | noNode
  | unfinished
  deriving DecidableEq, Repr

/-- The loop of TR.ADDS (42_trie.md rule R162) from a splitter state, a current node and a memory, for at most `fuel`
passes. -/
def addsLoop (cfg : Config) : Nat → Splitter → NodeAddr → Memory → AddsResult
  | 0, _, _, _ => .unfinished
  | fuel + 1, fs, cur, m =>
    match (splitStep fs m).result with
    | .endOfSeq => .done (splitStep fs m).mem
    | .sym s =>
      match navigate cfg (splitStep fs m).mem cur (s.setWidth 3) with
      | .noNode => .noNode
      | .full => .full (splitStep fs m).mem
      | .addr c m' => addsLoop cfg fuel (splitStep fs m).fs c m'

/-- A bound on the passes of TR.ADDS: a queue of n bytes gives at most 3n symbols, and the last pass sees `End`
(70_reset_and_hazards.md rule R243: the loop is bounded by the queue level). -/
def addsFuel (m : Memory) : Nat := 3 * m.sq.length + 1

/-- TR.ADDS (42_trie.md rule R162), with the partial effects of 60_exceptions.md rule R205 on CAPACITY. -/
def execTrAdds (st : State) : Result :=
  st.command (.ok ()) fun _ =>
    match addsLoop st.cfg (addsFuel st.mem) (Splitter.bind .w3) 0 st.mem with
    | .done m => .next ({ st with mem := m }.respond .done 0 0)
    | .full m => .next ({ st with mem := m }.raise .capacity)
    | .noNode => .fault .noSuchNode
    | .unfinished => .fault .loopBound

end Sys2Proof.Machine
end

