-- ==== Sys2Proof/Machine/Dispatch.lean ====
section
/-! DEFINITION. One arm per command. -/

namespace Sys2Proof.Machine

def exec (i : Instr) (s : State) : Host.Outcome State Fault Refusal :=
  match i with
  | .trNew => Sys2Proof.Machine.execTrNew s
  | .trNav a y => Sys2Proof.Machine.execTrNav a y s
  | .trCnt a => Sys2Proof.Machine.execTrCnt a s
  | .trAdds => Sys2Proof.Machine.execTrAdds s
  | .enOpen e a => Sys2Proof.Machine.execEnOpen e a s
  | .enNext e => Sys2Proof.Machine.execEnNext e s
  | .enClose e => Sys2Proof.Machine.execEnClose e s
  | .fsBind w => Sys2Proof.Machine.execFsBind w s
  | .fsNext => Sys2Proof.Machine.execFsNext s
  | .sqPut b => Sys2Proof.Machine.execSqPut b s
  | .sqClr => Sys2Proof.Machine.execSqClr s
  | .pkClr p => Sys2Proof.Machine.execPkClr p s
  | .pkPush p y => Sys2Proof.Machine.execPkPush p y s
  | .pkCopy d q => Sys2Proof.Machine.execPkCopy d q s
  | .csrRd c x => Sys2Proof.Machine.execCsrRd c x s

end Sys2Proof.Machine
end

