-- ==== Sys2Proof/Machine/HostPort.lean ====
section
/-! DEFINITION. The host's side of the block (spec/00_scope.md rule R13): presenting a command word, asserting reset,
reading the response. The step function calls these with `exec`. -/

namespace Sys2Proof.Machine

/-- Reset asserted: every piece of state takes its reset value, whatever it held (70_reset_and_hazards.md rule R230).
The configuration is not state, and what the host will do next is the host's. -/
def State.hostReset (st : State) : State := { State.resetOf st.cfg with host := st.host }

/-- A command word presented: steps 1 and 2 of the prologue of 30_encoding.md rule R99, then the command. -/
def runWord (run : Instr → State → Result) (c : Word) (st : State) : Result :=
  if st.fault.valid then .next st.refuse
  else
    match decodeWord c with
    | .ok i => run i st
    | .error _ => .next (st.raise .illegalCmd)

/-- One host action on a state from which it has been taken. -/
def runAction (run : Instr → State → Result) (a : HostAction) (st : State) : Result :=
  match a with
  | .present c => runWord run c st
  | .assertReset => .next st.hostReset
  | .readResp => .next st

/-- The next thing the host does. With nothing to do "the block holds its state and does nothing" (60_exceptions.md
rule R217). -/
def runHost (run : Instr → State → Result) (st : State) : Result :=
  match st.host with
  | [] => .next st
  | a :: rest => runAction run a { st with host := rest }

/-- The state in which the host presents an opcode-table word next: what withFetchWord sets. -/
def State.presenting (st : State) (nbits w : Nat) : State :=
  { st with host := .present (tableWord nbits w) :: st.host }

end Sys2Proof.Machine
end

