-- ==== Sys2Proof/Machine/Step.lean ====
section
/-! DEFINITION. The step function: one host action, and for a command word one whole command (spec/00_scope.md rules R6,
R13). -/

namespace Sys2Proof.Machine

/-- One step of the block. -/
def step (s : State) : Host.Outcome State Fault Refusal := runHost exec s

/-- `s` with the instruction of an opcode-table word as what the host presents next: the block fetches nothing
(10_state.md rule R22), so the next command is wherever the host's next action is. -/
def State.withFetchWord (s : State) (nbits w : Nat) : State := s.presenting nbits w

end Sys2Proof.Machine
end

