-- ==== Sys2Proof/Machine/Assembler.lean ====
section
/-! DEFINITION. The assembler syntax of spec/30_encoding.md rule R101 and the pseudo-instructions of R102: a line of text
to the commands it stands for. The block itself sees words, never text. Points of spelling that the rules leave open are
in notes/assumptions/11.md. -/

namespace Sys2Proof.Machine

/-- Why a line is refused. -/
inductive AsmError where
  | unknownMnemonic
  | badOperands
  deriving DecidableEq, Repr

/-- White space between the parts of a line. R101 names none: that blank, tab and carriage return are white space is the
model's choice (PRESUMED, log entry 11). -/
def isBlank (c : Char) : Bool := c == ' ' || c == '\t' || c == '\r'

/-- A text without its leading and trailing white space. -/
def trimBlanks (cs : List Char) : List Char := ((cs.dropWhile isBlank).reverse.dropWhile isBlank).reverse

/-- A line without its comment: "A comment runs from `;` to the end of the line" (R101); a `;` inside a quoted text
begins none. -/
def stripComment : Bool → List Char → List Char
  | _, [] => []
  | quoted, c :: cs =>
    if c == '"' then c :: stripComment (!quoted) cs
    else if c == ';' && !quoted then []
    else c :: stripComment quoted cs

/-- The pieces of a text between the separators that stand outside quotes; `piece` is the piece being read. -/
def splitOutsideQuotes (sep : Char) : Bool → List Char → List Char → List (List Char)
  | _, piece, [] => [piece]
  | quoted, piece, c :: cs =>
    if c == '"' then splitOutsideQuotes sep (!quoted) (piece ++ [c]) cs
    else if c == sep && !quoted then piece :: splitOutsideQuotes sep quoted [] cs
    else splitOutsideQuotes sep quoted (piece ++ [c]) cs

/-- The operands of a line: separated by commas; no text, no operand (R101). -/
def splitOperands (cs : List Char) : List (List Char) :=
  if (trimBlanks cs).isEmpty then [] else (splitOutsideQuotes ',' false [] cs).map trimBlanks

/-- The value of a hexadecimal digit. -/
def digitValue (c : Char) : Option Nat :=
  if '0' ≤ c ∧ c ≤ '9' then some (c.toNat - '0'.toNat)
  else if 'a' ≤ c ∧ c ≤ 'f' then some (c.toNat - 'a'.toNat + 10)
  else if 'A' ≤ c ∧ c ≤ 'F' then some (c.toNat - 'A'.toNat + 10)
  else none

/-- The value of a digit string in a base, most significant digit first. -/
def digitsValue (base : Nat) : Nat → List Char → Option Nat
  | acc, [] => some acc
  | acc, c :: cs =>
    match digitValue c with
    | none => none
    | some d => if d < base then digitsValue base (acc * base + d) cs else none

/-- A number: decimal, or hexadecimal with the prefix `0x` (R101). -/
def parseNumber : List Char → Option Nat
  | [] => none
  | '0' :: 'x' :: cs => if cs.isEmpty then none else digitsValue 16 0 cs
  | c :: cs => digitsValue 10 0 (c :: cs)

/-- A number that fits an operand field of `n` bits. -/
def parseField (n : Nat) (cs : List Char) : Option (BitVec n) :=
  match parseNumber cs with
  | none => none
  | some v => if v < 2 ^ n then some (BitVec.ofNat n v) else none

/-- The characters after an opening quote, up to the closing one at the end, as ASCII bytes (R102). -/
def textTail : List Char → Option (List Byte)
  | [] => none
  | c :: cs =>
    if c == '"' then (if cs.isEmpty then some [] else none)
    else if c.toNat < 128 then (textTail cs).map (fun bs => BitVec.ofNat 8 c.toNat :: bs)
    else none

/-- A quoted text as its bytes (R102). -/
def parseText : List Char → Option (List Byte)
  | '"' :: cs => textTail cs
  | _ => none

/-- The width operand: "the width itself, `3` or `4`; any other width is an assembly error" (R101). -/
def parseWidth (cs : List Char) : Option Width :=
  match parseNumber cs with
  | some 3 => some .w3
  | some 4 => some .w4
  | _ => none

/-- The names of the CSRs (10_state.md rule R45). -/
def csrName : Csr → List Char
  | .version => "VERSION".toList
  | .cfgNodeMax => "CFG_NODE_MAX".toList
  | .cfgNpk => "CFG_NPK".toList
  | .cfgNen => "CFG_NEN".toList
  | .cfgSqDepth => "CFG_SQ_DEPTH".toList
  | .trSize => "TR_SIZE".toList
  | .fsStat => "FS_STAT".toList
  | .fsRem => "FS_REM".toList
  | .fsBits => "FS_BITS".toList
  | .sqLevel => "SQ_LEVEL".toList
  | .pkStored => "PK_STORED".toList
  | .pkBits => "PK_BITS".toList
  | .enStat => "EN_STAT".toList
  | .enNode => "EN_NODE".toList

/-- A CSR operand: "the name of 10_state.md rule R45 or its number" (R101). -/
def parseCsr (cs : List Char) : Option CsrNum :=
  match Csr.all.find? (fun r => csrName r == cs) with
  | some r => some r.number
  | none => parseField 8 cs

/-- What stands first on a line: a command of the table, or a pseudo-instruction. -/
inductive AsmHead where
  | cmd (c : Cmd)
  | sqPuts
  | trAddStr
  | fsOpen
  deriving DecidableEq, Repr

/-- The mnemonics of R96 and R102. -/
def mnemonics : List (List Char × AsmHead) :=
  [("TR.NEW".toList, .cmd .trNew), ("TR.NAV".toList, .cmd .trNav), ("TR.CNT".toList, .cmd .trCnt),
    ("TR.ADDS".toList, .cmd .trAdds)] ++
  [("EN.OPEN".toList, .cmd .enOpen), ("EN.NEXT".toList, .cmd .enNext), ("EN.CLOSE".toList, .cmd .enClose)] ++
  [("FS.BIND".toList, .cmd .fsBind), ("FS.NEXT".toList, .cmd .fsNext), ("SQ.PUT".toList, .cmd .sqPut),
    ("SQ.CLR".toList, .cmd .sqClr)] ++
  [("PK.CLR".toList, .cmd .pkClr), ("PK.PUSH".toList, .cmd .pkPush), ("PK.COPY".toList, .cmd .pkCopy),
    ("CSR.RD".toList, .cmd .csrRd)] ++
  [("SQ.PUTS".toList, .sqPuts), ("TR.ADDSTR".toList, .trAddStr), ("FS.OPEN".toList, .fsOpen)]

/-- The context CSR.RD has when its second operand is left out: 0, for a per-block CSR only (R101). -/
def defaultCsrContext (c : CsrNum) : Option CtxIdx :=
  if packerCsrNumbers.contains c || enumeratorCsrNumbers.contains c then none else some 0

/-- One command from its operands, in the order of the "operands" column of R96. -/
def assembleCommand : Cmd → List (List Char) → Option Instr
  | .trNew, [] => some .trNew
  | .trNav, [a, s] => do return .trNav (← parseField 16 a) (← parseField 3 s)
  | .trCnt, [a] => do return .trCnt (← parseField 16 a)
  | .trAdds, [] => some .trAdds
  | .enOpen, [e, a] => do return .enOpen (← parseField 4 e) (← parseField 16 a)
  | .enNext, [e] => do return .enNext (← parseField 4 e)
  | .enClose, [e] => do return .enClose (← parseField 4 e)
  | .fsBind, [w] => do return .fsBind (← parseWidth w)
  | .fsNext, [] => some .fsNext
  | .sqPut, [b] => do return .sqPut (← parseField 8 b)
  | .sqClr, [] => some .sqClr
  | .pkClr, [p] => do return .pkClr (← parseField 4 p)
  | .pkPush, [p, s] => do return .pkPush (← parseField 4 p) (← parseField 3 s)
  | .pkCopy, [d, q] => do return .pkCopy (← parseField 4 d) (← parseField 4 q)
  | .csrRd, [c] => do
    let n ← parseCsr c
    return .csrRd n (← defaultCsrContext n)
  | .csrRd, [c, x] => do return .csrRd (← parseCsr c) (← parseField 4 x)
  | _, _ => none

/-- One line's head and operands as the commands they stand for (R101, R102). -/
def assembleHead : AsmHead → List (List Char) → Option (List Instr)
  | .cmd c, ops => (assembleCommand c ops).map (fun i => [i])
  | .sqPuts, ops =>
    match ops with
    | [] => none
    | [t] =>
      match parseText t with
      | some bs => some (Pseudo.sqPuts bs).expand
      | none => (parseField 8 t).map (fun b => (Pseudo.sqPuts [b]).expand)
    | _ => (ops.mapM (parseField 8)).map (fun bs => (Pseudo.sqPuts bs).expand)
  | .trAddStr, [t] => (parseText t).map (fun bs => (Pseudo.trAddStr bs).expand)
  | .fsOpen, [w, t] => do return (Pseudo.fsOpen (← parseWidth w) (← parseText t)).expand
  | _, _ => none

/-- The commands of one line; a blank line or a comment line has none. -/
def assembleLine (line : List Char) : Except AsmError (List Instr) :=
  let code := trimBlanks (stripComment false line)
  if code.isEmpty then .ok []
  else
    match mnemonics.find? (fun m => m.1 == code.takeWhile (fun c => !isBlank c)) with
    | none => .error .unknownMnemonic
    | some m =>
      match assembleHead m.2 (splitOperands (code.dropWhile (fun c => !isBlank c))) with
      | none => .error .badOperands
      | some is => .ok is

/-- The commands of a list of lines, in order (R101). -/
def assembleLines : List (List Char) → Except AsmError (List Instr)
  | [] => .ok []
  | l :: ls =>
    match assembleLine l, assembleLines ls with
    | .ok is, .ok rest => .ok (is ++ rest)
    | .error e, _ => .error e
    | _, .error e => .error e

/-- The command words of a program text, one command a line (R101). -/
def assemble (text : String) : Except AsmError (List Word) :=
  match assembleLines (text.toList.splitOn '\n') with
  | .ok is => .ok (is.map encode)
  | .error e => .error e

end Sys2Proof.Machine
end

