-- ==== Sys2Proof/Safety.lean ====
section
/-! DEFINITION. What claims about the block are written in: the invariants of spec/10_state.md (rules R31, R35, R39,
R42), sequences of commands with their responses, and the numbers that the closed forms of 40_splitter.md (R126) and
41_packer.md (R148) speak of. -/

namespace Sys2Proof.Machine

/-! ### Invariants -/

/-- The splitter invariant at the boundary between commands (10_state.md rules R29, R31): the bits of `fs.rem` at and
above position `fs.bits` are zero, at most 7 bits are buffered, nothing is buffered once exhausted, and at width 4 the
count is 0 or 4. -/
structure Splitter.Inv (fs : Splitter) : Prop where
  rem_lt : fs.rem.toNat < 2 ^ fs.bits.toNat
  bits_le : fs.bits.toNat ≤ 7
  exhausted : fs.exh = true → fs.rem = 0 ∧ fs.bits = 0
  nibble : fs.w = .w4 → fs.bits = 0 ∨ fs.bits = 4

/-- The packer invariant (10_state.md rule R35); `bits ≤ 7` is the width of the register. -/
abbrev Packer.Inv (p : Packer) : Prop := p.stored.toNat < 2 ^ p.bits.toNat

/-- The enumerator invariant (10_state.md rule R39) in an arena of `size` nodes. -/
abbrev Enumerator.Inv (size : Nat) (en : Enumerator) : Prop :=
  en.pos.toNat ≤ 8 ∧ (en.isOpen = true → en.node.toNat < size)

/-- The arena invariants of 10_state.md rule R42 that speak of one state: (a) a slot holds `ABSENT` or a valid address,
(d) every node but the root is held by exactly one slot and the root by none, (e) a child's address is greater than its
parent's, (f) the arena holds 1 to `NODE_MAX` nodes. -/
structure ArenaInv (cfg : Config) (m : Memory) : Prop where
  root : 1 ≤ m.size
  bounded : m.size ≤ cfg.nodeMax
  valid : ∀ a s v, m.nodeRead a s = some v → v ≠ absent → v.toNat < m.size
  greater : ∀ a s v, m.nodeRead a s = some v → v ≠ absent → a.toNat < v.toNat
  parent : ∀ c : NodeAddr, 1 ≤ c.toNat → c.toNat < m.size →
    ∃ a s, m.nodeRead a s = some c ∧ ∀ a' s', m.nodeRead a' s' = some c → a' = a ∧ s' = s
  rootless : ∀ a s, m.nodeRead a s ≠ some 0

/-- `FAULT` holds no code or one of the seven (60_exceptions.md rule R201). -/
abbrev FaultReg.Inv (f : FaultReg) : Prop :=
  (f.valid = false → f.code = 0) ∧ (f.valid = true → ∃ c : FaultCode, f.code = c.number)

/-- The invariant of the model: what every state reached from reset meets, under a legal configuration. -/
structure State.Inv (s : State) : Prop where
  legal : s.cfg.Legal
  fault : s.fault.Inv
  fs : s.fs.Inv
  pk : ∀ p, (s.pk p).Inv
  en : ∀ e, (s.en e).Inv s.mem.size
  arena : ArenaInv s.cfg s.mem
  queue : s.mem.sq.length ≤ s.cfg.sqDepth

/-! ### Which command reaches what -/

/-- The commands that write the node arena (10_state.md rule R43). -/
def writesArena : Instr → Bool
  | .trNew | .trNav _ _ | .trAdds => true
  | .trCnt _ | .enOpen _ _ | .enNext _ | .enClose _ | .fsBind _ | .fsNext | .sqPut _ | .sqClr | .pkClr _
  | .pkPush _ _ | .pkCopy _ _ | .csrRd _ _ => false

/-- The commands that write or pull the source queue (20_memory.md rule R63). -/
def reachesQueue : Instr → Bool
  | .trAdds | .fsNext | .sqPut _ | .sqClr => true
  | .trNew | .trNav _ _ | .trCnt _ | .enOpen _ _ | .enNext _ | .enClose _ | .fsBind _ | .pkClr _
  | .pkPush _ _ | .pkCopy _ _ | .csrRd _ _ => false

/-- The commands that write the splitter registers (10_state.md rules R24, R25, R28 to R30). -/
def writesSplitter : Instr → Bool
  | .fsBind _ | .fsNext => true
  | .trNew | .trNav _ _ | .trCnt _ | .trAdds | .enOpen _ _ | .enNext _ | .enClose _ | .sqPut _ | .sqClr | .pkClr _
  | .pkPush _ _ | .pkCopy _ _ | .csrRd _ _ => false

/-- The packer context a command writes (10_state.md rule R32). -/
def packerWritten : Instr → Option CtxIdx
  | .pkClr p | .pkPush p _ => some p
  | .pkCopy d _ => some d
  | .trNew | .trNav _ _ | .trCnt _ | .trAdds | .enOpen _ _ | .enNext _ | .enClose _ | .fsBind _ | .fsNext | .sqPut _
  | .sqClr | .csrRd _ _ => none

/-- The enumerator context a command names (43_enumerator.md rule R180). -/
def enumeratorNamed : Instr → Option CtxIdx
  | .enOpen e _ | .enNext e | .enClose e => some e
  | .trNew | .trNav _ _ | .trCnt _ | .trAdds | .fsBind _ | .fsNext | .sqPut _ | .sqClr | .pkClr _ | .pkPush _ _
  | .pkCopy _ _ | .csrRd _ _ => none

/-! ### Sequences of commands -/

/-- Commands executed in order; the first stop ends them. -/
def runAll : List Instr → State → Result
  | [], s => .next s
  | i :: is, s =>
    match exec i s with
    | .next t => runAll is t
    | .fault f => .fault f
    | .refused r => .refused r

/-- The response word after each command of a sequence, first command first. -/
def responses : List Instr → State → List Word
  | [], _ => []
  | i :: is, s =>
    match exec i s with
    | .next t => t.resp :: responses is t
    | .fault _ => []
    | .refused _ => []

/-- The response words of those commands of a sequence that are `j`. -/
def responsesOf (j : Instr) : List Instr → State → List Word
  | [], _ => []
  | i :: is, s =>
    match exec i s with
    | .next t => if i = j then t.resp :: responsesOf j is t else responsesOf j is t
    | .fault _ => []
    | .refused _ => []

/-- The commands of a sequence as what the host presents. -/
def presentAll (is : List Instr) : List HostAction := is.map (fun i => .present (encode i))

/-- The words of a list of responses that carry a value, as the values they carry. -/
def respValues (ws : List Word) : List Value :=
  (ws.filter (fun w => w.extractLsb' 28 4 == RespKind.val.bits)).map (fun w => w.extractLsb' 0 16)

/-! ### The numbers of the closed forms -/

/-- `N = sum of B[i] * 256^i` (20_memory.md rule R69). -/
def streamNumber : List Byte → Nat
  | [] => 0
  | b :: bs => b.toNat + 256 * streamNumber bs

/-- `M = sum of s[k] * 8^k` (41_packer.md rule R148). -/
def symbolNumber : List Symbol → Nat
  | [] => 0
  | s :: ss => s.toNat + 8 * symbolNumber ss

/-- `w` as a number. -/
def symbolWidth : Width → Nat
  | .w3 => 3
  | .w4 => 4

/-- `ceil(8n / w)`: how many symbols a string of `n` bytes has (40_splitter.md rule R129). -/
def symbolCount (w : Width) (n : Nat) : Nat := (8 * n + symbolWidth w - 1) / symbolWidth w

/-- Symbol number `k` of a byte string: `(N >> (k*w)) & (2^w - 1)` (40_splitter.md rule R126). -/
def symbolAt (w : Width) (bs : List Byte) (k : Nat) : Nat := streamNumber bs / 2 ^ (k * symbolWidth w) % 2 ^ symbolWidth w

/-- The 3-bit symbols of a byte string, in order (40_splitter.md rule R126 at w = 3). -/
def octalSymbols (bs : List Byte) : List Symbol :=
  (List.range (symbolCount .w3 bs.length)).map (fun k => BitVec.ofNat 3 (symbolAt .w3 bs k))

/-- The (symbol, child) pairs of a node in ascending symbol order (43_enumerator.md rule R179). -/
def childPairs (n : Node) : List (Symbol × SlotWord) :=
  (allSymbols.filter (fun s => n.slot s != absent)).map (fun s => (s, n.slot s))

/-- The node a symbol sequence leads to from a node, creating none. -/
def walk (m : Memory) : NodeAddr → List Symbol → Option NodeAddr
  | a, [] => if a.toNat < m.size then some a else none
  | a, s :: ss =>
    match m.nodeRead a s with
    | none => none
    | some v => if v = absent then none else walk m v ss

/-- One navigate step per symbol, from a node, until one finds the arena full: the symbols not followed, and the memory
after the steps that were made (42_trie.md rules R156, R162). -/
def insertPath (cfg : Config) : List Symbol → NodeAddr → Memory → List Symbol × Memory
  | [], _, m => ([], m)
  | s :: ss, a, m =>
    match navigate cfg m a s with
    | .addr c m' => insertPath cfg ss c m'
    | .full => (s :: ss, m)
    | .noNode => (s :: ss, m)

end Sys2Proof.Machine
end

