-- ==== Sys2Proof/Certificates/Slice0/Obligations.lean ====
section
/-! DEFINITION. The statements about the model, for the provers. Each docstring names the rule of spec/ it comes from; a
hypothesis `s.fault.valid = false` is rule R17's "the prologue has passed". -/

open Sys2Proof Sys2Proof.Machine

/-! ### Words -/

/-- 30_encoding.md R91 to R96: the decoder gives back every instruction from the word the encoder makes of it. -/
def Obligations.DecodeOfEncodeIsIdentity : Prop :=
  ∀ i : Instr, decodeWord (encode i) = .ok i

/-- 30_encoding.md R94: a word that decodes is the one word of its instruction, so no reserved bit is ignored. -/
def Obligations.EncodeOfDecodeIsIdentity : Prop :=
  ∀ (c : Word) (i : Instr), decodeWord c = .ok i → encode i = c

/-- 30_encoding.md R94, R96: a word is the command of a row of the table exactly when `(c & mask) = match`, with the
operands taken from its fields. -/
def Obligations.DecodeAcceptsExactlyTheTableRows : Prop :=
  ∀ (c : Word) (i : Instr),
    decodeWord c = .ok i ↔ ∃ r ∈ commandTable, c &&& r.mask = r.pattern ∧ i = r.cmd.operands c

/-- 30_encoding.md R101 and 95_test_vectors.md: words written in the spec decode to the commands written beside them. -/
def Obligations.SpecWordsDecodeAsWritten : Prop :=
  decodeWord 0x02050003 = .ok (.trNav 3 5) ∧ decodeWord 0x10900005 = .ok (.enOpen 9 5) ∧
    decodeWord 0x20000001 = .ok (.fsBind .w4) ∧ decodeWord 0x31140000 = .ok (.pkPush 1 4) ∧
    decodeWord 0x32000007 = .ok (.pkCopy 0 7) ∧ decodeWord 0x40200021 = .ok (.csrRd 0x21 2) ∧
    decodeWord 0x02080000 = .error (.reservedBits 0x02) ∧ decodeWord 0x05000000 = .error (.undefinedOp 0x05)

/-- 20_memory.md R69: a command serialised least significant byte first is read back, and exactly its four bytes are
taken (30_encoding.md R90). -/
def Obligations.ByteStreamRoundTrip : Prop :=
  ∀ (i : Instr) (rest : List Byte), decodeBytes (encodeBytes i ++ rest) = .ok (i, rest)

/-! ### The step -/

/-- 30_encoding.md R99 steps 2 and 5: a presented word that decodes runs its instruction, on the state from which the
host's action has been taken (the host's list is the model's form of the step's input, log entry 1). -/
def Obligations.StepRunsTheDecodedInstruction : Prop :=
  ∀ (s : State) (c : Word) (rest : List HostAction) (i : Instr),
    s.host = .present c :: rest → s.fault.valid = false → decodeWord c = .ok i →
      step s = exec i { s with host := rest }

/-- 10_state.md R22: "a finite list of command words applied in order": steps over presented commands are the commands
executed in order, stops included (the host's list is log entry 1's; that `exec` by itself refuses in the faulted state, as the step does,
is log entry 10's). -/
def Obligations.StepsRunThePresentedProgram : Prop :=
  ∀ (prog : List Instr) (s : State), s.host = presentAll prog →
    Host.Core.run Sys2Proof.core prog.length s = runAll prog { s with host := [] }

/-- 30_encoding.md R97: a word of no row raises ILLEGAL_CMD and changes nothing else; so do the two cases that decode to
CSR.RD; the all-zero and the all-ones words are of no row. -/
def Obligations.IllegalCommandRaisesIllegalCmd : Prop :=
  (∀ (s : State) (c : Word) (rest : List HostAction),
    s.host = .present c :: rest → s.fault.valid = false → (∀ r ∈ commandTable, c &&& r.mask ≠ r.pattern) →
      step s = .next { s with host := rest, fault := { valid := true, code := 0x01 }, resp := 0xF0000001 }) ∧
  (∀ (s : State) (n : CsrNum) (x : CtxIdx), s.fault.valid = false →
    ((∀ r : Csr, r.number ≠ n) ∨ ((∃ r : Csr, r.number = n ∧ csrScope r = .block) ∧ x ≠ 0)) →
      exec (.csrRd n x) s = .next { s with fault := { valid := true, code := 0x01 }, resp := 0xF0000001 }) ∧
  (∀ r ∈ commandTable, (0x00000000 : Word) &&& r.mask ≠ r.pattern ∧ (0xFFFFFFFF : Word) &&& r.mask ≠ r.pattern)

/-- 60_exceptions.md R204: in the faulted state every word, whatever it is, is refused without being decoded: `RESP`
carries the code that is held and nothing else changes. Only reset leaves that state. -/
def Obligations.FaultedBlockRefusesEveryWord : Prop :=
  ∀ (s : State) (a : HostAction) (rest : List HostAction), s.host = a :: rest → s.fault.valid = true →
    (∀ c, a = .present c → step s = .next { s with host := rest, resp := 0xF00000#24 ++ s.fault.code }) ∧
    (∀ t, step s = .next t → t.fault.valid = false → a = .assertReset)

/-- 60_exceptions.md R204 at the level of one command: no command has an effect in the faulted state. That `exec`, and not
only the step before it, makes this check is the model's choice (log entry 10). -/
def Obligations.NoCommandRunsInTheFaultedState : Prop :=
  ∀ (i : Instr) (s : State), s.fault.valid = true →
    exec i s = .next { s with resp := 0xF00000#24 ++ s.fault.code }

/-- 60_exceptions.md R217: between commands the block holds its state and does nothing. That a time with no host action
is a step of its own is the model's choice (log entry 1). -/
def Obligations.IdleBlockHoldsItsState : Prop :=
  ∀ s : State, s.host = [] → step s = .next s

/-- 10_state.md R21: reading the response has no side effect. That the read is a step of its own is the model's choice
(log entries 1 and 14). -/
def Obligations.ReadingTheResponseHasNoSideEffect : Prop :=
  ∀ (s : State) (rest : List HostAction), s.host = .readResp :: rest → step s = .next { s with host := rest }

/-! ### Reset -/

/-- 10_state.md R48: the value of every piece of state after reset, under every configuration. -/
def Obligations.ResetValues : Prop :=
  ∀ cfg : Config, let s := State.resetOf cfg
    s.mem.size = 1 ∧ (∀ y, s.mem.nodeRead 0 y = some 0xFFFF) ∧ (∀ a y, 1 ≤ a.toNat → s.mem.nodeRead a y = none) ∧
    s.mem.sq = [] ∧ s.fs.bound = false ∧ s.fs.exh = false ∧ s.fs.rem = 0 ∧ s.fs.bits = 0 ∧ s.fs.w = .w3 ∧
    (∀ p : CtxIdx, p.toNat < cfg.npk → (s.pk p).stored = 0 ∧ (s.pk p).bits = 0) ∧
    (∀ e : CtxIdx, e.toNat < cfg.nen → (s.en e).isOpen = false ∧ (s.en e).node = 0 ∧ (s.en e).pos = 0) ∧
    s.fault.valid = false ∧ s.fault.code = 0 ∧ s.resp = 0

/-- 70_reset_and_hazards.md R230: reset asserted in any state, the faulted one included, gives the reset state of the
same configuration; what the host does after it is the host's (log entries 1 and 3). -/
def Obligations.ResetActionGivesTheResetState : Prop :=
  ∀ (s : State) (rest : List HostAction), s.host = .assertReset :: rest →
    step s = .next { State.resetOf s.cfg with host := rest }

/-- 70_reset_and_hazards.md R231: CSR.RD of any CSR directly after reset returns the last column of the table of
10_state.md R45. -/
def Obligations.CsrValuesAfterReset : Prop :=
  ∀ (cfg : Config) (x : CtxIdx),
    let answers := fun (c : CsrNum) (y : CtxIdx) (v : Value) =>
      exec (.csrRd c y) (State.resetOf cfg) = .next { State.resetOf cfg with resp := 0x1000#16 ++ v }
    (answers 0x00 0 0x0100 ∧ answers 0x01 0 (BitVec.ofNat 16 cfg.nodeMax) ∧ answers 0x02 0 (BitVec.ofNat 16 cfg.npk) ∧
      answers 0x03 0 (BitVec.ofNat 16 cfg.nen) ∧ answers 0x04 0 (BitVec.ofNat 16 cfg.sqDepth) ∧
      answers 0x08 0 0x0001 ∧ answers 0x10 0 0x0030 ∧ answers 0x11 0 0 ∧ answers 0x12 0 0 ∧ answers 0x18 0 0) ∧
    (x.toNat < cfg.npk → answers 0x20 x 0 ∧ answers 0x21 x 0) ∧
    (x.toNat < cfg.nen → answers 0x30 x 0 ∧ answers 0x31 x 0)

/-- The invariant of the model holds at reset under every legal configuration. -/
def Obligations.InvariantHoldsAtReset : Prop :=
  ∀ cfg : Config, cfg.Legal → (State.resetOf cfg).Inv

/-! ### The splitter and the source queue -/

/-- 40_splitter.md R122: SQ.PUT appends the byte of `imm[7:0]`, or raises SQ_FULL when the queue holds SQ_DEPTH
bytes. -/
def Obligations.SqPutAppendsAByte : Prop :=
  ∀ (s : State) (b : Byte), s.fault.valid = false →
    decodeWord (0x28#8 ++ 0#16 ++ b) = .ok (.sqPut b) ∧
    (s.mem.sq.length < s.cfg.sqDepth →
      exec (.sqPut b) s = .next { s with mem := { s.mem with sq := s.mem.sq ++ [b] }, resp := 0x00000000 }) ∧
    (s.mem.sq.length = s.cfg.sqDepth →
      exec (.sqPut b) s = .next { s with fault := { valid := true, code := 0x05 }, resp := 0xF0000005 })

/-- 40_splitter.md R123: SQ.CLR empties the queue and touches nothing else, the splitter registers included. -/
def Obligations.SqClrEmptiesTheQueue : Prop :=
  ∀ s : State, s.fault.valid = false →
    decodeWord 0x29000000 = .ok .sqClr ∧
    exec .sqClr s = .next { s with mem := { s.mem with sq := [] }, resp := 0x00000000 }

/-- 40_splitter.md R124: FS.BIND creates a fresh splitter of the width that `imm[0]` selects and touches nothing else,
the queue included. -/
def Obligations.FsBindCreatesAFreshSplitter : Prop :=
  ∀ (s : State) (w : Width), s.fault.valid = false →
    decodeWord 0x20000000 = .ok (.fsBind .w3) ∧ decodeWord 0x20000001 = .ok (.fsBind .w4) ∧
    exec (.fsBind w) s =
      .next { s with fs := { w := w, rem := 0, bits := 0, exh := false, bound := true }, resp := 0x00000000 }

/-- 40_splitter.md R125, R121 in the arithmetic of R130: what FS.NEXT answers and leaves, case by case, in a state whose
splitter meets its invariant. -/
def Obligations.FsNextProducesTheNextSymbol : Prop :=
  ∀ s : State, s.fault.valid = false → s.fs.Inv →
    let w := symbolWidth s.fs.w
    let r := s.fs.rem.toNat
    let n := s.fs.bits.toNat
    decodeWord 0x21000000 = .ok .fsNext ∧
    (s.fs.bound = false →
      exec .fsNext s = .next { s with fault := { valid := true, code := 0x06 }, resp := 0xF0000006 }) ∧
    (s.fs.bound = true → s.fs.exh = true → exec .fsNext s = .next { s with resp := 0x20000000 }) ∧
    (s.fs.bound = true → s.fs.exh = false → w ≤ n →
      exec .fsNext s = .next { s with
        fs := { s.fs with rem := BitVec.ofNat 16 (r / 2 ^ w), bits := BitVec.ofNat 4 (n - w) }
        resp := 0x1000#16 ++ BitVec.ofNat 16 (r % 2 ^ w) }) ∧
    (∀ b rest, s.fs.bound = true → s.fs.exh = false → n < w → s.mem.sq = b :: rest →
      exec .fsNext s = .next { s with
        mem := { s.mem with sq := rest }
        fs := { s.fs with
          rem := BitVec.ofNat 16 ((r + b.toNat * 2 ^ n) / 2 ^ w), bits := BitVec.ofNat 4 (n + 8 - w) }
        resp := 0x1000#16 ++ BitVec.ofNat 16 ((r + b.toNat * 2 ^ n) % 2 ^ w) }) ∧
    (s.fs.bound = true → s.fs.exh = false → n < w → s.mem.sq = [] →
      exec .fsNext s = .next { s with
        fs := { s.fs with rem := 0, bits := 0, exh := true }
        resp := if n = 0 then 0x20000000 else 0x1000#16 ++ s.fs.rem })

/-- 40_splitter.md R126: after FS.BIND w over a queue of bytes, the k-th FS.NEXT answers symbol number k of the byte
string for k below `ceil(8n / w)`, and END from then on. -/
def Obligations.SplitterSequenceInClosedForm : Prop :=
  ∀ (s : State) (w : Width) (k : Nat), s.fault.valid = false →
    ∃ t, runAll (.fsBind w :: List.replicate (k + 1) .fsNext) s = .next t ∧
      t.resp = if k < symbolCount w s.mem.sq.length then 0x1000#16 ++ BitVec.ofNat 16 (symbolAt w s.mem.sq k)
        else 0x20000000

/-- 40_splitter.md R129: exactly `ceil(8n / w)` FS.NEXT commands answer VAL before the first END, 2n of them at w = 4, and
exactly the n bytes are pulled. -/
def Obligations.SplitterConservesWidth : Prop :=
  ∀ (s : State) (w : Width), s.fault.valid = false →
    let n := s.mem.sq.length
    let m := symbolCount w n
    (w = .w4 → m = 2 * n) ∧ (w = .w3 → 8 * n ≤ 3 * m ∧ 3 * m < 8 * n + 3) ∧
    ∃ b t u, exec (.fsBind w) s = .next b ∧ runAll (List.replicate m .fsNext) b = .next t ∧
      (respValues (responses (List.replicate m .fsNext) b)).length = m ∧ t.mem.sq = [] ∧
      exec .fsNext t = .next u ∧ u.resp = 0x20000000

/-- 40_splitter.md R131: what FS.NEXT answers and leaves in the splitter and the queue depends on nothing but the splitter
registers and the queue, and it changes nothing else. -/
def Obligations.FsNextIsPure : Prop :=
  ∀ s u : State, s.fault.valid = false → u.fault.valid = false → s.fs = u.fs → s.mem.sq = u.mem.sq →
    ∃ t v, exec .fsNext s = .next t ∧ exec .fsNext u = .next v ∧
      t.resp = v.resp ∧ t.fs = v.fs ∧ t.mem.sq = v.mem.sq ∧ t.fault.valid = v.fault.valid ∧
      t.mem.nodes = s.mem.nodes ∧ t.pks = s.pks ∧ t.ens = s.ens ∧ t.cfg = s.cfg ∧ t.host = s.host

/-- 10_state.md R31: the splitter invariant, true after reset and after every step. -/
def Obligations.SplitterInvariantKept : Prop :=
  (∀ cfg, (State.resetOf cfg).fs.Inv) ∧
  (∀ s t : State, s.fs.Inv → step s = .next t →
    t.fs.rem.toNat < 2 ^ t.fs.bits.toNat ∧ t.fs.bits.toNat ≤ 7 ∧
      (t.fs.exh = true → t.fs.rem = 0 ∧ t.fs.bits = 0) ∧ (t.fs.w = .w4 → t.fs.bits = 0 ∨ t.fs.bits = 4))

/-! ### The packer -/

/-- 41_packer.md R142: PK.CLR makes the context of `ctx` fresh and touches nothing else. -/
def Obligations.PkClrMakesAFreshPacker : Prop :=
  ∀ (s : State) (p : CtxIdx), s.fault.valid = false →
    decodeWord (0x30#8 ++ p ++ 0#20) = .ok (.pkClr p) ∧
    (p.toNat < s.cfg.npk →
      ∃ t, exec (.pkClr p) s = .next t ∧ t.resp = 0x00000000 ∧ t.pk p = { stored := 0, bits := 0 } ∧
        (∀ q, q ≠ p → t.pk q = s.pk q) ∧ t = { s with pks := t.pks, resp := t.resp }) ∧
    (s.cfg.npk ≤ p.toNat →
      exec (.pkClr p) s = .next { s with fault := { valid := true, code := 0x02 }, resp := 0xF0000002 })

/-- 41_packer.md R143, R141 in the arithmetic of R147: the symbol goes above the buffered bits; with fewer than eight bits
all are kept and the answer is NONE, else the low eight are answered and the rest kept. -/
def Obligations.PkPushPacksOneSymbol : Prop :=
  ∀ (s : State) (p : CtxIdx) (y : Symbol), s.fault.valid = false → (s.pk p).Inv →
    let combined := (s.pk p).stored.toNat + y.toNat * 2 ^ (s.pk p).bits.toNat
    let n := (s.pk p).bits.toNat + 3
    decodeWord (0x31#8 ++ p ++ 0#1 ++ y ++ 0#16) = .ok (.pkPush p y) ∧
    (p.toNat < s.cfg.npk →
      ∃ t, exec (.pkPush p y) s = .next t ∧ (∀ q, q ≠ p → t.pk q = s.pk q) ∧
        t = { s with pks := t.pks, resp := t.resp } ∧
        (n < 8 → t.resp = 0x30000000 ∧ (t.pk p).stored.toNat = combined ∧ (t.pk p).bits.toNat = n) ∧
        (8 ≤ n → t.resp = 0x1000#16 ++ BitVec.ofNat 16 (combined % 256) ∧
          (t.pk p).stored.toNat = combined / 256 ∧ (t.pk p).bits.toNat = n - 8)) ∧
    (s.cfg.npk ≤ p.toNat →
      exec (.pkPush p y) s = .next { s with fault := { valid := true, code := 0x02 }, resp := 0xF0000002 })

/-- 41_packer.md R144: PK.COPY makes the destination equal to the source and touches nothing else, the source
included. -/
def Obligations.PkCopyCopiesAContext : Prop :=
  ∀ (s : State) (d q : CtxIdx), s.fault.valid = false →
    decodeWord (0x32#8 ++ d ++ 0#16 ++ q) = .ok (.pkCopy d q) ∧
    (d.toNat < s.cfg.npk → q.toNat < s.cfg.npk →
      ∃ t, exec (.pkCopy d q) s = .next t ∧ t.resp = 0x00000000 ∧ t.pk d = s.pk q ∧
        (∀ x, x ≠ d → t.pk x = s.pk x) ∧ t = { s with pks := t.pks, resp := t.resp } ∧
        (d = q → t = { s with resp := t.resp })) ∧
    ((s.cfg.npk ≤ d.toNat ∨ s.cfg.npk ≤ q.toNat) →
      exec (.pkCopy d q) s = .next { s with fault := { valid := true, code := 0x02 }, resp := 0xF0000002 })

/-- 10_state.md R35: the packer invariant, true for every context after reset and after every step. -/
def Obligations.PackerInvariantKept : Prop :=
  (∀ cfg p, ((State.resetOf cfg).pk p).Inv) ∧
  (∀ s t : State, (∀ p, (s.pk p).Inv) → step s = .next t →
    ∀ p, (t.pk p).bits.toNat ≤ 7 ∧ (t.pk p).stored.toNat < 2 ^ (t.pk p).bits.toNat)

/-- 41_packer.md R145: pushing the whole 3-bit symbol sequence of a byte string into a cleared context answers VAL
exactly n times, and the values in order are its n bytes. -/
def Obligations.PackerInvertsTheSplitter : Prop :=
  ∀ (s : State) (p : CtxIdx) (bytes : List Byte), s.fault.valid = false → p.toNat < s.cfg.npk →
    let prog := Instr.pkClr p :: (octalSymbols bytes).map (fun y => .pkPush p y)
    ∃ t, runAll prog s = .next t ∧ respValues (responses prog s) = bytes.map (fun b => b.setWidth 16)

/-- 41_packer.md R146: after the pushes of a round trip the context holds `3m - 8n` zero bits: 0, 1 or 2, the remainder
of n by 3. -/
def Obligations.PackerStateAfterARoundTrip : Prop :=
  ∀ (s t : State) (p : CtxIdx) (bytes : List Byte), s.fault.valid = false → p.toNat < s.cfg.npk →
    runAll (Instr.pkClr p :: (octalSymbols bytes).map (fun y => .pkPush p y)) s = .next t →
      (t.pk p).stored = 0 ∧ (t.pk p).bits.toNat = 3 * (octalSymbols bytes).length - 8 * bytes.length ∧
        (t.pk p).bits.toNat = bytes.length % 3

/-- 41_packer.md R148: from a cleared context, push number `ceil(8(j+1)/3) - 1` answers byte j of `M`, and every other
push answers NONE. -/
def Obligations.PackerGeneralLaw : Prop :=
  ∀ (s : State) (p : CtxIdx) (syms : List Symbol) (k : Nat), s.fault.valid = false → p.toNat < s.cfg.npk →
    k < syms.length →
    ∃ t, runAll (.pkClr p :: (syms.take (k + 1)).map (fun y => .pkPush p y)) s = .next t ∧
      (∀ j, k + 1 = (8 * (j + 1) + 2) / 3 →
        t.resp = 0x1000#16 ++ BitVec.ofNat 16 (symbolNumber syms / 2 ^ (8 * j) % 256)) ∧
      ((∀ j, k + 1 ≠ (8 * (j + 1) + 2) / 3) → t.resp = 0x30000000)

/-- 10_state.md R32: a command changes only the packer context it names as destination. -/
def Obligations.PackerContextsAreIndependent : Prop :=
  ∀ (i : Instr) (s t : State) (p : CtxIdx), exec i s = .next t → packerWritten i ≠ some p → t.pk p = s.pk p

/-! ### The trie -/

/-- 42_trie.md R157: TR.NEW leaves the root alone with all slots absent, closes every enumerator, and touches nothing
else. -/
def Obligations.TrNewLeavesTheRootAlone : Prop :=
  ∀ s : State, s.fault.valid = false →
    decodeWord 0x01000000 = .ok .trNew ∧
    ∃ t, exec .trNew s = .next t ∧ t.resp = 0x00000000 ∧ t.mem.size = 1 ∧
      (∀ y, t.mem.nodeRead 0 y = some absent) ∧
      (∀ e : CtxIdx, e.toNat < s.cfg.nen → t.en e = { s.en e with isOpen := false }) ∧
      t = { s with mem := { s.mem with nodes := t.mem.nodes }, ens := t.ens, resp := t.resp }

/-- 42_trie.md R158, R156: TR.NAV answers the child that exists and changes nothing; else it creates node `size` with all
slots absent, stores its address in that one slot and answers it; BAD_ADDR and CAPACITY otherwise. -/
def Obligations.TrNavFollowsOrCreatesTheChild : Prop :=
  ∀ (s : State) (a : NodeAddr) (y : Symbol), s.fault.valid = false → s.cfg.Legal →
    decodeWord (0x02#8 ++ 0#5 ++ y ++ a) = .ok (.trNav a y) ∧
    (s.mem.size ≤ a.toNat →
      exec (.trNav a y) s = .next { s with fault := { valid := true, code := 0x03 }, resp := 0xF0000003 }) ∧
    (∀ v, s.mem.nodeRead a y = some v → v ≠ absent →
      exec (.trNav a y) s = .next { s with resp := 0x1000#16 ++ v }) ∧
    (s.mem.nodeRead a y = some absent → s.mem.size = s.cfg.nodeMax →
      exec (.trNav a y) s = .next { s with fault := { valid := true, code := 0x04 }, resp := 0xF0000004 }) ∧
    (s.mem.nodeRead a y = some absent → s.mem.size < s.cfg.nodeMax →
      ∃ t c, exec (.trNav a y) s = .next t ∧ c.toNat = s.mem.size ∧ t.resp = 0x1000#16 ++ c ∧
        t.mem.size = s.mem.size + 1 ∧ t.mem.nodeRead a y = some c ∧
        (∀ z, t.mem.nodeRead c z = some absent) ∧
        (∀ b z, b ≠ c → (b ≠ a ∨ z ≠ y) → t.mem.nodeRead b z = s.mem.nodeRead b z) ∧
        t = { s with mem := { s.mem with nodes := t.mem.nodes }, resp := t.resp })

/-- 42_trie.md R159: TR.CNT answers the number of slots that are not absent, or raises BAD_ADDR; no state changes but
RESP and, on the fault, FAULT. -/
def Obligations.TrCntCountsTheChildren : Prop :=
  ∀ (s : State) (a : NodeAddr), s.fault.valid = false →
    decodeWord (0x03#8 ++ 0#8 ++ a) = .ok (.trCnt a) ∧
    (s.mem.size ≤ a.toNat →
      exec (.trCnt a) s = .next { s with fault := { valid := true, code := 0x03 }, resp := 0xF0000003 }) ∧
    (a.toNat < s.mem.size →
      ∃ n : Nat, n = (Finset.univ.filter (fun y : Symbol => s.mem.nodeRead a y ≠ some absent)).card ∧ n ≤ 8 ∧
        exec (.trCnt a) s = .next { s with resp := 0x1000#16 ++ BitVec.ofNat 16 n })

/-- 42_trie.md R162 and 60_exceptions.md R205: TR.ADDS makes one navigate step per 3-bit symbol of the queue's bytes, from
the root. When all are made the queue is empty and the answer is DONE; when step k finds the arena full, the effects of
the steps before it stay, `min(n, ceil(3k/8))` bytes are gone and CAPACITY is raised. Nothing else changes. -/
def Obligations.TrAddsInsertsTheSymbolPath : Prop :=
  ∀ s : State, s.Inv → s.fault.valid = false →
    let bytes := s.mem.sq
    let path := octalSymbols bytes
    let left := (insertPath s.cfg path 0 s.mem).1
    let nodes := (insertPath s.cfg path 0 s.mem).2.nodes
    let k := path.length - left.length + 1
    decodeWord 0x04000000 = .ok .trAdds ∧
    (left = [] →
      exec .trAdds s = .next { s with mem := { nodes := nodes, sq := [] }, resp := 0x00000000 }) ∧
    (left ≠ [] →
      exec .trAdds s = .next { s with
        mem := { nodes := nodes, sq := bytes.drop (min bytes.length ((3 * k + 7) / 8)) }
        fault := { valid := true, code := 0x04 }
        resp := 0xF0000004 })

/-- 42_trie.md R162: a string for which there is room is added, whatever the trie holds. -/
def Obligations.TrAddsCompletesWhenThereIsRoom : Prop :=
  ∀ s : State, s.Inv → s.fault.valid = false →
    s.mem.size + symbolCount .w3 s.mem.sq.length ≤ s.cfg.nodeMax →
      ∃ t, exec .trAdds s = .next t ∧ t.resp = 0x00000000 ∧ t.fault.valid = false ∧ t.mem.sq = [] ∧ t.fs = s.fs ∧
        s.mem.size ≤ t.mem.size ∧ t.mem.size ≤ s.mem.size + symbolCount .w3 s.mem.sq.length ∧
        (walk t.mem 0 (octalSymbols s.mem.sq)).isSome

/-- 42_trie.md R163: a second string re-uses the nodes of the symbol prefix it shares with one already added: the shared
prefix leads to the same nodes, and at most one node per symbol beyond it is created. -/
def Obligations.StringsShareTheirCommonPrefix : Prop :=
  ∀ (s t u v : State) (shared : List Symbol), s.Inv → s.fault.valid = false →
    exec .trAdds s = .next t → t.fault.valid = false →
    u.Inv → u.mem.nodes = t.mem.nodes → u.fault.valid = false →
    exec .trAdds u = .next v → v.fault.valid = false →
    shared <+: octalSymbols s.mem.sq → shared <+: octalSymbols u.mem.sq →
      (walk t.mem 0 shared).isSome ∧ (∀ pre, pre <+: shared → walk v.mem 0 pre = walk t.mem 0 pre) ∧
      v.mem.size + shared.length ≤ t.mem.size + (octalSymbols u.mem.sq).length

/-- 42_trie.md R164 and 10_state.md R42 (b): within one lifetime of the trie the arena never shrinks and a child address
never changes; and every address that TR.NAV or EN.NEXT answers, and every one that TR.ADDS passes through, is below the
size after the command. -/
def Obligations.AddressSpaceIsMonotonic : Prop :=
  ∀ (i : Instr) (s t : State), s.Inv → i ≠ .trNew → exec i s = .next t →
    s.mem.size ≤ t.mem.size ∧
    (∀ a y v, s.mem.nodeRead a y = some v → v ≠ absent → t.mem.nodeRead a y = some v) ∧
    (∀ (a : NodeAddr) (y : Symbol) (c : NodeAddr),
      i = .trNav a y → t.fault.valid = false → t.resp = 0x1000#16 ++ c → c.toNat < t.mem.size) ∧
    (∀ (e : CtxIdx) (y : Symbol) (c : NodeAddr),
      i = .enNext e → t.fault.valid = false → t.resp = 0x1#4 ++ 0#9 ++ y ++ c → c.toNat < t.mem.size) ∧
    (i = .trAdds → s.fault.valid = false →
      let path := octalSymbols s.mem.sq
      let left := (insertPath s.cfg path 0 s.mem).1
      ∀ k, k + left.length ≤ path.length → ∃ c, walk t.mem 0 (path.take k) = some c ∧ c.toNat < t.mem.size)

/-- 10_state.md R42: the arena is a tree rooted at node 0 whose slots hold valid addresses greater than their node's,
after reset and after every step; and within one lifetime it only grows. -/
def Obligations.ArenaStaysATree : Prop :=
  (∀ cfg : Config, cfg.Legal → ArenaInv cfg (State.resetOf cfg).mem) ∧
  (∀ s t : State, s.cfg.Legal → ArenaInv s.cfg s.mem → step s = .next t →
    ArenaInv t.cfg t.mem ∧ t.mem.size ≤ 65535 ∧
    ((∀ rest, s.host ≠ .assertReset :: rest ∧ s.host ≠ .present (encode .trNew) :: rest) →
      s.mem.size ≤ t.mem.size ∧
        ∀ a y v, s.mem.nodeRead a y = some v → v ≠ absent → t.mem.nodeRead a y = some v))

/-- 10_state.md R43: only TR.NEW, TR.NAV and TR.ADDS write the arena, and no command but TR.NEW, which starts a new trie,
destroys a node or changes a slot that is not absent. -/
def Obligations.OnlyTrieCommandsWriteTheArena : Prop :=
  (∀ (i : Instr) (s t : State), writesArena i = false → exec i s = .next t → t.mem.nodes = s.mem.nodes) ∧
  (∀ (i : Instr) (s t : State), s.Inv → i ≠ .trNew → exec i s = .next t →
    s.mem.size ≤ t.mem.size ∧
      ∀ a y v, s.mem.nodeRead a y = some v → v ≠ absent → t.mem.nodeRead a y = some v)

/-! ### The enumerator -/

/-- 43_enumerator.md R176: EN.OPEN starts an enumeration in the named context; BAD_CTX before BAD_ADDR. -/
def Obligations.EnOpenStartsAnEnumeration : Prop :=
  ∀ (s : State) (e : CtxIdx) (a : NodeAddr), s.fault.valid = false →
    decodeWord (0x10#8 ++ e ++ 0#4 ++ a) = .ok (.enOpen e a) ∧
    (s.cfg.nen ≤ e.toNat →
      exec (.enOpen e a) s = .next { s with fault := { valid := true, code := 0x02 }, resp := 0xF0000002 }) ∧
    (e.toNat < s.cfg.nen → s.mem.size ≤ a.toNat →
      exec (.enOpen e a) s = .next { s with fault := { valid := true, code := 0x03 }, resp := 0xF0000003 }) ∧
    (e.toNat < s.cfg.nen → a.toNat < s.mem.size →
      ∃ t, exec (.enOpen e a) s = .next t ∧ t.resp = 0x00000000 ∧
        t.en e = { isOpen := true, node := a, pos := 0 } ∧ (∀ x, x ≠ e → t.en x = s.en x) ∧
        t = { s with ens := t.ens, resp := t.resp })

/-- 43_enumerator.md R177: EN.NEXT answers the pair of the lowest symbol at or above `pos` whose slot is not absent at
that moment and moves `pos` past it; else END with `pos` 8; NOT_OPEN when the context is not open. -/
def Obligations.EnNextYieldsTheNextPair : Prop :=
  ∀ (s : State) (e : CtxIdx), s.fault.valid = false →
    let a := (s.en e).node
    let pos := (s.en e).pos.toNat
    decodeWord (0x11#8 ++ e ++ 0#20) = .ok (.enNext e) ∧
    (s.cfg.nen ≤ e.toNat →
      exec (.enNext e) s = .next { s with fault := { valid := true, code := 0x02 }, resp := 0xF0000002 }) ∧
    (e.toNat < s.cfg.nen → (s.en e).isOpen = false →
      exec (.enNext e) s = .next { s with fault := { valid := true, code := 0x07 }, resp := 0xF0000007 }) ∧
    (∀ y v, e.toNat < s.cfg.nen → (s.en e).isOpen = true → pos ≤ y.toNat → s.mem.nodeRead a y = some v → v ≠ absent →
      (∀ z : Symbol, pos ≤ z.toNat → z.toNat < y.toNat → s.mem.nodeRead a z = some absent) →
        ∃ t, exec (.enNext e) s = .next t ∧ t.resp = 0x1#4 ++ 0#9 ++ y ++ v ∧
          t.en e = { s.en e with pos := BitVec.ofNat 4 (y.toNat + 1) } ∧ (∀ x, x ≠ e → t.en x = s.en x) ∧
          t = { s with ens := t.ens, resp := t.resp }) ∧
    (e.toNat < s.cfg.nen → (s.en e).isOpen = true → a.toNat < s.mem.size →
      (∀ z : Symbol, pos ≤ z.toNat → s.mem.nodeRead a z = some absent) →
        ∃ t, exec (.enNext e) s = .next t ∧ t.resp = 0x20000000 ∧
          t.en e = { s.en e with pos := 8 } ∧ (∀ x, x ≠ e → t.en x = s.en x) ∧
          t = { s with ens := t.ens, resp := t.resp })

/-- 43_enumerator.md R178: EN.CLOSE clears the open flag of the named context; closing one that is not open changes
nothing but RESP. -/
def Obligations.EnCloseDropsTheEnumeration : Prop :=
  ∀ (s : State) (e : CtxIdx), s.fault.valid = false →
    decodeWord (0x12#8 ++ e ++ 0#20) = .ok (.enClose e) ∧
    (e.toNat < s.cfg.nen →
      ∃ t, exec (.enClose e) s = .next t ∧ t.resp = 0x00000000 ∧
        t.en e = { s.en e with isOpen := false } ∧ (∀ x, x ≠ e → t.en x = s.en x) ∧
        t = { s with ens := t.ens, resp := t.resp } ∧
        ((s.en e).isOpen = false → t = { s with resp := t.resp })) ∧
    (s.cfg.nen ≤ e.toNat →
      exec (.enClose e) s = .next { s with fault := { valid := true, code := 0x02 }, resp := 0xF0000002 })

/-- 43_enumerator.md R179: when no command between writes the arena or names the context otherwise, the answers of EN.NEXT
are the pairs of the node in ascending symbol order and then END, and there are as many pairs as TR.CNT answers. -/
def Obligations.EnumerationAgreesWithTheCount : Prop :=
  ∀ (s t : State) (e : CtxIdx) (a : NodeAddr) (n : Node) (prog : List Instr),
    s.fault.valid = false → e.toNat < s.cfg.nen → s.mem.nodes[a.toNat]? = some n →
    (∀ i ∈ prog, writesArena i = false ∧ i ≠ .enClose e ∧ ∀ b, i ≠ .enOpen e b) →
    runAll (.enOpen e a :: prog) s = .next t → t.fault.valid = false →
      let pairs := childPairs n
      let asked := prog.count (.enNext e)
      responsesOf (.enNext e) (.enOpen e a :: prog) s =
        (pairs.map (fun q : Symbol × SlotWord => 0x1#4 ++ 0#9 ++ q.1 ++ q.2) ++ List.replicate asked 0x20000000).take asked ∧
      exec (.trCnt a) s = .next { s with resp := 0x1000#16 ++ BitVec.ofNat 16 pairs.length } ∧
      pairs = (allSymbols.filter (fun y => s.mem.nodeRead a y != some absent)).map (fun y => (y, n.slot y))

/-- 10_state.md R39: the enumerator invariant, true after reset and after every step. -/
def Obligations.EnumeratorInvariantKept : Prop :=
  (∀ cfg e, ((State.resetOf cfg).en e).Inv (State.resetOf cfg).mem.size) ∧
  (∀ s t : State, (∀ e, (s.en e).Inv s.mem.size) → step s = .next t →
    ∀ e, (t.en e).pos.toNat ≤ 8 ∧ ((t.en e).isOpen = true → (t.en e).node.toNat < t.mem.size))

/-- 43_enumerator.md R180: an enumerator context is changed only by the EN commands that name it and by TR.NEW; an EN
command changes nothing outside its context but RESP and, on a fault, FAULT. -/
def Obligations.EnumeratorsAreIndependent : Prop :=
  ∀ (i : Instr) (s t : State), exec i s = .next t →
    (∀ e, enumeratorNamed i ≠ some e → i ≠ .trNew → t.en e = s.en e) ∧
    (∀ e, enumeratorNamed i = some e →
      (∀ x, x ≠ e → t.en x = s.en x) ∧ t = { s with ens := t.ens, resp := t.resp, fault := t.fault })

/-! ### Status registers -/

/-- 44_system.md R190 and 30_encoding.md R99 steps 3 and 4: CSR.RD answers the content of the register that the table of
10_state.md R45 gives, changes nothing else, and faults as the prologue says. -/
def Obligations.CsrRdAnswersTheRegister : Prop :=
  ∀ (s : State) (x : CtxIdx), s.fault.valid = false →
    (∀ c : CsrNum, decodeWord (0x40#8 ++ x ++ 0#12 ++ c) = .ok (.csrRd c x)) ∧
    let answers := fun (c : CsrNum) (v : Value) => exec (.csrRd c x) s = .next { s with resp := 0x1000#16 ++ v }
    let badCtx := fun (c : CsrNum) =>
      exec (.csrRd c x) s = .next { s with fault := { valid := true, code := 0x02 }, resp := 0xF0000002 }
    let illegal := fun (c : CsrNum) =>
      exec (.csrRd c x) s = .next { s with fault := { valid := true, code := 0x01 }, resp := 0xF0000001 }
    let bit := fun b : Bool => if b then 1 else 0
    (∀ c, (∀ r : Csr, r.number ≠ c) → illegal c) ∧
    (x ≠ 0 → ∀ r : Csr, csrScope r = .block → illegal r.number) ∧
    (x = 0 →
      answers 0x00 0x0100 ∧ answers 0x01 (BitVec.ofNat 16 s.cfg.nodeMax) ∧ answers 0x02 (BitVec.ofNat 16 s.cfg.npk) ∧
      answers 0x03 (BitVec.ofNat 16 s.cfg.nen) ∧ answers 0x04 (BitVec.ofNat 16 s.cfg.sqDepth) ∧
      answers 0x08 (BitVec.ofNat 16 s.mem.size) ∧
      answers 0x10 (BitVec.ofNat 16 (bit s.fs.bound + 2 * bit s.fs.exh + 16 * symbolWidth s.fs.w)) ∧
      answers 0x11 s.fs.rem ∧ answers 0x12 (BitVec.ofNat 16 s.fs.bits.toNat) ∧
      answers 0x18 (BitVec.ofNat 16 s.mem.sq.length)) ∧
    (x.toNat < s.cfg.npk →
      answers 0x20 (BitVec.ofNat 16 (s.pk x).stored.toNat) ∧ answers 0x21 (BitVec.ofNat 16 (s.pk x).bits.toNat)) ∧
    (s.cfg.npk ≤ x.toNat → badCtx 0x20 ∧ badCtx 0x21) ∧
    (x.toNat < s.cfg.nen →
      answers 0x30 (BitVec.ofNat 16 (bit (s.en x).isOpen + 16 * (s.en x).pos.toNat)) ∧ answers 0x31 (s.en x).node) ∧
    (s.cfg.nen ≤ x.toNat → badCtx 0x30 ∧ badCtx 0x31)

/-! ### Faults and responses -/

/-- 60_exceptions.md R203: raising a fault sets FAULT to valid with the code, answers `0xF00000cc` and saves nothing
else; a command that raises one does that, with one of the seven codes, and a command that raises none leaves FAULT
alone. -/
def Obligations.FaultEntry : Prop :=
  (∀ (s : State) (code : FaultCode),
    s.raise code = { s with fault := { valid := true, code := code.number }, resp := 0xF00000#24 ++ code.number }) ∧
  (∀ (i : Instr) (s t : State), s.fault.valid = false → exec i s = .next t →
    t.fault = s.fault ∨
      (∃ code : FaultCode, t.fault = { valid := true, code := code.number } ∧ t.resp = 0xF00000#24 ++ code.number))

/-- 10_state.md R23: FAULT holds the code of the first fault since reset: a step changes it only from the state with no
fault, or by reset. -/
def Obligations.FaultRegisterIsSticky : Prop :=
  ∀ s t : State, step s = .next t → s.fault.valid = true → (∀ rest, s.host ≠ .assertReset :: rest) → t.fault = s.fault

/-- 60_exceptions.md R205: a command that raises a fault changes nothing but FAULT and RESP, TR.ADDS apart: of TR.ADDS
raising CAPACITY at its k-th navigate step, the nodes and slots of the steps before stay, the queue has lost
`min(n, ceil(3k/8))` bytes, and nothing else has changed. -/
def Obligations.FaultsArePrecise : Prop :=
  (∀ (i : Instr) (s t : State), s.fault.valid = false → i ≠ .trAdds → exec i s = .next t → t.fault.valid = true →
    t = { s with fault := t.fault, resp := t.resp }) ∧
  (∀ s t : State, s.Inv → s.fault.valid = false → exec .trAdds s = .next t → t.fault.valid = true →
    ∃ k, 1 ≤ k ∧ k ≤ (octalSymbols s.mem.sq).length ∧
      insertPath s.cfg ((octalSymbols s.mem.sq).take (k - 1)) 0 s.mem = ([], { s.mem with nodes := t.mem.nodes }) ∧
      t.mem.sq = s.mem.sq.drop (min s.mem.sq.length ((3 * k + 7) / 8)) ∧
      t = { s with mem := t.mem, fault := { valid := true, code := 0x04 }, resp := 0xF0000004 })

/-- 60_exceptions.md R206: the order of the checks: refusal, ILLEGAL_CMD, BAD_CTX, the command's own first check,
CAPACITY. -/
def Obligations.FaultPriority : Prop :=
  (∀ (s : State) (c : Word), s.fault.valid = true → runWord exec c s = .next s.refuse) ∧
  (∀ (s : State) (c : Word), s.fault.valid = false → (∀ i, decodeWord c ≠ .ok i) →
    runWord exec c s = .next (s.raise .illegalCmd)) ∧
  (∀ (s : State) (i : Instr), s.fault.valid = false → i.isLegal = false → exec i s = .next (s.raise .illegalCmd)) ∧
  (∀ (s : State) (i : Instr), s.fault.valid = false → i.isLegal = true → i.ctxInRange s.cfg = false →
    exec i s = .next (s.raise .badCtx)) ∧
  (∀ s : State, s.fault.valid = false →
    (s.fs.bound = false → exec .fsNext s = .next (s.raise .notBound)) ∧
    (∀ e, (Instr.enNext e).ctxInRange s.cfg = true → (s.en e).isOpen = false →
      exec (.enNext e) s = .next (s.raise .notOpen)) ∧
    (∀ a, s.mem.size ≤ a.toNat →
      (∀ y, exec (.trNav a y) s = .next (s.raise .badAddr)) ∧ exec (.trCnt a) s = .next (s.raise .badAddr) ∧
      ∀ e, (Instr.enOpen e a).ctxInRange s.cfg = true → exec (.enOpen e a) s = .next (s.raise .badAddr)) ∧
    (∀ b, s.mem.sq.length = s.cfg.sqDepth → exec (.sqPut b) s = .next (s.raise .sqFull)) ∧
    (∀ a y, s.mem.nodeRead a y = some absent → s.mem.size = s.cfg.nodeMax →
      exec (.trNav a y) s = .next (s.raise .capacity)) ∧
    (∀ t, exec .trAdds s = .next t → t.fault.valid = true → t.fault.code = 0x04))

/-- 30_encoding.md R100: the response word of every command that completes without a fault, and of one that faults. -/
def Obligations.ResponseWordOfEachCommand : Prop :=
  ∀ (i : Instr) (s t : State), s.Inv → exec i s = .next t →
    (t.fault.valid = true → t.resp = 0xF00000#24 ++ t.fault.code) ∧
    (t.fault.valid = false →
      match i with
      | .trNew | .trAdds | .enOpen _ _ | .enClose _ | .fsBind _ | .sqPut _ | .sqClr | .pkClr _ | .pkCopy _ _ =>
        t.resp = 0x00000000
      | .trNav a y => ∃ c, t.resp = 0x1000#16 ++ c ∧ t.mem.nodeRead a y = some c ∧ c ≠ absent
      | .trCnt a => ∃ n : Nat, n ≤ 8 ∧ t.resp = 0x1000#16 ++ BitVec.ofNat 16 n ∧
          n = (Finset.univ.filter (fun y : Symbol => t.mem.nodeRead a y ≠ some absent)).card
      | .enNext e =>
        t.resp = 0x20000000 ∨
          ∃ y c, t.resp = 0x1#4 ++ 0#9 ++ y ++ c ∧ t.mem.nodeRead (s.en e).node y = some c ∧ c ≠ absent
      | .fsNext =>
        t.resp = 0x20000000 ∨
          ∃ n : Nat, n < 2 ^ symbolWidth s.fs.w ∧ t.resp = 0x1000#16 ++ BitVec.ofNat 16 n
      | .pkPush _ _ => t.resp = 0x30000000 ∨ ∃ b : Byte, t.resp = 0x1000#16 ++ 0#8 ++ b
      | .csrRd c x => ∃ r : Csr, r.number = c ∧ t.resp = 0x1000#16 ++ csrValue s x r)

/-! ### The whole machine -/

/-- Every step keeps the invariant of the model, from every state that meets it. -/
def Obligations.StepKeepsTheInvariant : Prop :=
  ∀ s t : State, s.Inv → step s = .next t → t.Inv

/-- 00_scope.md R11: the step is total: from every state that meets the invariant it answers a next state, whatever the
host does. -/
def Obligations.StepNeverStops : Prop :=
  ∀ s : State, s.Inv → ∃ t, step s = .next t

/-- The stops of the model (log entries 6 and 7): under a legal configuration no command is refused, and a command stops
with a fault only where a slot outside the arena would be read, in an enumeration of no node or an arena without its
invariant; the bound on the loop of TR.ADDS is never what stops it. -/
def Obligations.OnlyAReadOutsideTheArenaStops : Prop :=
  ∀ (i : Instr) (s : State), s.cfg.Legal →
    (∀ r, exec i s ≠ .refused r) ∧
    (∀ f, exec i s = .fault f → f = .noSuchNode ∧ s.fault.valid = false ∧
      ((∃ e, i = .enNext e ∧ (s.en e).isOpen = true ∧ s.mem.size ≤ (s.en e).node.toNat) ∨
        (i = .trAdds ∧ ¬ ArenaInv s.cfg s.mem)))

/-- 20_memory.md R63 for the queue, 10_state.md R24, R25, R28 to R30 for the splitter: a command that does not reach the
queue leaves it, and one that does not write the splitter registers leaves them. No command changes the configuration or
what the host will do, which the model holds in State by its own choice (log entries 2 and 1). -/
def Obligations.CommandsReachOnlyTheirUnits : Prop :=
  ∀ (i : Instr) (s t : State), exec i s = .next t →
    (reachesQueue i = false → t.mem.sq = s.mem.sq) ∧ (writesSplitter i = false → t.fs = s.fs) ∧
      t.cfg = s.cfg ∧ t.host = s.host

/-- The memory keeps its form (`Memory.wf`, log entry 5) at every step, from every state with a legal configuration: 1 to
NODE_MAX nodes with valid slots (10_state.md R42) and at most SQ_DEPTH queued bytes (R44). -/
def Obligations.StepKeepsTheMemoryForm : Prop :=
  ∀ s t : State, s.cfg.Legal → s.mem.wf s.cfg = true → step s = .next t → t.mem.wf t.cfg = true

/-! ### Notation -/

/-- 30_encoding.md R102: SQ.PUTS is one SQ.PUT per byte, first byte first, and appends the bytes to the queue when there
is room; TR.ADDSTR and FS.OPEN are SQ.PUTS and then TR.ADDS or FS.BIND, which over an empty queue is the command with the
queue holding exactly the bytes. -/
def Obligations.PseudoInstructionsExpandAsTheyRead : Prop :=
  (∀ (bytes : List Byte) (w : Width),
    (Pseudo.sqPuts bytes).expand = bytes.map (fun b => .sqPut b) ∧
      (Pseudo.trAddStr bytes).expand = (Pseudo.sqPuts bytes).expand ++ [.trAdds] ∧
      (Pseudo.fsOpen w bytes).expand = (Pseudo.sqPuts bytes).expand ++ [.fsBind w]) ∧
  (∀ (s : State) (bytes : List Byte), s.fault.valid = false → s.mem.sq.length + bytes.length ≤ s.cfg.sqDepth →
    runAll (Pseudo.sqPuts bytes).expand s =
      .next { s with
        mem := { s.mem with sq := s.mem.sq ++ bytes }
        resp := if bytes = [] then s.resp else 0x00000000 }) ∧
  (∀ (s : State) (bytes : List Byte) (w : Width), s.fault.valid = false → s.mem.sq = [] →
    bytes.length ≤ s.cfg.sqDepth →
      runAll (Pseudo.trAddStr bytes).expand s = exec .trAdds { s with mem := { s.mem with sq := bytes } } ∧
      runAll (Pseudo.fsOpen w bytes).expand s = exec (.fsBind w) { s with mem := { s.mem with sq := bytes } })
end

