-- ==== Sys2Proof/Laws/Decode.lean ====
section
/-! SUPPORT. The fields of a word built from fields, and the command table. -/

namespace Sys2Proof

section fields
variable (op : BitVec 8) (ctx : CtxIdx) (sym : Symbol) (imm : BitVec 16)

/-- The bits of a word built from fields. -/
theorem fieldsWord_getLsbD (i : Nat) :
    (fieldsWord op ctx sym imm).getLsbD i =
      if i < 16 then imm.getLsbD i
      else if i < 19 then sym.getLsbD (i - 16)
      else if i < 20 then false
      else if i < 24 then ctx.getLsbD (i - 20)
      else op.getLsbD (i - 24) := by
  unfold fieldsWord
  simp only [BitVec.getLsbD_append]
  by_cases h1 : i < 16
  · simp [h1]
  · by_cases h2 : i < 19
    · simp [h1, h2, show i - 16 < 3 by omega]
    · by_cases h3 : i < 20
      · simp [h1, h2, h3, show ¬ (i - 16 < 3) by omega, show i - 16 - 3 < 1 by omega]
      · by_cases h4 : i < 24
        · simp [h1, h2, h3, h4, show ¬ (i - 16 < 3) by omega, show ¬ (i - 16 - 3 < 1) by omega,
            show i - 16 - 3 - 1 = i - 20 by omega, show i - 20 < 4 by omega]
        · simp [h1, h2, h3, h4, show ¬ (i - 16 < 3) by omega, show ¬ (i - 16 - 3 < 1) by omega,
            show ¬ (i - 16 - 3 - 1 < 4) by omega, show i - 16 - 3 - 1 - 4 = i - 24 by omega]

@[simp] theorem opField_fieldsWord : opField (fieldsWord op ctx sym imm) = op := by
  ext i hi
  simp [opField, fieldsWord_getLsbD, ← BitVec.getLsbD_eq_getElem, hi,
    show ¬ (24 + i < 16) by omega, show ¬ (24 + i < 19) by omega, show ¬ (24 + i < 20) by omega]

@[simp] theorem ctxField_fieldsWord : ctxField (fieldsWord op ctx sym imm) = ctx := by
  ext i hi
  simp [ctxField, fieldsWord_getLsbD, ← BitVec.getLsbD_eq_getElem, hi,
    show ¬ (20 + i < 16) by omega, show ¬ (20 + i < 19) by omega, show 20 + i < 24 by omega]

@[simp] theorem symField_fieldsWord : symField (fieldsWord op ctx sym imm) = sym := by
  ext i hi
  simp [symField, fieldsWord_getLsbD, ← BitVec.getLsbD_eq_getElem, hi, show 16 + i < 19 by omega]

@[simp] theorem immField_fieldsWord : immField (fieldsWord op ctx sym imm) = imm := by
  ext i hi
  simp [immField, fieldsWord_getLsbD, ← BitVec.getLsbD_eq_getElem, hi]

/-- Masking a word masks its fields; bit 19 is zero whatever the mask. -/
theorem fieldsWord_and (m : Word) :
    fieldsWord op ctx sym imm &&& m =
      fieldsWord (op &&& opField m) (ctx &&& ctxField m) (sym &&& symField m) (imm &&& immField m) := by
  apply BitVec.eq_of_getLsbD_eq
  intro i hi
  simp only [BitVec.getLsbD_and, fieldsWord_getLsbD, opField, ctxField, symField, immField, BitVec.getLsbD_extractLsb']
  by_cases h1 : i < 16
  · simp [h1]
  · by_cases h2 : i < 19
    · simp [h1, h2, show i - 16 < 3 by omega, show 16 + (i - 16) = i by omega]
    · by_cases h3 : i < 20
      · simp [h1, h2, h3]
      · by_cases h4 : i < 24
        · simp [h1, h2, h3, h4, show i - 20 < 4 by omega, show 20 + (i - 20) = i by omega]
        · simp [h1, h2, h3, h4, show i - 24 < 8 by omega, show 24 + (i - 24) = i by omega]

/-- A word determines the fields it was built from. -/
theorem fieldsWord_inj {op' : BitVec 8} {ctx' : CtxIdx} {sym' : Symbol} {imm' : BitVec 16} :
    fieldsWord op ctx sym imm = fieldsWord op' ctx' sym' imm' ↔ op = op' ∧ ctx = ctx' ∧ sym = sym' ∧ imm = imm' := by
  constructor
  · intro h
    have h1 := congrArg opField h
    have h2 := congrArg ctxField h
    have h3 := congrArg symField h
    have h4 := congrArg immField h
    simp only [opField_fieldsWord, ctxField_fieldsWord, symField_fieldsWord, immField_fieldsWord] at h1 h2 h3 h4
    exact ⟨h1, h2, h3, h4⟩
  · rintro ⟨rfl, rfl, rfl, rfl⟩
    rfl

/-- When a row accepts a word built from fields. -/
theorem Row.accepts_fieldsWord (r : Row) (hp : r.pattern = fieldsWord (opField r.pattern) 0 0 0)
    (hm : opField r.mask = 0xFF) :
    r.accepts (fieldsWord op ctx sym imm) = true ↔
      op = opField r.pattern ∧ ctx &&& ctxField r.mask = 0 ∧ sym &&& symField r.mask = 0 ∧
        imm &&& immField r.mask = 0 := by
  have hop : op &&& 0xFF = op := by
    rw [show (0xFF : BitVec 8) = BitVec.allOnes 8 from rfl, BitVec.and_allOnes]
  simp only [Row.accepts, beq_iff_eq, fieldsWord_and]
  rw [hp, fieldsWord_inj, hm, hop]
  simp

end fields

/-- The op byte decides: two rows of the table accept no word in common (30_encoding.md rule R96). -/
theorem commandTable_disjoint :
    commandTable.Pairwise (fun a b => a.mask &&& b.mask &&& (a.pattern ^^^ b.pattern) ≠ 0) := by decide

/-- Every row checks the whole op byte and only bits it masks. -/
theorem commandTable_masks : ∀ r ∈ commandTable,
    opField r.mask = 0xFF ∧ r.pattern = fieldsWord (opField r.pattern) 0 0 0 ∧ r.pattern &&& r.mask = r.pattern := by
  decide

@[simp] theorem Width.ofSelect_select (w : Width) : Width.ofSelect w.select = w := by cases w <;> rfl

/-- Every CSR is found under its number. -/
@[simp] theorem Csr.ofNumber_number (r : Csr) : Csr.ofNumber r.number = some r := by cases r <;> rfl

/-- A number that names a CSR is that CSR's. -/
theorem Csr.number_of_ofNumber {n : CsrNum} {r : Csr} (h : Csr.ofNumber n = some r) : r.number = n := by
  simpa using List.find?_some h

/-- A number names no CSR exactly when it is no CSR's. -/
theorem Csr.ofNumber_eq_none {n : CsrNum} : Csr.ofNumber n = none ↔ ∀ r : Csr, r.number ≠ n := by
  constructor
  · intro h r hr
    subst hr
    simp at h
  · intro h
    cases hn : Csr.ofNumber n with
    | none => rfl
    | some r => exact absurd (Csr.number_of_ofNumber hn) (h r)

end Sys2Proof
end

