-- ==== Sys2Proof/Laws/State.lean ====
section
/-! SUPPORT. One lemma per field of State per update, true by definition, and the laws of the two context files. -/

namespace Sys2Proof.Machine

variable (s : State)

/-! ### respond -/

@[simp] theorem State.respond_cfg (k : RespKind) (y : Symbol) (v : Value) : (s.respond k y v).cfg = s.cfg := rfl
@[simp] theorem State.respond_host (k : RespKind) (y : Symbol) (v : Value) : (s.respond k y v).host = s.host := rfl
@[simp] theorem State.respond_resp (k : RespKind) (y : Symbol) (v : Value) : (s.respond k y v).resp = respWord k y v := rfl
@[simp] theorem State.respond_fault (k : RespKind) (y : Symbol) (v : Value) : (s.respond k y v).fault = s.fault := rfl
@[simp] theorem State.respond_fs (k : RespKind) (y : Symbol) (v : Value) : (s.respond k y v).fs = s.fs := rfl
@[simp] theorem State.respond_pks (k : RespKind) (y : Symbol) (v : Value) : (s.respond k y v).pks = s.pks := rfl
@[simp] theorem State.respond_ens (k : RespKind) (y : Symbol) (v : Value) : (s.respond k y v).ens = s.ens := rfl
@[simp] theorem State.respond_mem (k : RespKind) (y : Symbol) (v : Value) : (s.respond k y v).mem = s.mem := rfl

/-! ### raise -/

@[simp] theorem State.raise_cfg (c : FaultCode) : (s.raise c).cfg = s.cfg := rfl
@[simp] theorem State.raise_host (c : FaultCode) : (s.raise c).host = s.host := rfl
@[simp] theorem State.raise_resp (c : FaultCode) : (s.raise c).resp = respWord .fault 0 (c.number.setWidth 16) := rfl
@[simp] theorem State.raise_fault (c : FaultCode) : (s.raise c).fault = { valid := true, code := c.number } := rfl
@[simp] theorem State.raise_fs (c : FaultCode) : (s.raise c).fs = s.fs := rfl
@[simp] theorem State.raise_pks (c : FaultCode) : (s.raise c).pks = s.pks := rfl
@[simp] theorem State.raise_ens (c : FaultCode) : (s.raise c).ens = s.ens := rfl
@[simp] theorem State.raise_mem (c : FaultCode) : (s.raise c).mem = s.mem := rfl

/-! ### refuse -/

@[simp] theorem State.refuse_cfg : s.refuse.cfg = s.cfg := rfl
@[simp] theorem State.refuse_host : s.refuse.host = s.host := rfl
@[simp] theorem State.refuse_resp : s.refuse.resp = respWord .fault 0 (s.fault.code.setWidth 16) := rfl
@[simp] theorem State.refuse_fault : s.refuse.fault = s.fault := rfl
@[simp] theorem State.refuse_fs : s.refuse.fs = s.fs := rfl
@[simp] theorem State.refuse_pks : s.refuse.pks = s.pks := rfl
@[simp] theorem State.refuse_ens : s.refuse.ens = s.ens := rfl
@[simp] theorem State.refuse_mem : s.refuse.mem = s.mem := rfl

/-! ### setPk -/

@[simp] theorem State.setPk_cfg (p : CtxIdx) (v : Packer) : (s.setPk p v).cfg = s.cfg := rfl
@[simp] theorem State.setPk_host (p : CtxIdx) (v : Packer) : (s.setPk p v).host = s.host := rfl
@[simp] theorem State.setPk_resp (p : CtxIdx) (v : Packer) : (s.setPk p v).resp = s.resp := rfl
@[simp] theorem State.setPk_fault (p : CtxIdx) (v : Packer) : (s.setPk p v).fault = s.fault := rfl
@[simp] theorem State.setPk_fs (p : CtxIdx) (v : Packer) : (s.setPk p v).fs = s.fs := rfl
@[simp] theorem State.setPk_pks (p : CtxIdx) (v : Packer) : (s.setPk p v).pks = s.pks.set p.toNat v p.isLt := rfl
@[simp] theorem State.setPk_ens (p : CtxIdx) (v : Packer) : (s.setPk p v).ens = s.ens := rfl
@[simp] theorem State.setPk_mem (p : CtxIdx) (v : Packer) : (s.setPk p v).mem = s.mem := rfl

/-! ### setEn -/

@[simp] theorem State.setEn_cfg (e : CtxIdx) (v : Enumerator) : (s.setEn e v).cfg = s.cfg := rfl
@[simp] theorem State.setEn_host (e : CtxIdx) (v : Enumerator) : (s.setEn e v).host = s.host := rfl
@[simp] theorem State.setEn_resp (e : CtxIdx) (v : Enumerator) : (s.setEn e v).resp = s.resp := rfl
@[simp] theorem State.setEn_fault (e : CtxIdx) (v : Enumerator) : (s.setEn e v).fault = s.fault := rfl
@[simp] theorem State.setEn_fs (e : CtxIdx) (v : Enumerator) : (s.setEn e v).fs = s.fs := rfl
@[simp] theorem State.setEn_pks (e : CtxIdx) (v : Enumerator) : (s.setEn e v).pks = s.pks := rfl
@[simp] theorem State.setEn_ens (e : CtxIdx) (v : Enumerator) : (s.setEn e v).ens = s.ens.set e.toNat v e.isLt := rfl
@[simp] theorem State.setEn_mem (e : CtxIdx) (v : Enumerator) : (s.setEn e v).mem = s.mem := rfl

/-! ### closeAll -/

@[simp] theorem State.closeAll_cfg : s.closeAll.cfg = s.cfg := rfl
@[simp] theorem State.closeAll_host : s.closeAll.host = s.host := rfl
@[simp] theorem State.closeAll_resp : s.closeAll.resp = s.resp := rfl
@[simp] theorem State.closeAll_fault : s.closeAll.fault = s.fault := rfl
@[simp] theorem State.closeAll_fs : s.closeAll.fs = s.fs := rfl
@[simp] theorem State.closeAll_pks : s.closeAll.pks = s.pks := rfl
@[simp] theorem State.closeAll_ens : s.closeAll.ens = closeEach s.ens := rfl
@[simp] theorem State.closeAll_mem : s.closeAll.mem = s.mem := rfl

/-! ### Reset -/

@[simp] theorem State.hostReset_cfg : s.hostReset.cfg = s.cfg := rfl
@[simp] theorem State.hostReset_host : s.hostReset.host = s.host := rfl
@[simp] theorem State.hostReset_fault : s.hostReset.fault = { valid := false, code := 0 } := rfl
@[simp] theorem State.hostReset_fs :
    s.hostReset.fs = { w := .w3, bound := false, exh := false, rem := 0, bits := 0 } := rfl
@[simp] theorem State.hostReset_mem : s.hostReset.mem = Memory.reset := rfl
@[simp] theorem State.hostReset_resp : s.hostReset.resp = 0 := rfl

@[simp] theorem State.resetOf_pk (cfg : Config) (p : CtxIdx) : (State.resetOf cfg).pk p = Packer.cleared := by
  simp [State.pk, State.resetOf]

@[simp] theorem State.resetOf_en (cfg : Config) (e : CtxIdx) : (State.resetOf cfg).en e = Enumerator.closed := by
  simp [State.en, State.resetOf]

@[simp] theorem State.hostReset_pk (p : CtxIdx) : s.hostReset.pk p = Packer.cleared := State.resetOf_pk s.cfg p

@[simp] theorem State.hostReset_en (e : CtxIdx) : s.hostReset.en e = Enumerator.closed := State.resetOf_en s.cfg e

/-! ### The context files -/

/-- A context depends on its file alone. -/
theorem State.pk_congr {s t : State} (h : t.pks = s.pks) (p : CtxIdx) : t.pk p = s.pk p := by
  simp [State.pk, h]

/-- A context depends on its file alone. -/
theorem State.en_congr {s t : State} (h : t.ens = s.ens) (e : CtxIdx) : t.en e = s.en e := by
  simp [State.en, h]

theorem State.setPk_pk (p q : CtxIdx) (v : Packer) : (s.setPk p v).pk q = if p = q then v else s.pk q := by
  simp only [State.pk, State.setPk, Vector.getElem_set, BitVec.toNat_inj]

theorem State.setEn_en (e x : CtxIdx) (v : Enumerator) : (s.setEn e v).en x = if e = x then v else s.en x := by
  simp only [State.en, State.setEn, Vector.getElem_set, BitVec.toNat_inj]

@[simp] theorem State.setPk_pk_same (p : CtxIdx) (v : Packer) : (s.setPk p v).pk p = v := by simp [setPk_pk]

@[simp] theorem State.setEn_en_same (e : CtxIdx) (v : Enumerator) : (s.setEn e v).en e = v := by simp [setEn_en]

theorem State.setPk_pk_ne {p q : CtxIdx} (h : q ≠ p) (v : Packer) : (s.setPk p v).pk q = s.pk q := by
  simp [setPk_pk, Ne.symm h]

theorem State.setEn_en_ne {e x : CtxIdx} (h : x ≠ e) (v : Enumerator) : (s.setEn e v).en x = s.en x := by
  simp [setEn_en, Ne.symm h]

/-- Writing back what a context holds changes nothing. -/
@[simp] theorem State.setPk_self (p : CtxIdx) : s.setPk p (s.pk p) = s := by
  simp [State.setPk, State.pk]

/-- Writing back what a context holds changes nothing. -/
@[simp] theorem State.setEn_self (e : CtxIdx) : s.setEn e (s.en e) = s := by
  simp [State.setEn, State.en]

@[simp] theorem State.setEn_pk (e : CtxIdx) (v : Enumerator) (p : CtxIdx) : (s.setEn e v).pk p = s.pk p := rfl
@[simp] theorem State.setPk_en (p : CtxIdx) (v : Packer) (e : CtxIdx) : (s.setPk p v).en e = s.en e := rfl
@[simp] theorem State.respond_pk (k : RespKind) (y : Symbol) (v : Value) (p : CtxIdx) :
    (s.respond k y v).pk p = s.pk p := rfl
@[simp] theorem State.respond_en (k : RespKind) (y : Symbol) (v : Value) (e : CtxIdx) :
    (s.respond k y v).en e = s.en e := rfl
@[simp] theorem State.raise_pk (c : FaultCode) (p : CtxIdx) : (s.raise c).pk p = s.pk p := rfl
@[simp] theorem State.raise_en (c : FaultCode) (e : CtxIdx) : (s.raise c).en e = s.en e := rfl
@[simp] theorem State.refuse_pk (p : CtxIdx) : s.refuse.pk p = s.pk p := rfl
@[simp] theorem State.refuse_en (e : CtxIdx) : s.refuse.en e = s.en e := rfl
@[simp] theorem State.closeAll_pk (p : CtxIdx) : s.closeAll.pk p = s.pk p := rfl
@[simp] theorem State.withMem_pk (m : Memory) (p : CtxIdx) : ({ s with mem := m } : State).pk p = s.pk p := rfl
@[simp] theorem State.withMem_en (m : Memory) (e : CtxIdx) : ({ s with mem := m } : State).en e = s.en e := rfl
@[simp] theorem State.withFs_pk (f : Splitter) (m : Memory) (p : CtxIdx) :
    ({ s with fs := f, mem := m } : State).pk p = s.pk p := rfl
@[simp] theorem State.withFs_en (f : Splitter) (m : Memory) (e : CtxIdx) :
    ({ s with fs := f, mem := m } : State).en e = s.en e := rfl
@[simp] theorem State.withHost_pk (h : List HostAction) (p : CtxIdx) : ({ s with host := h } : State).pk p = s.pk p := rfl
@[simp] theorem State.withHost_en (h : List HostAction) (e : CtxIdx) : ({ s with host := h } : State).en e = s.en e := rfl

@[simp] theorem State.closeAll_en (e : CtxIdx) : s.closeAll.en e = (s.en e).close := by
  simp [State.en, State.closeAll, closeEach]

@[simp] theorem Enumerator.close_isOpen (en : Enumerator) : en.close.isOpen = false := rfl
@[simp] theorem Enumerator.close_node (en : Enumerator) : en.close.node = en.node := rfl
@[simp] theorem Enumerator.close_pos (en : Enumerator) : en.close.pos = en.pos := rfl

end Sys2Proof.Machine
end

