-- ==== Sys2Proof/Laws/Ops.lean ====
section
/-! SUPPORT. What each shared operation can do: the prologue, the operand checks, the stores, the navigate step, and that
every memory operation keeps the form of memory. -/

namespace Sys2Proof.Machine

/-! ### The response words -/

theorem respWord_fault (c : BitVec 8) : respWord .fault 0 (c.setWidth 16) = 0xF00000#24 ++ c := by
  revert c
  decide

theorem respWord_val (v : Value) : respWord .val 0 v = 0x1000#16 ++ v := rfl

@[simp] theorem respWord_done : respWord .done 0 0 = 0x00000000 := rfl

@[simp] theorem respWord_end : respWord .endOfSeq 0 0 = 0x20000000 := rfl

@[simp] theorem respWord_none : respWord .noByte 0 0 = 0x30000000 := rfl

/-! ### The prologue (30_encoding.md rule R99) -/

section command
variable {α : Type} (s : State)

@[simp] theorem State.command_ok (h : s.fault.valid = false) (a : α) (body : α → Result) :
    s.command (.ok a) body = body a := by simp [State.command, h]

@[simp] theorem State.command_error (h : s.fault.valid = false) (c : FaultCode) (body : α → Result) :
    s.command (.error c) body = .next (s.raise c) := by simp [State.command, h]

@[simp] theorem State.command_refused (h : s.fault.valid = true) (check : Except FaultCode α) (body : α → Result) :
    s.command check body = .next s.refuse := by simp [State.command, h]

/-- Everything the prologue can do. -/
theorem State.command_cases (check : Except FaultCode α) (body : α → Result) :
    (s.fault.valid = true ∧ s.command check body = .next s.refuse) ∨
    (s.fault.valid = false ∧ ∃ c, check = .error c ∧ s.command check body = .next (s.raise c)) ∨
    (s.fault.valid = false ∧ ∃ a, check = .ok a ∧ s.command check body = body a) := by
  cases hv : s.fault.valid
  · cases check with
    | error c => exact .inr (.inl ⟨rfl, c, rfl, by simp [hv]⟩)
    | ok a => exact .inr (.inr ⟨rfl, a, rfl, by simp [hv]⟩)
  · exact .inl ⟨rfl, by simp [hv]⟩

end command

/-- In the faulted state every command is refused (60_exceptions.md rule R204). -/
theorem exec_of_faulted (i : Instr) (s : State) (h : s.fault.valid = true) : exec i s = .next s.refuse := by
  cases i <;> simp only [exec] <;> exact State.command_refused s h _ _

/-! ### Operands -/

theorem pkOperand_ok {cfg : Config} {p : CtxIdx} (h : p.toNat < cfg.npk) : pkOperand cfg p = .ok () := by
  simp [pkOperand, h]

theorem pkOperand_bad {cfg : Config} {p : CtxIdx} (h : cfg.npk ≤ p.toNat) : pkOperand cfg p = .error .badCtx := by
  simp [pkOperand, Nat.not_lt.2 h]

theorem enOperand_ok {cfg : Config} {e : CtxIdx} (h : e.toNat < cfg.nen) : enOperand cfg e = .ok () := by
  simp [enOperand, h]

theorem enOperand_bad {cfg : Config} {e : CtxIdx} (h : cfg.nen ≤ e.toNat) : enOperand cfg e = .error .badCtx := by
  simp [enOperand, Nat.not_lt.2 h]

theorem pkPairOperand_ok {cfg : Config} {d q : CtxIdx} (h : d.toNat < cfg.npk) (h' : q.toNat < cfg.npk) :
    pkPairOperand cfg d q = .ok () := by
  simp [pkPairOperand, h, h']

theorem pkPairOperand_bad {cfg : Config} {d q : CtxIdx} (h : cfg.npk ≤ d.toNat ∨ cfg.npk ≤ q.toNat) :
    pkPairOperand cfg d q = .error .badCtx := by
  simp only [pkPairOperand]
  rw [if_neg (by omega)]

/-- The check of a CSR operand, by the CSR the number names. -/
theorem csrOperand_number (cfg : Config) (r : Csr) (x : CtxIdx) :
    csrOperand cfg r.number x =
      match csrScope r with
      | .block => if x = 0 then .ok r else .error .illegalCmd
      | .packer => if x.toNat < cfg.npk then .ok r else .error .badCtx
      | .enumerator => if x.toNat < cfg.nen then .ok r else .error .badCtx := by
  cases r <;> rfl

theorem csrOperand_unknown (cfg : Config) {n : CsrNum} (h : ∀ r : Csr, r.number ≠ n) (x : CtxIdx) :
    csrOperand cfg n x = .error .illegalCmd := by
  simp [csrOperand, Csr.ofNumber_eq_none.2 h]

/-- What the CSR check gives is the CSR of that number. -/
theorem csrOperand_eq_ok {cfg : Config} {n : CsrNum} {x : CtxIdx} {r : Csr} (h : csrOperand cfg n x = .ok r) :
    r.number = n := by
  unfold csrOperand at h
  cases hn : Csr.ofNumber n with
  | none => simp [hn] at h
  | some r' =>
    have hr : r' = r := by
      cases hs : csrScope r' <;> simp only [hn, hs] at h <;> split at h <;> simp_all
    exact hr ▸ Csr.number_of_ofNumber hn

/-- A CSR operand is legal in the sense of WellFormed.lean exactly when the check does not raise ILLEGAL_CMD. -/
theorem csrRd_isLegal_iff (cfg : Config) (n : CsrNum) (x : CtxIdx) :
    (Instr.csrRd n x).isLegal = true ↔ csrOperand cfg n x ≠ .error .illegalCmd := by
  by_cases h : ∃ r : Csr, r.number = n
  · obtain ⟨r, rfl⟩ := h
    rw [csrOperand_number]
    cases r <;> simp only [csrScope] <;> split <;>
      simp_all [Instr.isLegal, blockCsrNumbers, packerCsrNumbers, enumeratorCsrNumbers, Csr.number]
  · have h' : ∀ r : Csr, r.number ≠ n := fun r hr => h ⟨r, hr⟩
    rw [csrOperand_unknown cfg h']
    have e := fun r => Ne.symm (h' r)
    have e1 := e .version
    have e2 := e .cfgNodeMax
    have e3 := e .cfgNpk
    have e4 := e .cfgNen
    have e5 := e .cfgSqDepth
    have e6 := e .trSize
    have e7 := e .fsStat
    have e8 := e .fsRem
    have e9 := e .fsBits
    have e10 := e .sqLevel
    have e11 := e .pkStored
    have e12 := e .pkBits
    have e13 := e .enStat
    have e14 := e .enNode
    simp only [Csr.number, BitVec.ofNat_eq_ofNat] at e1 e2 e3 e4 e5 e6 e7 e8 e9 e10 e11 e12 e13 e14
    simp [Instr.isLegal, blockCsrNumbers, packerCsrNumbers, enumeratorCsrNumbers, e1, e2, e3, e4, e5, e6, e7, e8, e9,
      e10, e11, e12, e13, e14]

/-! ### Slots of a node -/

theorem Node.slot_setSlot (n : Node) (y z : Symbol) (v : SlotWord) :
    (n.setSlot y v).slot z = if y = z then v else n.slot z := by
  simp only [Node.slot, Node.setSlot, Vector.getElem_set, BitVec.toNat_inj]

@[simp] theorem Node.slot_fresh (y : Symbol) : Node.fresh.slot y = absent := by
  simp [Node.slot, Node.fresh]

/-- A node is determined by its eight slots. -/
theorem Node.ext_slot {n n' : Node} (h : ∀ y, n.slot y = n'.slot y) : n = n' := by
  apply Vector.ext
  intro i hi
  simpa [Node.slot, Nat.mod_eq_of_lt hi] using h (BitVec.ofNat 3 i)

theorem mem_allSymbols (y : Symbol) : y ∈ allSymbols := by
  revert y
  decide

/-! ### Reading the arena (20_memory.md rules R64 to R66) -/

theorem Memory.nodeRead_eq_none {m : Memory} {a : NodeAddr} {y : Symbol} :
    m.nodeRead a y = none ↔ m.size ≤ a.toNat := by
  simp [Memory.nodeRead, Memory.size]

theorem Memory.nodeRead_isSome {m : Memory} {a : NodeAddr} (y : Symbol) (h : a.toNat < m.size) :
    ∃ v, m.nodeRead a y = some v := by
  cases hr : m.nodeRead a y with
  | none => exact absurd (nodeRead_eq_none.1 hr) (by omega)
  | some v => exact ⟨v, rfl⟩

theorem Memory.lt_size_of_nodeRead {m : Memory} {a : NodeAddr} {y : Symbol} {v : SlotWord}
    (h : m.nodeRead a y = some v) : a.toNat < m.size := by
  by_contra hc
  rw [nodeRead_eq_none.2 (by omega)] at h
  exact absurd h (by simp)

theorem Memory.nodeRead_of_getElem {m : Memory} {a : NodeAddr} {n : Node} (h : m.nodes[a.toNat]? = some n)
    (y : Symbol) : m.nodeRead a y = some (n.slot y) := by
  simp [Memory.nodeRead, h]

theorem Memory.exists_node {m : Memory} {a : NodeAddr} (h : a.toNat < m.size) :
    ∃ n, m.nodes[a.toNat]? = some n := ⟨_, List.getElem?_eq_getElem h⟩

theorem Memory.nodeRead_congr {m m' : Memory} (h : m'.nodes = m.nodes) (a : NodeAddr) (y : Symbol) :
    m'.nodeRead a y = m.nodeRead a y := by
  simp [Memory.nodeRead, h]

theorem Memory.size_congr {m m' : Memory} (h : m'.nodes = m.nodes) : m'.size = m.size := by
  simp [Memory.size, h]

@[simp] theorem Memory.newTrie_size (m : Memory) : m.newTrie.size = 1 := rfl
@[simp] theorem Memory.newTrie_sq (m : Memory) : m.newTrie.sq = m.sq := rfl
@[simp] theorem Memory.srcPush_nodes (m : Memory) (b : Byte) : (m.srcPush b).nodes = m.nodes := rfl
@[simp] theorem Memory.srcPush_sq (m : Memory) (b : Byte) : (m.srcPush b).sq = m.sq ++ [b] := rfl
@[simp] theorem Memory.srcClear_nodes (m : Memory) : m.srcClear.nodes = m.nodes := rfl
@[simp] theorem Memory.srcClear_sq (m : Memory) : m.srcClear.sq = [] := rfl
@[simp] theorem Memory.arenaAppend_sq (m : Memory) : m.arenaAppend.sq = m.sq := rfl
@[simp] theorem Memory.nodeWrite_sq (m : Memory) (a : NodeAddr) (y : Symbol) (v : SlotWord) :
    (m.nodeWrite a y v).sq = m.sq := rfl
@[simp] theorem Memory.arenaAppend_size (m : Memory) : m.arenaAppend.size = m.size + 1 := by
  simp [Memory.arenaAppend, Memory.size]
@[simp] theorem Memory.nodeWrite_size (m : Memory) (a : NodeAddr) (y : Symbol) (v : SlotWord) :
    (m.nodeWrite a y v).size = m.size := by
  simp [Memory.nodeWrite, Memory.size]

/-- A slot of a trie just created. -/
theorem Memory.newTrie_nodeRead (m : Memory) (a : NodeAddr) (y : Symbol) :
    m.newTrie.nodeRead a y = if a = 0 then some absent else none := by
  by_cases h : a = 0
  · subst h
    simp [Memory.newTrie, Memory.nodeRead]
  · have : 1 ≤ a.toNat := by
      have := (BitVec.toNat_ne_iff_ne (y := 0#16)).2 h
      simp at this
      omega
    rw [if_neg h, nodeRead_eq_none]
    simpa using this

/-- NodeRead after NodeWrite: the written slot holds the word, every other slot what it held. -/
theorem Memory.nodeRead_nodeWrite (m : Memory) (a b : NodeAddr) (y z : Symbol) (v : SlotWord) (h : a.toNat < m.size) :
    (m.nodeWrite a y v).nodeRead b z = if b = a ∧ z = y then some v else m.nodeRead b z := by
  have hn : ∃ n, m.nodes[a.toNat]? = some n := exists_node h
  obtain ⟨n, hn⟩ := hn
  simp only [Memory.nodeRead, Memory.nodeWrite, List.getElem?_modify, BitVec.toNat_inj]
  by_cases hb : a = b
  · subst hb
    by_cases hz : z = y
    · simp [hn, hz, Node.slot_setSlot]
    · simp [hn, hz, Node.slot_setSlot, Ne.symm hz]
  · simp [hb, Ne.symm hb]

/-- NodeRead after ArenaAppend: the new node is absent throughout, every other slot holds what it held. -/
theorem Memory.nodeRead_arenaAppend (m : Memory) (b : NodeAddr) (z : Symbol) :
    m.arenaAppend.nodeRead b z = if b.toNat = m.size then some absent else m.nodeRead b z := by
  simp only [Memory.nodeRead, Memory.arenaAppend, Memory.size, List.getElem?_append]
  by_cases h : b.toNat < m.nodes.length
  · simp [h, Nat.ne_of_lt h]
  · by_cases h' : b.toNat = m.nodes.length
    · simp [h']
    · simp [h, h', show ¬ (b.toNat - m.nodes.length = 0) by omega]

/-! ### The navigate step (42_trie.md rule R156) -/

/-- The memory after the allocation path of `Navigate`. -/
def Memory.grown (m : Memory) (a : NodeAddr) (y : Symbol) : Memory := m.arenaAppend.nodeWrite a y m.newAddr

@[simp] theorem Memory.grown_size (m : Memory) (a : NodeAddr) (y : Symbol) : (m.grown a y).size = m.size + 1 := by
  simp [Memory.grown]

@[simp] theorem Memory.grown_sq (m : Memory) (a : NodeAddr) (y : Symbol) : (m.grown a y).sq = m.sq := rfl

theorem Memory.newAddr_toNat {m : Memory} (h : m.size ≤ 65535) : m.newAddr.toNat = m.size := by
  simp only [Memory.newAddr, BitVec.toNat_ofNat]
  omega

/-- Every slot after the allocation path: the new node is absent throughout, the slot taken holds its address, every
other slot what it held. -/
theorem Memory.nodeRead_grown {m : Memory} {a : NodeAddr} (h : a.toNat < m.size) (hs : m.size ≤ 65535)
    (y : Symbol) (b : NodeAddr) (z : Symbol) :
    (m.grown a y).nodeRead b z =
      if b = m.newAddr then some absent else if b = a ∧ z = y then some m.newAddr else m.nodeRead b z := by
  rw [Memory.grown, nodeRead_nodeWrite _ _ _ _ _ _ (by simp; omega), nodeRead_arenaAppend]
  have e : b.toNat = m.size ↔ b = m.newAddr := by
    rw [← BitVec.toNat_inj, newAddr_toNat hs]
  have ha : a ≠ m.newAddr := by
    rw [Ne, ← BitVec.toNat_inj, newAddr_toNat hs]
    omega
  by_cases h1 : b = m.newAddr
  · have : b ≠ a := fun hb => ha (hb ▸ h1)
    rw [if_neg (fun hc => this hc.1), if_pos (e.2 h1), if_pos h1]
  · rw [if_neg (fun hc => h1 (e.1 hc)), if_neg h1]

/-- Everything `Navigate` can do. -/
theorem navigate_cases (cfg : Config) (m : Memory) (a : NodeAddr) (y : Symbol) :
    (m.size ≤ a.toNat ∧ navigate cfg m a y = .noNode) ∨
    (∃ v, m.nodeRead a y = some v ∧ v ≠ absent ∧ navigate cfg m a y = .addr v m) ∨
    (m.nodeRead a y = some absent ∧ m.size = cfg.nodeMax ∧ navigate cfg m a y = .full) ∨
    (m.nodeRead a y = some absent ∧ m.size ≠ cfg.nodeMax ∧ navigate cfg m a y = .addr m.newAddr (m.grown a y)) := by
  unfold navigate
  cases hr : m.nodeRead a y with
  | none => exact .inl ⟨Memory.nodeRead_eq_none.1 hr, rfl⟩
  | some v =>
    by_cases hv : v = absent
    · subst hv
      by_cases hs : m.size = cfg.nodeMax
      · exact .inr (.inr (.inl ⟨rfl, hs, by simp [hs]⟩))
      · exact .inr (.inr (.inr ⟨rfl, hs, by simp [hs, Memory.grown]⟩))
    · exact .inr (.inl ⟨v, rfl, hv, by simp [hv]⟩)

/-- `Navigate` leaves the source queue alone, and the arena grows by at most one node. -/
theorem navigate_addr {cfg : Config} {m m' : Memory} {a c : NodeAddr} {y : Symbol}
    (h : navigate cfg m a y = .addr c m') :
    m'.sq = m.sq ∧ a.toNat < m.size ∧
      ((m' = m ∧ m.nodeRead a y = some c ∧ c ≠ absent) ∨
        (m' = m.grown a y ∧ c = m.newAddr ∧ m.nodeRead a y = some absent ∧ m.size ≠ cfg.nodeMax)) := by
  rcases navigate_cases cfg m a y with ⟨_, h'⟩ | ⟨v, hr, hv, h'⟩ | ⟨_, _, h'⟩ | ⟨hr, hs, h'⟩ <;> rw [h'] at h
  · simp at h
  · obtain ⟨rfl, rfl⟩ := NavResult.addr.inj h
    exact ⟨rfl, Memory.lt_size_of_nodeRead hr, .inl ⟨rfl, hr, hv⟩⟩
  · simp at h
  · obtain ⟨rfl, rfl⟩ := NavResult.addr.inj h
    exact ⟨rfl, Memory.lt_size_of_nodeRead hr, .inr ⟨rfl, rfl, hr, hs⟩⟩

/-! ### Every memory operation keeps the form of memory -/

/-- The form of memory, read through NodeRead. -/
theorem Memory.wf_iff (cfg : Config) (m : Memory) (hb : cfg.nodeMax ≤ 65535) :
    m.wf cfg = true ↔
      1 ≤ m.size ∧ m.size ≤ cfg.nodeMax ∧ m.sq.length ≤ cfg.sqDepth ∧
        ∀ a y v, m.nodeRead a y = some v → v ≠ absent → v.toNat < m.size := by
  simp only [Memory.wf, Bool.and_eq_true, decide_eq_true_eq, List.all_eq_true, Bool.or_eq_true, beq_iff_eq]
  constructor
  · rintro ⟨⟨⟨h1, h2⟩, h3⟩, h4⟩
    refine ⟨h1, h2, h4, fun a y v hr hv => ?_⟩
    obtain ⟨n, hn⟩ := exists_node (lt_size_of_nodeRead hr)
    rw [nodeRead_of_getElem hn] at hr
    obtain rfl := Option.some.inj hr
    exact (h3 n (List.mem_of_getElem? hn) _ (by simp [Node.slot])).resolve_left hv
  · rintro ⟨h1, h2, h4, h3⟩
    refine ⟨⟨⟨h1, h2⟩, fun n hn v hv => ?_⟩, h4⟩
    by_cases ha : v = absent
    · exact .inl ha
    · right
      obtain ⟨i, hi, rfl⟩ := List.mem_iff_getElem.1 hn
      obtain ⟨j, hj, rfl⟩ := List.mem_iff_getElem.1 hv
      have hj' : j < 8 := by simpa using hj
      have hi' : i < 65536 := by
        have : i < m.size := hi
        omega
      refine h3 (BitVec.ofNat 16 i) (BitVec.ofNat 3 j) _ ?_ ha
      rw [nodeRead_of_getElem (n := m.nodes[i]) (by simp [Nat.mod_eq_of_lt hi', hi])]
      simp [Node.slot, Nat.mod_eq_of_lt hj']

section wf
variable {cfg : Config} {m : Memory} (hb : cfg.nodeMax ≤ 65535)
include hb

theorem Memory.reset_wf (h1 : 1 ≤ cfg.nodeMax) : Memory.reset.wf cfg = true := by
  rw [wf_iff cfg _ hb]
  refine ⟨by decide, h1, Nat.zero_le _, fun a y v hr hv => ?_⟩
  have := newTrie_nodeRead Memory.reset a y
  rw [show Memory.reset.newTrie = Memory.reset from rfl, hr] at this
  split at this
  · exact absurd (Option.some.inj this) hv
  · exact absurd this (by simp)

theorem Memory.newTrie_wf (h : m.wf cfg = true) : m.newTrie.wf cfg = true := by
  rw [wf_iff cfg _ hb] at h ⊢
  refine ⟨by simp, by simp; omega, h.2.2.1, fun a y v hr hv => ?_⟩
  rw [newTrie_nodeRead] at hr
  split at hr
  · exact absurd (Option.some.inj hr).symm hv
  · exact absurd hr (by simp)

theorem Memory.srcPush_wf (h : m.wf cfg = true) (hl : m.sq.length < cfg.sqDepth) (b : Byte) :
    (m.srcPush b).wf cfg = true := by
  rw [wf_iff cfg _ hb] at h ⊢
  exact ⟨h.1, h.2.1, by simp; omega, h.2.2.2⟩

theorem Memory.srcClear_wf (h : m.wf cfg = true) : m.srcClear.wf cfg = true := by
  rw [wf_iff cfg _ hb] at h ⊢
  exact ⟨h.1, h.2.1, by simp, h.2.2.2⟩

theorem Memory.srcPull_wf (h : m.wf cfg = true) : m.srcPull.2.wf cfg = true := by
  rw [wf_iff cfg _ hb] at h ⊢
  unfold Memory.srcPull
  split
  · exact h
  · rename_i b rest hq
    refine ⟨h.1, h.2.1, ?_, h.2.2.2⟩
    have := h.2.2.1
    rw [hq] at this
    simp at this ⊢
    omega

theorem Memory.grown_wf (h : m.wf cfg = true) {a : NodeAddr} (ha : a.toNat < m.size) (hs : m.size ≠ cfg.nodeMax)
    (y : Symbol) : (m.grown a y).wf cfg = true := by
  rw [wf_iff cfg _ hb] at h ⊢
  refine ⟨by simp, by simp; omega, h.2.2.1, fun b z v hr hv => ?_⟩
  rw [nodeRead_grown ha (by omega)] at hr
  rw [grown_size]
  split at hr
  · exact absurd (Option.some.inj hr).symm hv
  · split at hr
    · rw [← Option.some.inj hr, newAddr_toNat (by omega)]
      omega
    · exact Nat.lt_succ_of_lt (h.2.2.2 b z v hr hv)

theorem navigate_wf (h : m.wf cfg = true) {a c : NodeAddr} {y : Symbol} {m' : Memory}
    (hn : navigate cfg m a y = .addr c m') : m'.wf cfg = true := by
  obtain ⟨-, ha, ⟨rfl, -⟩ | ⟨rfl, -, -, hs⟩⟩ := navigate_addr hn
  · exact h
  · exact Memory.grown_wf hb h ha hs y

end wf

/-- The linear slot index is `8a + s` (20_memory.md rule R61). -/
theorem slotIndex_toNat (a : NodeAddr) (y : Symbol) : (slotIndex a y).toNat = 8 * a.toNat + y.toNat := by
  simp only [slotIndex, BitVec.toNat_append]
  rw [Nat.shiftLeft_eq, ← Nat.shiftLeft_eq, ← Nat.shiftLeft_add_eq_or_of_lt y.isLt, Nat.shiftLeft_eq]
  omega

end Sys2Proof.Machine
end

