-- ==== Sys2Proof/Laws/Enumerator.lean ====
section
/-! SUPPORT. What the scan of EN.NEXT finds (spec/43_enumerator.md rule R177), and the number TR.CNT answers
(42_trie.md rule R159). -/

namespace Sys2Proof.Machine

/-- The scan finds the lowest symbol at or above `pos` whose slot is not absent. -/
theorem nextChild_eq_some {n : Node} {pos : BitVec 4} {y : Symbol} :
    nextChild n pos = some y ↔
      pos.toNat ≤ y.toNat ∧ n.slot y ≠ absent ∧
        ∀ z : Symbol, pos.toNat ≤ z.toNat → z.toNat < y.toNat → n.slot z = absent := by
  have dec : ∀ (q : Symbol → Bool) (z : Symbol), allSymbols.find? q = some z ↔
      q z = true ∧ ∀ x : Symbol, x.toNat < z.toNat → q x = false := by
    intro q z
    have h : ∀ q0 q1 q2 q3 q4 q5 q6 q7 : Bool, ∀ z : Symbol,
        let f := fun x : Symbol => match x.toNat with
          | 0 => q0 | 1 => q1 | 2 => q2 | 3 => q3 | 4 => q4 | 5 => q5 | 6 => q6 | _ => q7
        (allSymbols.find? f = some z ↔ f z = true ∧ ∀ x : Symbol, x.toNat < z.toNat → f x = false) := by decide
    have e : q = fun x : Symbol => match x.toNat with
        | 0 => q 0 | 1 => q 1 | 2 => q 2 | 3 => q 3 | 4 => q 4 | 5 => q 5 | 6 => q 6 | _ => q 7 := by
      funext x
      have : ∀ x : Symbol, x = 0 ∨ x = 1 ∨ x = 2 ∨ x = 3 ∨ x = 4 ∨ x = 5 ∨ x = 6 ∨ x = 7 := by decide
      rcases this x with h | h | h | h | h | h | h | h <;> rw [h] <;> rfl
    rw [e]
    exact h (q 0) (q 1) (q 2) (q 3) (q 4) (q 5) (q 6) (q 7) z
  rw [nextChild, dec]
  simp only [Bool.and_eq_true, decide_eq_true_eq, bne_iff_ne, ne_eq, Bool.and_eq_false_iff, decide_eq_false_iff_not,
    bne_eq_false_iff_eq, and_assoc]
  constructor
  · rintro ⟨h1, h2, h3⟩
    exact ⟨h1, h2, fun z hz hzy => (h3 z hzy).resolve_left (by omega)⟩
  · rintro ⟨h1, h2, h3⟩
    refine ⟨h1, h2, fun z hzy => ?_⟩
    by_cases hz : pos.toNat ≤ z.toNat
    · exact .inr (h3 z hz hzy)
    · exact .inl hz

/-- The scan finds nothing exactly when every slot at or above `pos` is absent. -/
theorem nextChild_eq_none {n : Node} {pos : BitVec 4} :
    nextChild n pos = none ↔ ∀ z : Symbol, pos.toNat ≤ z.toNat → n.slot z = absent := by
  simp only [nextChild, List.find?_eq_none, Bool.and_eq_true, decide_eq_true_eq, bne_iff_ne, ne_eq, not_and,
    not_not]
  exact ⟨fun h z hz => h z (mem_allSymbols z) hz, fun h z _ hz => h z hz⟩

theorem allSymbols_nodup : allSymbols.Nodup := by decide

/-- The count is at most eight. -/
theorem childCount_le (n : Node) : childCount n ≤ 8 := List.countP_le_length

/-- The count is the number of pairs. -/
theorem childPairs_length (n : Node) : (childPairs n).length = childCount n := by
  simp [childPairs, childCount, List.countP_eq_length_filter]

end Sys2Proof.Machine
end

