-- ==== Sys2Proof/Laws/Packer.lean ====
section
/-! SUPPORT. What `PackStep` can do (spec/41_packer.md rule R141), in numbers (R147). -/

namespace Sys2Proof.Machine

/-- The temporary is the sum of the buffered bits and the shifted symbol, and loses nothing (R147). -/
theorem packCombined_toNat {p : Packer} (hi : p.Inv) (y : Symbol) :
    (packCombined p y).toNat = p.stored.toNat + y.toNat * 2 ^ p.bits.toNat := by
  have hy : y.toNat < 2 ^ 3 := y.isLt
  have hb : p.bits.toNat ≤ 7 := by have := p.bits.isLt; omega
  have hlt : y.toNat * 2 ^ p.bits.toNat < 2 ^ 10 := by
    calc y.toNat * 2 ^ p.bits.toNat ≤ 7 * 2 ^ 7 :=
          Nat.mul_le_mul (by omega) (Nat.pow_le_pow_right (by omega) hb)
      _ < 2 ^ 10 := by decide
  have hs : p.stored.toNat < 2 ^ 10 := by have := p.stored.isLt; omega
  simp only [packCombined, BitVec.toNat_or, BitVec.toNat_shiftLeft, BitVec.toNat_setWidth]
  rw [Nat.mod_eq_of_lt hs, Nat.mod_eq_of_lt (a := y.toNat) (by omega), Nat.shiftLeft_eq, Nat.mod_eq_of_lt hlt,
    Nat.or_comm, ← Nat.shiftLeft_eq, ← Nat.shiftLeft_add_eq_or_of_lt hi, Nat.add_comm]

/-- The temporary is below `2^n` (R147). -/
theorem packCombined_lt {p : Packer} (hi : p.Inv) (y : Symbol) :
    p.stored.toNat + y.toNat * 2 ^ p.bits.toNat < 2 ^ (p.bits.toNat + 3) := by
  have hy : y.toNat < 2 ^ 3 := y.isLt
  calc p.stored.toNat + y.toNat * 2 ^ p.bits.toNat < 2 ^ p.bits.toNat + y.toNat * 2 ^ p.bits.toNat := by omega
    _ = (y.toNat + 1) * 2 ^ p.bits.toNat := by ring
    _ ≤ 2 ^ 3 * 2 ^ p.bits.toNat := Nat.mul_le_mul_right _ (by omega)
    _ = 2 ^ (p.bits.toNat + 3) := by rw [Nat.pow_add, Nat.mul_comm]

/-- With fewer than eight bits, all are kept and no byte comes out. -/
theorem packStep_none {p : Packer} (hi : p.Inv) (y : Symbol) (h : p.bits.toNat + 3 < 8) :
    (packStep p y).1 = none ∧ (packStep p y).2.stored.toNat = p.stored.toNat + y.toNat * 2 ^ p.bits.toNat ∧
      (packStep p y).2.bits.toNat = p.bits.toNat + 3 := by
  have hlt := packCombined_lt hi y
  have h7 : 2 ^ (p.bits.toNat + 3) ≤ 2 ^ 7 := Nat.pow_le_pow_right (by omega) (by omega)
  simp only [packStep, if_neg (Nat.not_le.2 h)]
  refine ⟨trivial, ?_, ?_⟩
  · rw [BitVec.extractLsb'_toNat, packCombined_toNat hi, Nat.shiftRight_zero, Nat.mod_eq_of_lt (by omega)]
  · rw [BitVec.toNat_ofNat, Nat.mod_eq_of_lt (by omega)]

/-- With eight bits or more, the low eight come out and the rest is kept. -/
theorem packStep_some {p : Packer} (hi : p.Inv) (y : Symbol) (h : 8 ≤ p.bits.toNat + 3) :
    ∃ b : Byte, (packStep p y).1 = some b ∧
      b.toNat = (p.stored.toNat + y.toNat * 2 ^ p.bits.toNat) % 256 ∧
      (packStep p y).2.stored.toNat = (p.stored.toNat + y.toNat * 2 ^ p.bits.toNat) / 256 ∧
      (packStep p y).2.bits.toNat = p.bits.toNat + 3 - 8 := by
  have hlt := packCombined_lt hi y
  have hb : p.bits.toNat ≤ 7 := by have := p.bits.isLt; omega
  have h10 : 2 ^ (p.bits.toNat + 3) ≤ 2 ^ 10 := Nat.pow_le_pow_right (by omega) (by omega)
  simp only [packStep, if_pos h]
  refine ⟨_, rfl, ?_, ?_, ?_⟩
  · rw [BitVec.extractLsb'_toNat, packCombined_toNat hi, Nat.shiftRight_zero]
  · rw [BitVec.toNat_setWidth, BitVec.extractLsb'_toNat, packCombined_toNat hi, Nat.shiftRight_eq_div_pow]
    omega
  · rw [BitVec.toNat_ofNat, Nat.mod_eq_of_lt (by omega)]

/-- `PackStep` keeps the packer invariant (10_state.md rule R35). -/
theorem packStep_inv {p : Packer} (hi : p.Inv) (y : Symbol) : (packStep p y).2.Inv := by
  have hlt := packCombined_lt hi y
  by_cases h : 8 ≤ p.bits.toNat + 3
  · obtain ⟨b, -, -, h2, h3⟩ := packStep_some hi y h
    rw [Packer.Inv, h2, h3, Nat.div_lt_iff_lt_mul (by decide), show (256 : Nat) = 2 ^ 8 from rfl, ← Nat.pow_add,
      Nat.sub_add_cancel h]
    exact hlt
  · obtain ⟨-, h2, h3⟩ := packStep_none hi y (by omega)
    rw [Packer.Inv, h2, h3]
    exact hlt

theorem Packer.cleared_inv : Packer.cleared.Inv := by decide

end Sys2Proof.Machine
end

