-- ==== Sys2Proof/Laws/Splitter.lean ====
section
/-! SUPPORT. What `SplitStep` can do (spec/40_splitter.md rule R121), in numbers: the buffered bits and the queue are one
number of so many bits, and a step takes its low digit (R130). -/

namespace Sys2Proof.Machine

@[simp] theorem widthBits_toNat (w : Width) : (widthBits w).toNat = symbolWidth w := by cases w <;> rfl

theorem symbolWidth_eq (w : Width) : symbolWidth w = 3 ∨ symbolWidth w = 4 := by cases w <;> simp [symbolWidth]

/-- The symbol taken is the remainder by `2^w`. -/
theorem lowSymbol_toNat (w : Width) (rem : BitVec 16) : (lowSymbol w rem).toNat = rem.toNat % 2 ^ symbolWidth w := by
  cases w
  · simp [lowSymbol, symbolWidth]
    omega
  · simp [lowSymbol, symbolWidth]

/-- The bits of a stream: buffered, then queued. -/
def streamBits (fs : Splitter) (m : Memory) : Nat := fs.bits.toNat + 8 * m.sq.length

/-- The stream as a number: the buffered bits, and above them the queued bytes. -/
def streamValue (fs : Splitter) (m : Memory) : Nat := fs.rem.toNat + 2 ^ fs.bits.toNat * streamNumber m.sq

/-- A byte shifted above the buffered bits is an addition (R130). -/
theorem Splitter.buffer_rem {fs : Splitter} (hr : fs.rem.toNat < 2 ^ fs.bits.toNat) (hb : fs.bits.toNat < 4) (b : Byte) :
    (fs.buffer b).rem.toNat = fs.rem.toNat + b.toNat * 2 ^ fs.bits.toNat := by
  have hlt : b.toNat * 2 ^ fs.bits.toNat < 2 ^ 16 := by
    have h1 : b.toNat < 2 ^ 8 := b.isLt
    have h2 : 2 ^ fs.bits.toNat ≤ 2 ^ 3 := Nat.pow_le_pow_right (by omega) (by omega)
    calc b.toNat * 2 ^ fs.bits.toNat ≤ 2 ^ 8 * 2 ^ 3 := Nat.mul_le_mul (by omega) h2
      _ < 2 ^ 16 := by decide
  simp only [Splitter.buffer, BitVec.toNat_or, BitVec.toNat_shiftLeft, BitVec.toNat_setWidth]
  rw [Nat.mod_eq_of_lt (a := b.toNat) (by have := b.isLt; omega), Nat.shiftLeft_eq, Nat.mod_eq_of_lt hlt, Nat.or_comm,
    ← Nat.shiftLeft_eq, ← Nat.shiftLeft_add_eq_or_of_lt hr, Nat.add_comm]

/-- The count after a pull (R130). -/
theorem Splitter.buffer_bits {fs : Splitter} (hb : fs.bits.toNat < 4) (b : Byte) :
    (fs.buffer b).bits.toNat = fs.bits.toNat + 8 := by
  simp only [Splitter.buffer, BitVec.toNat_add]
  have : (8 : BitVec 4).toNat = 8 := rfl
  omega

/-- What is kept after a symbol has been taken. -/
theorem splitTake_rem (fs : Splitter) (m : Memory) :
    (splitTake fs m).fs.rem.toNat = fs.rem.toNat / 2 ^ symbolWidth fs.w := by
  simp [splitTake, Nat.shiftRight_eq_div_pow]

/-- The count after a symbol has been taken. -/
theorem splitTake_bits {fs : Splitter} (h : symbolWidth fs.w ≤ fs.bits.toNat) (m : Memory) :
    (splitTake fs m).fs.bits.toNat = fs.bits.toNat - symbolWidth fs.w := by
  simp only [splitTake]
  rw [BitVec.toNat_sub_of_le (by rw [BitVec.le_def]; simpa using h), widthBits_toNat]

/-- The comparison "fewer than `w` bits are buffered". -/
theorem Splitter.bits_lt_iff (fs : Splitter) : fs.bits < widthBits fs.w ↔ fs.bits.toNat < symbolWidth fs.w := by
  rw [BitVec.lt_def, widthBits_toNat]

theorem splitStep_of_exh {fs : Splitter} (h : fs.exh = true) (m : Memory) :
    splitStep fs m = { result := .endOfSeq, fs := fs, mem := m } := by simp [splitStep, h]

theorem splitStep_of_ge {fs : Splitter} (he : fs.exh = false) (h : symbolWidth fs.w ≤ fs.bits.toNat) (m : Memory) :
    splitStep fs m = splitTake fs m := by
  simp [splitStep, he, Splitter.bits_lt_iff, Nat.not_lt.2 h]

theorem splitStep_of_pull {fs : Splitter} (he : fs.exh = false) (h : fs.bits.toNat < symbolWidth fs.w) {m : Memory}
    {b : Byte} {rest : List Byte} (hq : m.sq = b :: rest) :
    splitStep fs m = splitTake (fs.buffer b) { m with sq := rest } := by
  simp [splitStep, he, Splitter.bits_lt_iff, h, Memory.srcPull, hq]

theorem splitStep_of_end {fs : Splitter} (he : fs.exh = false) (h : fs.bits.toNat < symbolWidth fs.w) {m : Memory}
    (hq : m.sq = []) :
    splitStep fs m =
      { result := if fs.bits = 0 then .endOfSeq else .sym (lowSymbol fs.w fs.rem), fs := fs.exhausted, mem := m } := by
  simp [splitStep, he, Splitter.bits_lt_iff, h, Memory.srcPull, hq]

/-- The four ways `SplitStep` goes. -/
theorem splitStep_cases (fs : Splitter) (m : Memory) :
    (fs.exh = true ∧ splitStep fs m = { result := .endOfSeq, fs := fs, mem := m }) ∨
    (fs.exh = false ∧ symbolWidth fs.w ≤ fs.bits.toNat ∧ splitStep fs m = splitTake fs m) ∨
    (fs.exh = false ∧ fs.bits.toNat < symbolWidth fs.w ∧ ∃ b rest, m.sq = b :: rest ∧
      splitStep fs m = splitTake (fs.buffer b) { m with sq := rest }) ∨
    (fs.exh = false ∧ fs.bits.toNat < symbolWidth fs.w ∧ m.sq = [] ∧
      splitStep fs m =
        { result := if fs.bits = 0 then .endOfSeq else .sym (lowSymbol fs.w fs.rem), fs := fs.exhausted, mem := m }) := by
  cases he : fs.exh
  · by_cases h : symbolWidth fs.w ≤ fs.bits.toNat
    · exact .inr (.inl ⟨rfl, h, splitStep_of_ge he h m⟩)
    · cases hq : m.sq with
      | nil => exact .inr (.inr (.inr ⟨rfl, by omega, rfl, splitStep_of_end he (by omega) hq⟩))
      | cons b rest => exact .inr (.inr (.inl ⟨rfl, by omega, b, rest, rfl, splitStep_of_pull he (by omega) hq⟩))
  · exact .inl ⟨rfl, splitStep_of_exh he m⟩

/-- `SplitStep` keeps the width, the binding and the arena, and takes at most one byte off the head of the queue. -/
theorem splitStep_frame (fs : Splitter) (m : Memory) :
    (splitStep fs m).fs.w = fs.w ∧ (splitStep fs m).fs.bound = fs.bound ∧ (splitStep fs m).mem.nodes = m.nodes ∧
      ((splitStep fs m).mem = m ∨ ∃ b rest, m.sq = b :: rest ∧ (splitStep fs m).mem = { m with sq := rest }) := by
  rcases splitStep_cases fs m with ⟨-, h⟩ | ⟨-, -, h⟩ | ⟨-, -, b, rest, hq, h⟩ | ⟨-, -, -, h⟩ <;> rw [h]
  · exact ⟨rfl, rfl, rfl, .inl rfl⟩
  · exact ⟨rfl, rfl, rfl, .inl rfl⟩
  · exact ⟨rfl, rfl, rfl, .inr ⟨b, rest, hq, rfl⟩⟩
  · exact ⟨rfl, rfl, rfl, .inl rfl⟩

/-- `SplitStep` depends on the memory through the queue alone. -/
theorem splitStep_congr (fs : Splitter) {m m' : Memory} (h : m.sq = m'.sq) :
    (splitStep fs m).result = (splitStep fs m').result ∧ (splitStep fs m).fs = (splitStep fs m').fs ∧
      (splitStep fs m).mem.sq = (splitStep fs m').mem.sq := by
  cases he : fs.exh
  · by_cases hw : symbolWidth fs.w ≤ fs.bits.toNat
    · rw [splitStep_of_ge he hw, splitStep_of_ge he hw]
      exact ⟨rfl, rfl, h⟩
    · cases hq : m.sq with
      | nil =>
        rw [splitStep_of_end he (by omega) hq, splitStep_of_end he (by omega) (h ▸ hq)]
        exact ⟨rfl, rfl, h⟩
      | cons b rest =>
        rw [splitStep_of_pull he (by omega) hq, splitStep_of_pull he (by omega) (h ▸ hq)]
        exact ⟨rfl, rfl, rfl⟩
  · rw [splitStep_of_exh he, splitStep_of_exh he]
    exact ⟨rfl, rfl, h⟩

/-- A splitter just bound meets the invariant. -/
theorem Splitter.bind_inv (w : Width) : (Splitter.bind w).Inv where
  rem_lt := by simp [Splitter.bind]
  bits_le := by simp [Splitter.bind]
  exhausted := by simp [Splitter.bind]
  nibble := fun _ => .inl rfl

theorem Splitter.exhausted_inv (fs : Splitter) : fs.exhausted.Inv where
  rem_lt := by simp [Splitter.exhausted]
  bits_le := by simp [Splitter.exhausted]
  exhausted := fun _ => ⟨rfl, rfl⟩
  nibble := fun _ => .inl rfl

/-- The invariant with the buffered count of the middle of a command. -/
theorem splitTake_inv {fs : Splitter} (m : Memory) (hr : fs.rem.toNat < 2 ^ fs.bits.toNat)
    (hw : symbolWidth fs.w ≤ fs.bits.toNat) (hb : fs.bits.toNat ≤ symbolWidth fs.w + 7)
    (hn : fs.w = .w4 → fs.bits = 4 ∨ fs.bits = 8) : (splitTake fs m).fs.Inv where
  rem_lt := by
    rw [splitTake_rem, splitTake_bits hw, Nat.div_lt_iff_lt_mul (Nat.two_pow_pos _), ← Nat.pow_add]
    rwa [Nat.sub_add_cancel hw]
  bits_le := by
    rw [splitTake_bits hw]
    omega
  exhausted := by simp [splitTake]
  nibble := fun h => by
    have h' : fs.w = .w4 := h
    rcases hn h' with h4 | h8
    · exact .inl (by simp [splitTake, h', h4, widthBits])
    · exact .inr (by simp [splitTake, h', h8, widthBits])

/-- What a pull leaves meets the premises of `splitTake_inv`. -/
theorem Splitter.buffer_mid {fs : Splitter} (hi : fs.Inv) (h : fs.bits.toNat < symbolWidth fs.w) (b : Byte) :
    (fs.buffer b).rem.toNat < 2 ^ (fs.buffer b).bits.toNat ∧
      symbolWidth (fs.buffer b).w ≤ (fs.buffer b).bits.toNat ∧
      (fs.buffer b).bits.toNat ≤ symbolWidth (fs.buffer b).w + 7 ∧
      ((fs.buffer b).w = .w4 → (fs.buffer b).bits = 4 ∨ (fs.buffer b).bits = 8) := by
  have hw := symbolWidth_eq fs.w
  have hb : fs.bits.toNat < 4 := by omega
  rw [buffer_rem hi.rem_lt hb, buffer_bits hb]
  refine ⟨?_, by simp only [Splitter.buffer]; omega, by simp only [Splitter.buffer]; omega, fun h4 => ?_⟩
  · have h1 := hi.rem_lt
    have h2 : b.toNat < 2 ^ 8 := b.isLt
    calc fs.rem.toNat + b.toNat * 2 ^ fs.bits.toNat < 2 ^ fs.bits.toNat + b.toNat * 2 ^ fs.bits.toNat := by omega
      _ = (b.toNat + 1) * 2 ^ fs.bits.toNat := by ring
      _ ≤ 2 ^ 8 * 2 ^ fs.bits.toNat := Nat.mul_le_mul_right _ (by omega)
      _ = 2 ^ (fs.bits.toNat + 8) := by rw [Nat.pow_add, Nat.mul_comm]
  · have h4' : fs.w = .w4 := h4
    rcases hi.nibble h4' with h0 | h4''
    · exact .inr (by simp [Splitter.buffer, h0])
    · rw [h4', h4''] at h
      exact absurd h (by decide)

/-- `SplitStep` keeps the splitter invariant (10_state.md rule R31). -/
theorem splitStep_inv {fs : Splitter} (hi : fs.Inv) (m : Memory) : (splitStep fs m).fs.Inv := by
  rcases splitStep_cases fs m with ⟨-, h⟩ | ⟨-, hw, h⟩ | ⟨-, hw, b, rest, -, h⟩ | ⟨-, -, -, h⟩ <;> rw [h]
  · exact hi
  · have h7 := hi.bits_le
    refine splitTake_inv m hi.rem_lt hw (by omega) fun h4 => ?_
    rcases hi.nibble h4 with h0 | h4'
    · rw [h4, h0] at hw
      exact absurd hw (by decide)
    · exact .inl h4'
  · obtain ⟨h1, h2, h3, h4⟩ := Splitter.buffer_mid hi hw b
    exact splitTake_inv _ h1 h2 h3 h4
  · exact Splitter.exhausted_inv fs

/-- Taking a symbol is dividing the stream by `2^w`. -/
theorem splitTake_value {fs : Splitter} (h : symbolWidth fs.w ≤ fs.bits.toNat) (m : Memory) :
    (lowSymbol fs.w fs.rem).toNat = streamValue fs m % 2 ^ symbolWidth fs.w ∧
      streamValue (splitTake fs m).fs (splitTake fs m).mem = streamValue fs m / 2 ^ symbolWidth fs.w ∧
      streamBits (splitTake fs m).fs (splitTake fs m).mem = streamBits fs m - symbolWidth fs.w := by
  have e : 2 ^ fs.bits.toNat * streamNumber m.sq =
      2 ^ symbolWidth fs.w * (2 ^ (fs.bits.toNat - symbolWidth fs.w) * streamNumber m.sq) := by
    rw [← Nat.mul_assoc, ← Nat.pow_add, Nat.add_sub_cancel' h]
  refine ⟨?_, ?_, ?_⟩
  · rw [lowSymbol_toNat, streamValue, e, Nat.add_mul_mod_self_left]
  · rw [streamValue, splitTake_rem, splitTake_bits h, streamValue, e, Nat.add_mul_div_left _ _ (Nat.two_pow_pos _)]
    rfl
  · rw [streamBits, splitTake_bits h, streamBits]
    simp only [splitTake]
    omega

/-- A pull moves a byte from the queue to the buffer and leaves the stream as it was. -/
theorem Splitter.buffer_value {fs : Splitter} (hi : fs.Inv) (hb : fs.bits.toNat < 4) {m : Memory} {b : Byte}
    {rest : List Byte} (hq : m.sq = b :: rest) :
    streamValue (fs.buffer b) { m with sq := rest } = streamValue fs m ∧
      streamBits (fs.buffer b) { m with sq := rest } = streamBits fs m := by
  constructor
  · simp only [streamValue, buffer_rem hi.rem_lt hb, buffer_bits hb, hq, streamNumber, Nat.pow_add]
    ring
  · simp only [streamBits, buffer_bits hb, hq, List.length_cons]
    ring

/-- `SplitStep` on a stream with no bits left: `End`, and exhausted. -/
theorem splitStep_at_end {fs : Splitter} {m : Memory} (h0 : streamBits fs m = 0) :
    (splitStep fs m).result = .endOfSeq ∧ streamBits (splitStep fs m).fs (splitStep fs m).mem = 0 ∧
      (splitStep fs m).fs.exh = true := by
  have hb : fs.bits.toNat = 0 := by unfold streamBits at h0; omega
  have hq : m.sq = [] := List.eq_nil_of_length_eq_zero (by unfold streamBits at h0; omega)
  have hb' : fs.bits = 0 := BitVec.eq_of_toNat_eq hb
  cases he : fs.exh
  · have := symbolWidth_eq fs.w
    rw [splitStep_of_end he (by omega) hq]
    simp [hb', streamBits, Splitter.exhausted, hq]
  · rw [splitStep_of_exh he]
    exact ⟨rfl, h0, he⟩

/-- `SplitStep` on a stream with bits left: the low digit of the stream is answered and the rest is kept. -/
theorem splitStep_value {fs : Splitter} (hi : fs.Inv) (he : fs.exh = false) {m : Memory} (h0 : 0 < streamBits fs m) :
    ∃ y, (splitStep fs m).result = .sym y ∧ y.toNat = streamValue fs m % 2 ^ symbolWidth fs.w ∧
      streamValue (splitStep fs m).fs (splitStep fs m).mem = streamValue fs m / 2 ^ symbolWidth fs.w ∧
      streamBits (splitStep fs m).fs (splitStep fs m).mem = streamBits fs m - symbolWidth fs.w ∧
      (symbolWidth fs.w ≤ streamBits fs m → (splitStep fs m).fs.exh = false) := by
  have hw := symbolWidth_eq fs.w
  by_cases hn : symbolWidth fs.w ≤ fs.bits.toNat
  · rw [splitStep_of_ge he hn]
    obtain ⟨h1, h2, h3⟩ := splitTake_value hn m
    exact ⟨_, rfl, h1, h2, h3, fun _ => rfl⟩
  · have hb : fs.bits.toNat < 4 := by omega
    cases hq : m.sq with
    | cons b rest =>
      rw [splitStep_of_pull he (by omega) hq]
      obtain ⟨hv, hs⟩ := Splitter.buffer_value hi hb hq
      obtain ⟨-, hm, -⟩ := Splitter.buffer_mid hi (by omega) b
      obtain ⟨h1, h2, h3⟩ := splitTake_value hm { m with sq := rest }
      rw [hv] at h1 h2
      rw [hs] at h3
      exact ⟨_, rfl, h1, h2, h3, fun _ => rfl⟩
    | nil =>
      have hbits : streamBits fs m = fs.bits.toNat := by simp [streamBits, hq]
      have hval : streamValue fs m = fs.rem.toNat := by simp [streamValue, hq, streamNumber]
      have hlt : fs.rem.toNat < 2 ^ symbolWidth fs.w :=
        Nat.lt_of_lt_of_le hi.rem_lt (Nat.pow_le_pow_right (by omega) (by omega))
      have hne : fs.bits ≠ 0 := fun h => by
        rw [hbits, h] at h0
        exact absurd h0 (by decide)
      rw [splitStep_of_end he (by omega) hq, if_neg hne]
      refine ⟨_, rfl, by rw [lowSymbol_toNat, hval], ?_, ?_, fun h => absurd h (by omega)⟩
      · rw [hval, Nat.div_eq_of_lt hlt]
        simp [streamValue, Splitter.exhausted, hq, streamNumber]
      · rw [hbits]
        simp only [streamBits, Splitter.exhausted, hq, List.length_nil]
        simp
        omega

end Sys2Proof.Machine
end

