-- ==== Sys2Proof/Laws/Trie.lean ====
section
/-! SUPPORT. What the loop of TR.ADDS can do (spec/42_trie.md rule R162). -/

namespace Sys2Proof.Machine

/-- The pairs of a current node and a memory that the loop of TR.ADDS passes through keep every property that a pull and
a navigate step keep; the memory it ends with has it too. -/
theorem addsLoop_keeps {cfg : Config} (P : NodeAddr → Memory → Prop)
    (pull : ∀ cur m b rest, P cur m → m.sq = b :: rest → P cur { m with sq := rest })
    (nav : ∀ cur m y c m', P cur m → navigate cfg m cur y = .addr c m' → P c m') :
    ∀ fuel fs cur m, P cur m →
      (∀ m', addsLoop cfg fuel fs cur m = .done m' → ∃ c, P c m') ∧
      (∀ m', addsLoop cfg fuel fs cur m = .full m' → ∃ c, P c m')
  | 0, _, _, _, _ => by simp [addsLoop]
  | fuel + 1, fs, cur, m, hP => by
    have hpull : P cur (splitStep fs m).mem := by
      obtain ⟨-, -, -, h | ⟨b, rest, hq, h⟩⟩ := splitStep_frame fs m <;> rw [h]
      · exact hP
      · exact pull cur m b rest hP hq
    unfold addsLoop
    cases hr : (splitStep fs m).result with
    | endOfSeq => simpa using ⟨cur, hpull⟩
    | sym y =>
      cases hn : navigate cfg (splitStep fs m).mem cur (y.setWidth 3) with
      | addr c m' => simpa only [hn] using addsLoop_keeps P pull nav fuel _ c m' (nav _ _ _ _ _ hpull hn)
      | full => simpa [hn] using ⟨cur, hpull⟩
      | noNode => simp [hn]

/-- The loop of TR.ADDS meets no node outside the arena when it starts inside it and every address a navigate step gives
is inside. -/
theorem addsLoop_noNode {cfg : Config} (P : NodeAddr → Memory → Prop)
    (pull : ∀ cur m b rest, P cur m → m.sq = b :: rest → P cur { m with sq := rest })
    (nav : ∀ cur m y c m', P cur m → navigate cfg m cur y = .addr c m' → P c m')
    (inside : ∀ cur m, P cur m → cur.toNat < m.size) :
    ∀ fuel fs cur m, P cur m → addsLoop cfg fuel fs cur m ≠ .noNode
  | 0, _, _, _, _ => by simp [addsLoop]
  | fuel + 1, fs, cur, m, hP => by
    have hpull : P cur (splitStep fs m).mem := by
      obtain ⟨-, -, -, h | ⟨b, rest, hq, h⟩⟩ := splitStep_frame fs m <;> rw [h]
      · exact hP
      · exact pull cur m b rest hP hq
    unfold addsLoop
    cases hr : (splitStep fs m).result with
    | endOfSeq => simp
    | sym y =>
      cases hn : navigate cfg (splitStep fs m).mem cur (y.setWidth 3) with
      | addr c m' => simpa only [hn] using addsLoop_noNode P pull nav inside fuel _ c m' (nav _ _ _ _ _ hpull hn)
      | full => simp [hn]
      | noNode =>
        rcases navigate_cases cfg (splitStep fs m).mem cur (y.setWidth 3) with ⟨h, -⟩ | ⟨v, -, -, h⟩ | ⟨-, -, h⟩ | ⟨-, -, h⟩
        · have := inside _ _ hpull
          omega
        all_goals rw [hn] at h; exact absurd h (by simp)

/-- The loop of TR.ADDS ends within its bound: a stream of `3 * k` bits or fewer takes at most `k + 1` passes. -/
theorem addsLoop_finishes {cfg : Config} :
    ∀ fuel fs cur m, fs.Inv → fs.w = .w3 → streamBits fs m ≤ 3 * fuel → addsLoop cfg (fuel + 1) fs cur m ≠ .unfinished
  | fuel, fs, cur, m, hi, hw, hb => by
    unfold addsLoop
    cases he : fs.exh
    · by_cases h0 : streamBits fs m = 0
      · simp [(splitStep_at_end h0).1]
      · obtain ⟨y, hr, -, -, hbits, -⟩ := splitStep_value hi he (m := m) (by omega)
        rw [hw] at hbits
        simp only [hr]
        cases hn : navigate cfg (splitStep fs m).mem cur (y.setWidth 3) with
        | addr c m' =>
          have hq := (navigate_addr hn).1
          have hb' : streamBits (splitStep fs m).fs m' = streamBits fs m - 3 := by
            rw [← show symbolWidth .w3 = 3 from rfl, ← hbits, streamBits, streamBits, hq]
          cases fuel with
          | zero => omega
          | succ k =>
            exact addsLoop_finishes k _ c m' (splitStep_inv hi m) ((splitStep_frame fs m).1 ▸ hw) (by omega)
        | full => simp
        | noNode => simp
    · simp [splitStep_of_exh he]

/-- The bound TR.ADDS uses is enough. -/
theorem addsLoop_bound (cfg : Config) (cur : NodeAddr) (m : Memory) :
    addsLoop cfg (addsFuel m) (Splitter.bind .w3) cur m ≠ .unfinished := by
  refine addsLoop_finishes (3 * m.sq.length) _ cur m (Splitter.bind_inv .w3) rfl ?_
  simp [streamBits, Splitter.bind]
  omega

end Sys2Proof.Machine
end

