-- ==== Sys2Proof/Laws/Exec.lean ====
section
/-! SUPPORT. One lemma per way a meaning goes, so that no proof unfolds a meaning; and everything one host action can
do. -/

namespace Sys2Proof.Machine

/-! ### The responses of FS.NEXT and PK.PUSH change nothing but `RESP` -/

@[simp] theorem splitRespond_cfg (r : SplitResult) (s : State) : (splitRespond r s).cfg = s.cfg := by cases r <;> rfl
@[simp] theorem splitRespond_host (r : SplitResult) (s : State) : (splitRespond r s).host = s.host := by cases r <;> rfl
@[simp] theorem splitRespond_fault (r : SplitResult) (s : State) : (splitRespond r s).fault = s.fault := by cases r <;> rfl
@[simp] theorem splitRespond_fs (r : SplitResult) (s : State) : (splitRespond r s).fs = s.fs := by cases r <;> rfl
@[simp] theorem splitRespond_pks (r : SplitResult) (s : State) : (splitRespond r s).pks = s.pks := by cases r <;> rfl
@[simp] theorem splitRespond_ens (r : SplitResult) (s : State) : (splitRespond r s).ens = s.ens := by cases r <;> rfl
@[simp] theorem splitRespond_mem (r : SplitResult) (s : State) : (splitRespond r s).mem = s.mem := by cases r <;> rfl
@[simp] theorem splitRespond_pk (r : SplitResult) (s : State) (p : CtxIdx) : (splitRespond r s).pk p = s.pk p := by cases r <;> rfl
@[simp] theorem splitRespond_en (r : SplitResult) (s : State) (e : CtxIdx) : (splitRespond r s).en e = s.en e := by cases r <;> rfl
@[simp] theorem packRespond_cfg (r : Option Byte) (s : State) : (packRespond r s).cfg = s.cfg := by cases r <;> rfl
@[simp] theorem packRespond_host (r : Option Byte) (s : State) : (packRespond r s).host = s.host := by cases r <;> rfl
@[simp] theorem packRespond_fault (r : Option Byte) (s : State) : (packRespond r s).fault = s.fault := by cases r <;> rfl
@[simp] theorem packRespond_fs (r : Option Byte) (s : State) : (packRespond r s).fs = s.fs := by cases r <;> rfl
@[simp] theorem packRespond_pks (r : Option Byte) (s : State) : (packRespond r s).pks = s.pks := by cases r <;> rfl
@[simp] theorem packRespond_ens (r : Option Byte) (s : State) : (packRespond r s).ens = s.ens := by cases r <;> rfl
@[simp] theorem packRespond_mem (r : Option Byte) (s : State) : (packRespond r s).mem = s.mem := by cases r <;> rfl
@[simp] theorem packRespond_pk (r : Option Byte) (s : State) (p : CtxIdx) : (packRespond r s).pk p = s.pk p := by cases r <;> rfl
@[simp] theorem packRespond_en (r : Option Byte) (s : State) (e : CtxIdx) : (packRespond r s).en e = s.en e := by cases r <;> rfl

section meanings
variable {s : State} (hf : s.fault.valid = false)
include hf

/-! ### Trie -/

theorem execTrNew_eq : exec .trNew s = .next ({ s with mem := s.mem.newTrie }.closeAll.respond .done 0 0) := by
  simp only [exec, execTrNew, State.command_ok _ hf]

theorem execTrNav_badAddr {a : NodeAddr} (h : s.mem.size ≤ a.toNat) (y : Symbol) :
    exec (.trNav a y) s = .next (s.raise .badAddr) := by
  have hn : navigate s.cfg s.mem a y = .noNode := by simp [navigate, Memory.nodeRead_eq_none.2 h]
  simp only [exec, execTrNav, State.command_ok _ hf, hn]

theorem execTrNav_full {a : NodeAddr} {y : Symbol} (h : navigate s.cfg s.mem a y = .full) :
    exec (.trNav a y) s = .next (s.raise .capacity) := by
  simp only [exec, execTrNav, State.command_ok _ hf, h]

theorem execTrNav_addr {a c : NodeAddr} {y : Symbol} {m : Memory} (h : navigate s.cfg s.mem a y = .addr c m) :
    exec (.trNav a y) s = .next ({ s with mem := m }.respond .val 0 c) := by
  simp only [exec, execTrNav, State.command_ok _ hf, h]

theorem execTrCnt_badAddr {a : NodeAddr} (h : s.mem.size ≤ a.toNat) :
    exec (.trCnt a) s = .next (s.raise .badAddr) := by
  have hn : s.mem.nodes[a.toNat]? = none := by simpa [Memory.size] using h
  simp only [exec, execTrCnt, State.command_ok _ hf, hn]

theorem execTrCnt_eq {a : NodeAddr} {n : Node} (h : s.mem.nodes[a.toNat]? = some n) :
    exec (.trCnt a) s = .next (s.respond .val 0 (BitVec.ofNat 16 (childCount n))) := by
  simp only [exec, execTrCnt, State.command_ok _ hf, h]

theorem execTrAdds_done {m : Memory}
    (h : addsLoop s.cfg (addsFuel s.mem) (Splitter.bind .w3) 0 s.mem = .done m) :
    exec .trAdds s = .next ({ s with mem := m }.respond .done 0 0) := by
  simp only [exec, execTrAdds, State.command_ok _ hf, h]

theorem execTrAdds_full {m : Memory}
    (h : addsLoop s.cfg (addsFuel s.mem) (Splitter.bind .w3) 0 s.mem = .full m) :
    exec .trAdds s = .next ({ s with mem := m }.raise .capacity) := by
  simp only [exec, execTrAdds, State.command_ok _ hf, h]

/-- TR.ADDS ends in one of these ways; it never reaches the bound of its loop. -/
theorem execTrAdds_cases :
    (∃ m, addsLoop s.cfg (addsFuel s.mem) (Splitter.bind .w3) 0 s.mem = .done m ∧
      exec .trAdds s = .next ({ s with mem := m }.respond .done 0 0)) ∨
    (∃ m, addsLoop s.cfg (addsFuel s.mem) (Splitter.bind .w3) 0 s.mem = .full m ∧
      exec .trAdds s = .next ({ s with mem := m }.raise .capacity)) ∨
    (addsLoop s.cfg (addsFuel s.mem) (Splitter.bind .w3) 0 s.mem = .noNode ∧ exec .trAdds s = .fault .noSuchNode) := by
  cases h : addsLoop s.cfg (addsFuel s.mem) (Splitter.bind .w3) 0 s.mem with
  | done m => exact .inl ⟨m, rfl, execTrAdds_done hf h⟩
  | full m => exact .inr (.inl ⟨m, rfl, execTrAdds_full hf h⟩)
  | noNode => exact .inr (.inr ⟨rfl, by simp only [exec, execTrAdds, State.command_ok _ hf, h]⟩)
  | unfinished => exact absurd h (addsLoop_bound _ _ _)

/-! ### Enumerator -/

theorem execEnOpen_badCtx {e : CtxIdx} (h : s.cfg.nen ≤ e.toNat) (a : NodeAddr) :
    exec (.enOpen e a) s = .next (s.raise .badCtx) := by
  simp only [exec, execEnOpen, enOperand_bad h, State.command_error _ hf]

theorem execEnOpen_badAddr {e : CtxIdx} (h : e.toNat < s.cfg.nen) {a : NodeAddr} (ha : s.mem.size ≤ a.toNat) :
    exec (.enOpen e a) s = .next (s.raise .badAddr) := by
  simp only [exec, execEnOpen, enOperand_ok h, State.command_ok _ hf, if_neg (Nat.not_lt.2 ha)]

theorem execEnOpen_eq {e : CtxIdx} (h : e.toNat < s.cfg.nen) {a : NodeAddr} (ha : a.toNat < s.mem.size) :
    exec (.enOpen e a) s = .next ((s.setEn e (Enumerator.opened a)).respond .done 0 0) := by
  simp only [exec, execEnOpen, enOperand_ok h, State.command_ok _ hf, if_pos ha]

theorem execEnNext_badCtx {e : CtxIdx} (h : s.cfg.nen ≤ e.toNat) : exec (.enNext e) s = .next (s.raise .badCtx) := by
  simp only [exec, execEnNext, enOperand_bad h, State.command_error _ hf]

theorem execEnNext_notOpen {e : CtxIdx} (h : e.toNat < s.cfg.nen) (ho : (s.en e).isOpen = false) :
    exec (.enNext e) s = .next (s.raise .notOpen) := by
  simp only [exec, execEnNext, enOperand_ok h, State.command_ok _ hf, ho, Bool.false_eq_true, if_false]

theorem execEnNext_noNode {e : CtxIdx} (h : e.toNat < s.cfg.nen) (ho : (s.en e).isOpen = true)
    (ha : s.mem.size ≤ (s.en e).node.toNat) : exec (.enNext e) s = .fault .noSuchNode := by
  have hn : s.mem.nodes[(s.en e).node.toNat]? = none := by simpa [Memory.size] using ha
  simp only [exec, execEnNext, enOperand_ok h, State.command_ok _ hf, ho, if_true, hn]

theorem execEnNext_pair {e : CtxIdx} (h : e.toNat < s.cfg.nen) (ho : (s.en e).isOpen = true) {n : Node}
    (hn : s.mem.nodes[(s.en e).node.toNat]? = some n) {y : Symbol} (hy : nextChild n (s.en e).pos = some y) :
    exec (.enNext e) s =
      .next ((s.setEn e { s.en e with pos := y.setWidth 4 + 1 }).respond .val y (n.slot y)) := by
  simp only [exec, execEnNext, enOperand_ok h, State.command_ok _ hf, ho, if_true, hn, hy]

theorem execEnNext_end {e : CtxIdx} (h : e.toNat < s.cfg.nen) (ho : (s.en e).isOpen = true) {n : Node}
    (hn : s.mem.nodes[(s.en e).node.toNat]? = some n) (hy : nextChild n (s.en e).pos = none) :
    exec (.enNext e) s = .next ((s.setEn e { s.en e with pos := 8 }).respond .endOfSeq 0 0) := by
  simp only [exec, execEnNext, enOperand_ok h, State.command_ok _ hf, ho, if_true, hn, hy]

theorem execEnClose_badCtx {e : CtxIdx} (h : s.cfg.nen ≤ e.toNat) : exec (.enClose e) s = .next (s.raise .badCtx) := by
  simp only [exec, execEnClose, enOperand_bad h, State.command_error _ hf]

theorem execEnClose_eq {e : CtxIdx} (h : e.toNat < s.cfg.nen) :
    exec (.enClose e) s = .next ((s.setEn e (s.en e).close).respond .done 0 0) := by
  simp only [exec, execEnClose, enOperand_ok h, State.command_ok _ hf]

/-! ### Splitter and source queue -/

theorem execFsBind_eq (w : Width) : exec (.fsBind w) s = .next ({ s with fs := Splitter.bind w }.respond .done 0 0) := by
  simp only [exec, execFsBind, State.command_ok _ hf]

theorem execFsNext_notBound (h : s.fs.bound = false) : exec .fsNext s = .next (s.raise .notBound) := by
  simp only [exec, execFsNext, State.command_ok _ hf, h, Bool.false_eq_true, if_false]

theorem execFsNext_eq (h : s.fs.bound = true) :
    exec .fsNext s = .next (splitRespond (splitStep s.fs s.mem).result
      { s with fs := (splitStep s.fs s.mem).fs, mem := (splitStep s.fs s.mem).mem }) := by
  simp only [exec, execFsNext, State.command_ok _ hf, h, if_true]

theorem execSqPut_full (h : s.mem.sq.length = s.cfg.sqDepth) (b : Byte) :
    exec (.sqPut b) s = .next (s.raise .sqFull) := by
  simp only [exec, execSqPut, State.command_ok _ hf, if_pos h]

theorem execSqPut_eq (h : s.mem.sq.length ≠ s.cfg.sqDepth) (b : Byte) :
    exec (.sqPut b) s = .next ({ s with mem := s.mem.srcPush b }.respond .done 0 0) := by
  simp only [exec, execSqPut, State.command_ok _ hf, if_neg h]

theorem execSqClr_eq : exec .sqClr s = .next ({ s with mem := s.mem.srcClear }.respond .done 0 0) := by
  simp only [exec, execSqClr, State.command_ok _ hf]

/-! ### Packer -/

theorem execPkClr_badCtx {p : CtxIdx} (h : s.cfg.npk ≤ p.toNat) : exec (.pkClr p) s = .next (s.raise .badCtx) := by
  simp only [exec, execPkClr, pkOperand_bad h, State.command_error _ hf]

theorem execPkClr_eq {p : CtxIdx} (h : p.toNat < s.cfg.npk) :
    exec (.pkClr p) s = .next ((s.setPk p Packer.cleared).respond .done 0 0) := by
  simp only [exec, execPkClr, pkOperand_ok h, State.command_ok _ hf]

theorem execPkPush_badCtx {p : CtxIdx} (h : s.cfg.npk ≤ p.toNat) (y : Symbol) :
    exec (.pkPush p y) s = .next (s.raise .badCtx) := by
  simp only [exec, execPkPush, pkOperand_bad h, State.command_error _ hf]

theorem execPkPush_eq {p : CtxIdx} (h : p.toNat < s.cfg.npk) (y : Symbol) :
    exec (.pkPush p y) s = .next (packRespond (packStep (s.pk p) y).1 (s.setPk p (packStep (s.pk p) y).2)) := by
  simp only [exec, execPkPush, pkOperand_ok h, State.command_ok _ hf]

theorem execPkCopy_badCtx {d q : CtxIdx} (h : s.cfg.npk ≤ d.toNat ∨ s.cfg.npk ≤ q.toNat) :
    exec (.pkCopy d q) s = .next (s.raise .badCtx) := by
  simp only [exec, execPkCopy, pkPairOperand_bad h, State.command_error _ hf]

theorem execPkCopy_eq {d q : CtxIdx} (h : d.toNat < s.cfg.npk) (h' : q.toNat < s.cfg.npk) :
    exec (.pkCopy d q) s = .next ((s.setPk d (s.pk q)).respond .done 0 0) := by
  simp only [exec, execPkCopy, pkPairOperand_ok h h', State.command_ok _ hf]

/-! ### Status registers -/

theorem execCsrRd_error {n : CsrNum} {x : CtxIdx} {c : FaultCode} (h : csrOperand s.cfg n x = .error c) :
    exec (.csrRd n x) s = .next (s.raise c) := by
  simp only [exec, execCsrRd, h, State.command_error _ hf]

theorem execCsrRd_eq {n : CsrNum} {x : CtxIdx} {r : Csr} (h : csrOperand s.cfg n x = .ok r) :
    exec (.csrRd n x) s = .next (s.respond .val 0 (csrValue s x r)) := by
  simp only [exec, execCsrRd, h, State.command_ok _ hf]

end meanings

/-! ### Everything a command can do -/

/-- The state a command leaves, when it leaves one: refused, faulted before any effect, or one of the effects of its
unit. -/
theorem exec_cases {i : Instr} {s t : State} (h : exec i s = .next t) :
    (s.fault.valid = true ∧ t = s.refuse) ∨
    (s.fault.valid = false ∧
      ((∃ c, t = s.raise c) ∨
      (i = .trNew ∧ t = { s with mem := s.mem.newTrie }.closeAll.respond .done 0 0) ∨
      (∃ a y c m, i = .trNav a y ∧ navigate s.cfg s.mem a y = .addr c m ∧
        t = { s with mem := m }.respond .val 0 c) ∨
      (∃ a n, i = .trCnt a ∧ s.mem.nodes[a.toNat]? = some n ∧
        t = s.respond .val 0 (BitVec.ofNat 16 (childCount n))) ∨
      (∃ m, i = .trAdds ∧ addsLoop s.cfg (addsFuel s.mem) (Splitter.bind .w3) 0 s.mem = .done m ∧
        t = { s with mem := m }.respond .done 0 0) ∨
      (∃ m, i = .trAdds ∧ addsLoop s.cfg (addsFuel s.mem) (Splitter.bind .w3) 0 s.mem = .full m ∧
        t = { s with mem := m }.raise .capacity) ∨
      (∃ e a, i = .enOpen e a ∧ e.toNat < s.cfg.nen ∧ a.toNat < s.mem.size ∧
        t = (s.setEn e (Enumerator.opened a)).respond .done 0 0) ∨
      (∃ e n y, i = .enNext e ∧ e.toNat < s.cfg.nen ∧ (s.en e).isOpen = true ∧
        s.mem.nodes[(s.en e).node.toNat]? = some n ∧ nextChild n (s.en e).pos = some y ∧
        t = (s.setEn e { s.en e with pos := y.setWidth 4 + 1 }).respond .val y (n.slot y)) ∨
      (∃ e n, i = .enNext e ∧ e.toNat < s.cfg.nen ∧ (s.en e).isOpen = true ∧
        s.mem.nodes[(s.en e).node.toNat]? = some n ∧ nextChild n (s.en e).pos = none ∧
        t = (s.setEn e { s.en e with pos := 8 }).respond .endOfSeq 0 0) ∨
      (∃ e, i = .enClose e ∧ e.toNat < s.cfg.nen ∧ t = (s.setEn e (s.en e).close).respond .done 0 0) ∨
      (∃ w, i = .fsBind w ∧ t = { s with fs := Splitter.bind w }.respond .done 0 0) ∨
      (i = .fsNext ∧ s.fs.bound = true ∧
        t = splitRespond (splitStep s.fs s.mem).result
          { s with fs := (splitStep s.fs s.mem).fs, mem := (splitStep s.fs s.mem).mem }) ∨
      (∃ b, i = .sqPut b ∧ s.mem.sq.length ≠ s.cfg.sqDepth ∧
        t = { s with mem := s.mem.srcPush b }.respond .done 0 0) ∨
      (i = .sqClr ∧ t = { s with mem := s.mem.srcClear }.respond .done 0 0) ∨
      (∃ p, i = .pkClr p ∧ p.toNat < s.cfg.npk ∧ t = (s.setPk p Packer.cleared).respond .done 0 0) ∨
      (∃ p y, i = .pkPush p y ∧ p.toNat < s.cfg.npk ∧
        t = packRespond (packStep (s.pk p) y).1 (s.setPk p (packStep (s.pk p) y).2)) ∨
      (∃ d q, i = .pkCopy d q ∧ d.toNat < s.cfg.npk ∧ q.toNat < s.cfg.npk ∧
        t = (s.setPk d (s.pk q)).respond .done 0 0) ∨
      (∃ n x r, i = .csrRd n x ∧ csrOperand s.cfg n x = .ok r ∧ t = s.respond .val 0 (csrValue s x r)))) := by
  cases hf : s.fault.valid
  case true =>
    rw [exec_of_faulted i s hf] at h
    exact .inl ⟨rfl, (Host.Outcome.next.inj h).symm⟩
  case false =>
  refine .inr ⟨rfl, ?_⟩
  have inj : ∀ {u : State}, exec i s = .next u → t = u := fun h' => Host.Outcome.next.inj (h ▸ h')
  cases i with
  | trNew => exact .inr (.inl ⟨rfl, inj (execTrNew_eq hf)⟩)
  | trNav a y =>
    rcases navigate_cases s.cfg s.mem a y with ⟨ha, -⟩ | ⟨v, -, -, hn⟩ | ⟨-, -, hn⟩ | ⟨-, -, hn⟩
    · exact .inl ⟨_, inj (execTrNav_badAddr hf ha y)⟩
    · exact .inr (.inr (.inl ⟨a, y, _, _, rfl, hn, inj (execTrNav_addr hf hn)⟩))
    · exact .inl ⟨_, inj (execTrNav_full hf hn)⟩
    · exact .inr (.inr (.inl ⟨a, y, _, _, rfl, hn, inj (execTrNav_addr hf hn)⟩))
  | trCnt a =>
    by_cases ha : a.toNat < s.mem.size
    · obtain ⟨n, hn⟩ := Memory.exists_node ha
      exact .inr (.inr (.inr (.inl ⟨a, n, rfl, hn, inj (execTrCnt_eq hf hn)⟩)))
    · exact .inl ⟨_, inj (execTrCnt_badAddr hf (by omega))⟩
  | trAdds =>
    rcases execTrAdds_cases hf with ⟨m, hm, he⟩ | ⟨m, hm, he⟩ | ⟨-, he⟩
    · exact .inr (.inr (.inr (.inr (.inl ⟨m, rfl, hm, inj he⟩))))
    · exact .inr (.inr (.inr (.inr (.inr (.inl ⟨m, rfl, hm, inj he⟩)))))
    · rw [he] at h
      exact absurd h (by simp)
  | enOpen e a =>
    by_cases he : e.toNat < s.cfg.nen
    · by_cases ha : a.toNat < s.mem.size
      · exact .inr (.inr (.inr (.inr (.inr (.inr (.inl ⟨e, a, rfl, he, ha, inj (execEnOpen_eq hf he ha)⟩))))))
      · exact .inl ⟨_, inj (execEnOpen_badAddr hf he (by omega))⟩
    · exact .inl ⟨_, inj (execEnOpen_badCtx hf (by omega) a)⟩
  | enNext e =>
    by_cases he : e.toNat < s.cfg.nen
    · cases ho : (s.en e).isOpen
      · exact .inl ⟨_, inj (execEnNext_notOpen hf he ho)⟩
      · by_cases ha : (s.en e).node.toNat < s.mem.size
        · obtain ⟨n, hn⟩ := Memory.exists_node ha
          cases hy : nextChild n (s.en e).pos with
          | some y =>
            exact .inr (.inr (.inr (.inr (.inr (.inr (.inr (.inl
              ⟨e, n, y, rfl, he, ho, hn, hy, inj (execEnNext_pair hf he ho hn hy)⟩)))))))
          | none =>
            exact .inr (.inr (.inr (.inr (.inr (.inr (.inr (.inr (.inl
              ⟨e, n, rfl, he, ho, hn, hy, inj (execEnNext_end hf he ho hn hy)⟩))))))))
        · rw [execEnNext_noNode hf he ho (by omega)] at h
          exact absurd h (by simp)
    · exact .inl ⟨_, inj (execEnNext_badCtx hf (by omega))⟩
  | enClose e =>
    by_cases he : e.toNat < s.cfg.nen
    · exact .inr (.inr (.inr (.inr (.inr (.inr (.inr (.inr (.inr (.inl
        ⟨e, rfl, he, inj (execEnClose_eq hf he)⟩)))))))))
    · exact .inl ⟨_, inj (execEnClose_badCtx hf (by omega))⟩
  | fsBind w =>
    exact .inr (.inr (.inr (.inr (.inr (.inr (.inr (.inr (.inr (.inr (.inl
      ⟨w, rfl, inj (execFsBind_eq hf w)⟩))))))))))
  | fsNext =>
    cases hb : s.fs.bound
    · exact .inl ⟨_, inj (execFsNext_notBound hf hb)⟩
    · exact .inr (.inr (.inr (.inr (.inr (.inr (.inr (.inr (.inr (.inr (.inr (.inl
        ⟨rfl, rfl, inj (execFsNext_eq hf hb)⟩)))))))))))
  | sqPut b =>
    by_cases hl : s.mem.sq.length = s.cfg.sqDepth
    · exact .inl ⟨_, inj (execSqPut_full hf hl b)⟩
    · exact .inr (.inr (.inr (.inr (.inr (.inr (.inr (.inr (.inr (.inr (.inr (.inr (.inl
        ⟨b, rfl, hl, inj (execSqPut_eq hf hl b)⟩))))))))))))
  | sqClr =>
    exact .inr (.inr (.inr (.inr (.inr (.inr (.inr (.inr (.inr (.inr (.inr (.inr (.inr (.inl
      ⟨rfl, inj (execSqClr_eq hf)⟩)))))))))))))
  | pkClr p =>
    by_cases hp : p.toNat < s.cfg.npk
    · exact .inr (.inr (.inr (.inr (.inr (.inr (.inr (.inr (.inr (.inr (.inr (.inr (.inr (.inr (.inl
        ⟨p, rfl, hp, inj (execPkClr_eq hf hp)⟩))))))))))))))
    · exact .inl ⟨_, inj (execPkClr_badCtx hf (by omega))⟩
  | pkPush p y =>
    by_cases hp : p.toNat < s.cfg.npk
    · exact .inr (.inr (.inr (.inr (.inr (.inr (.inr (.inr (.inr (.inr (.inr (.inr (.inr (.inr (.inr (.inl
        ⟨p, y, rfl, hp, inj (execPkPush_eq hf hp y)⟩)))))))))))))))
    · exact .inl ⟨_, inj (execPkPush_badCtx hf (by omega) y)⟩
  | pkCopy d q =>
    by_cases hp : d.toNat < s.cfg.npk ∧ q.toNat < s.cfg.npk
    · exact .inr (.inr (.inr (.inr (.inr (.inr (.inr (.inr (.inr (.inr (.inr (.inr (.inr (.inr (.inr (.inr (.inl
        ⟨d, q, rfl, hp.1, hp.2, inj (execPkCopy_eq hf hp.1 hp.2)⟩))))))))))))))))
    · exact .inl ⟨_, inj (execPkCopy_badCtx hf (by omega))⟩
  | csrRd n x =>
    cases hr : csrOperand s.cfg n x with
    | error c => exact .inl ⟨_, inj (execCsrRd_error hf hr)⟩
    | ok r =>
      exact .inr (.inr (.inr (.inr (.inr (.inr (.inr (.inr (.inr (.inr (.inr (.inr (.inr (.inr (.inr (.inr (.inr
        ⟨n, x, r, rfl, hr, inj (execCsrRd_eq hf hr)⟩))))))))))))))))

/-! ### Everything a step can do -/

/-- The state a step leaves, when it leaves one: the block was idle, was reset, was read, refused or raised
ILLEGAL_CMD on a word, or executed a command. -/
theorem step_cases {s t : State} (h : step s = .next t) :
    (s.host = [] ∧ t = s) ∨
    ∃ a rest, s.host = a :: rest ∧
      ((a = .assertReset ∧ t = ({ s with host := rest } : State).hostReset) ∨
      (a = .readResp ∧ t = { s with host := rest }) ∨
      (∃ c, a = .present c ∧
        ((s.fault.valid = true ∧ t = ({ s with host := rest } : State).refuse) ∨
        (s.fault.valid = false ∧ (∀ i, decodeWord c ≠ .ok i) ∧
          t = ({ s with host := rest } : State).raise .illegalCmd) ∨
        (s.fault.valid = false ∧ ∃ i, decodeWord c = .ok i ∧ exec i { s with host := rest } = .next t)))) := by
  cases hh : s.host with
  | nil =>
    simp only [step, runHost, hh] at h
    exact .inl ⟨rfl, (Host.Outcome.next.inj h).symm⟩
  | cons a rest =>
    refine .inr ⟨a, rest, rfl, ?_⟩
    cases a with
    | assertReset =>
      simp only [step, runHost, hh, runAction] at h
      exact .inl ⟨rfl, (Host.Outcome.next.inj h).symm⟩
    | readResp =>
      simp only [step, runHost, hh, runAction] at h
      exact .inr (.inl ⟨rfl, (Host.Outcome.next.inj h).symm⟩)
    | present c =>
      refine .inr (.inr ⟨c, rfl, ?_⟩)
      simp only [step, runHost, hh, runAction, runWord] at h
      cases hf : s.fault.valid
      · simp only [hf, Bool.false_eq_true, if_false] at h
        cases hd : decodeWord c with
        | ok i =>
          simp only [hd] at h
          exact .inr (.inr ⟨rfl, i, rfl, h⟩)
        | error e =>
          simp only [hd] at h
          exact .inr (.inl ⟨rfl, by simp, (Host.Outcome.next.inj h).symm⟩)
      · simp only [hf, if_true] at h
        exact .inl ⟨rfl, (Host.Outcome.next.inj h).symm⟩

/-- A property of states that every command keeps, and that refusing, raising, reset and the passing of a host action
keep, is kept by every step. -/
theorem step_keeps (P : State → Prop) (host : ∀ s h, P s → P { s with host := h })
    (reset : ∀ s, P s → P s.hostReset) (refuse : ∀ s, P s → P s.refuse) (raise : ∀ s c, P s → P (s.raise c))
    (run : ∀ i s t, P s → exec i s = .next t → P t) {s t : State} (hP : P s) (h : step s = .next t) : P t := by
  rcases step_cases h with
    ⟨-, rfl⟩ | ⟨a, rest, -, ⟨-, rfl⟩ | ⟨-, rfl⟩ | ⟨c, -, ⟨-, rfl⟩ | ⟨-, -, rfl⟩ | ⟨-, i, -, he⟩⟩⟩
  · exact hP
  · exact reset _ (host _ _ hP)
  · exact host _ _ hP
  · exact refuse _ (host _ _ hP)
  · exact raise _ _ (host _ _ hP)
  · exact run i _ _ (host _ _ hP) he

end Sys2Proof.Machine
end

