-- ==== Sys2Proof/Laws/Arena.lean ====
section
/-! SUPPORT. The arena stays a tree (spec/10_state.md rule R42): every operation that writes it keeps `ArenaInv`, and
within one lifetime of the trie it only grows (42_trie.md rule R164). -/

namespace Sys2Proof.Machine

/-- One arena grows into another: no node and no child address is lost. -/
structure Memory.Grows (m m' : Memory) : Prop where
  size : m.size ≤ m'.size
  child : ∀ a y v, m.nodeRead a y = some v → v ≠ absent → m'.nodeRead a y = some v

theorem Memory.Grows.refl (m : Memory) : m.Grows m := ⟨Nat.le_refl _, fun _ _ _ h _ => h⟩

theorem Memory.Grows.trans {m m' m'' : Memory} (h : m.Grows m') (h' : m'.Grows m'') : m.Grows m'' :=
  ⟨Nat.le_trans h.size h'.size, fun a y v hr hv => h'.child a y v (h.child a y v hr hv) hv⟩

theorem Memory.Grows.of_nodes {m m' : Memory} (h : m'.nodes = m.nodes) : m.Grows m' :=
  ⟨(Memory.size_congr h).ge, fun a y _ hr _ => (Memory.nodeRead_congr h a y).trans hr⟩

/-- The arena invariant speaks of the nodes alone. -/
theorem ArenaInv.congr {cfg : Config} {m m' : Memory} (hi : ArenaInv cfg m) (h : m'.nodes = m.nodes) :
    ArenaInv cfg m' := by
  have hr := Memory.nodeRead_congr h
  have hs := Memory.size_congr h
  exact {
    root := hs ▸ hi.root
    bounded := hs ▸ hi.bounded
    valid := fun a y v h1 h2 => hs ▸ hi.valid a y v (hr a y ▸ h1) h2
    greater := fun a y v h1 h2 => hi.greater a y v (hr a y ▸ h1) h2
    parent := fun c h1 h2 => by
      obtain ⟨a, y, h3, h4⟩ := hi.parent c h1 (hs ▸ h2)
      exact ⟨a, y, (hr a y).trans h3, fun a' y' h5 => h4 a' y' (hr a' y' ▸ h5)⟩
    rootless := fun a y => hr a y ▸ hi.rootless a y }

/-- The arena of a trie just created. -/
theorem ArenaInv.newTrie {cfg : Config} (h : 1 ≤ cfg.nodeMax) (m : Memory) : ArenaInv cfg m.newTrie := by
  have hr : ∀ a y v, m.newTrie.nodeRead a y = some v → v = absent := fun a y v h => by
    rw [Memory.newTrie_nodeRead] at h
    split at h
    · exact (Option.some.inj h).symm
    · exact absurd h (by simp)
  exact {
    root := Nat.le_refl 1
    bounded := h
    valid := fun a y v h1 h2 => absurd (hr a y v h1) h2
    greater := fun a y v h1 h2 => absurd (hr a y v h1) h2
    parent := fun c h1 h2 => by rw [Memory.newTrie_size] at h2; omega
    rootless := fun a y h1 => absurd (hr a y 0 h1) (by decide) }

/-- The address of the node just created is none of the addresses in use, and not `ABSENT`. -/
theorem Memory.newAddr_ne {m : Memory} (h : m.size < 65535) {c : SlotWord} (hc : c = absent ∨ c.toNat < m.size) :
    c ≠ m.newAddr := by
  rw [Ne, ← BitVec.toNat_inj, newAddr_toNat (by omega)]
  rcases hc with rfl | hc
  · simp [absent]
    omega
  · omega

/-- The allocation path of `Navigate` keeps the arena a tree. -/
theorem ArenaInv.grown {cfg : Config} {m : Memory} (hl : cfg.nodeMax ≤ 65535) (hi : ArenaInv cfg m) {a : NodeAddr}
    {y : Symbol} (hr : m.nodeRead a y = some absent) (hs : m.size ≠ cfg.nodeMax) : ArenaInv cfg (m.grown a y) := by
  have hb := hi.bounded
  have hroot := hi.root
  have ha := Memory.lt_size_of_nodeRead hr
  have hn := Memory.newAddr_toNat (m := m) (by omega)
  have hg := Memory.nodeRead_grown ha (by omega) y
  have hna : m.newAddr ≠ absent := (Memory.newAddr_ne (by omega) (.inl rfl)).symm
  have old : ∀ b z v, m.nodeRead b z = some v → v ≠ m.newAddr := fun b z v h => Memory.newAddr_ne (by omega)
    (by by_cases hv : v = absent
        · exact .inl hv
        · exact .inr (hi.valid b z v h hv))
  have slots : ∀ b z v, (m.grown a y).nodeRead b z = some v → v ≠ absent →
      (b = a ∧ z = y ∧ v = m.newAddr) ∨ (m.nodeRead b z = some v) := fun b z v h hv => by
    rw [hg] at h
    split at h
    · exact absurd (Option.some.inj h).symm hv
    · split at h
      · rename_i h'
        exact .inl ⟨h'.1, h'.2, (Option.some.inj h).symm⟩
      · exact .inr h
  have keeps : ∀ b z v, m.nodeRead b z = some v → v ≠ absent → (m.grown a y).nodeRead b z = some v := fun b z v h hv => by
    rw [hg, if_neg (fun h' => ?_), if_neg (fun h' => ?_)]
    · exact h
    · rw [h'.1, h'.2, hr] at h
      exact hv (Option.some.inj h).symm
    · have := Memory.lt_size_of_nodeRead h
      rw [h', hn] at this
      omega
  have taken : (m.grown a y).nodeRead a y = some m.newAddr := by
    rw [hg, if_neg, if_pos ⟨rfl, rfl⟩]
    rw [← BitVec.toNat_inj, hn]
    omega
  exact {
    root := by rw [Memory.grown_size]; omega
    bounded := by rw [Memory.grown_size]; omega
    valid := fun b z v h hv => by
      rw [Memory.grown_size]
      rcases slots b z v h hv with ⟨-, -, rfl⟩ | h'
      · omega
      · exact Nat.lt_succ_of_lt (hi.valid b z v h' hv)
    greater := fun b z v h hv => by
      rcases slots b z v h hv with ⟨rfl, -, rfl⟩ | h'
      · omega
      · exact hi.greater b z v h' hv
    parent := fun c h1 h2 => by
      rw [Memory.grown_size] at h2
      by_cases hc : c = m.newAddr
      · subst hc
        refine ⟨a, y, taken, fun b z h => ?_⟩
        rcases slots b z _ h hna with ⟨h', h'', -⟩ | h'
        · exact ⟨h', h''⟩
        · exact absurd rfl (old b z _ h')
      · have hc' : c.toNat ≠ m.size := fun h => hc (BitVec.eq_of_toNat_eq (h.trans hn.symm))
        have hca : c ≠ absent := fun h => by
          rw [h] at h2 hc'
          simp [absent] at h2 hc'
          omega
        obtain ⟨b, z, h3, h4⟩ := hi.parent c h1 (by omega)
        refine ⟨b, z, keeps b z c h3 hca, fun b' z' h => ?_⟩
        rcases slots b' z' c h hca with ⟨-, -, h'⟩ | h'
        · exact absurd h' hc
        · exact h4 b' z' h'
    rootless := fun b z h => by
      rcases slots b z 0 h (by decide) with ⟨-, -, h'⟩ | h'
      · rw [← h'] at hn
        simp at hn
        omega
      · exact hi.rootless b z h' }

/-- The allocation path of `Navigate` loses nothing. -/
theorem Memory.grows_grown {m : Memory} (hs : m.size ≤ 65535) {a : NodeAddr} {y : Symbol}
    (hr : m.nodeRead a y = some absent) : m.Grows (m.grown a y) where
  size := by simp
  child := fun b z v h hv => by
    rw [nodeRead_grown (lt_size_of_nodeRead hr) hs, if_neg (fun h' => ?_), if_neg (fun h' => ?_)]
    · exact h
    · rw [h'.1, h'.2, hr] at h
      exact hv (Option.some.inj h).symm
    · have := lt_size_of_nodeRead h
      rw [h', newAddr_toNat hs] at this
      omega

/-- `Navigate` keeps the arena a tree, loses nothing, and gives an address inside the arena that the slot then holds. -/
theorem navigate_arena {cfg : Config} {m m' : Memory} (hl : cfg.nodeMax ≤ 65535) (hi : ArenaInv cfg m)
    {a c : NodeAddr} {y : Symbol} (h : navigate cfg m a y = .addr c m') :
    ArenaInv cfg m' ∧ m.Grows m' ∧ c.toNat < m'.size ∧ m'.nodeRead a y = some c ∧ c ≠ absent := by
  have hb := hi.bounded
  obtain ⟨-, ha, ⟨rfl, hr, hc⟩ | ⟨rfl, rfl, hr, hs⟩⟩ := navigate_addr h
  · exact ⟨hi, .refl _, hi.valid a y c hr hc, hr, hc⟩
  · refine ⟨hi.grown hl hr hs, Memory.grows_grown (by omega) hr, ?_, ?_, ?_⟩
    · rw [Memory.grown_size, Memory.newAddr_toNat (by omega)]
      omega
    · rw [Memory.nodeRead_grown ha (by omega), if_neg, if_pos ⟨rfl, rfl⟩]
      rw [← BitVec.toNat_inj, Memory.newAddr_toNat (by omega)]
      omega
    · exact (Memory.newAddr_ne (by omega) (.inl rfl)).symm

/-- The loop of TR.ADDS keeps the arena a tree, loses nothing, and stays inside the arena. -/
theorem addsLoop_arena {cfg : Config} (hl : cfg.nodeMax ≤ 65535) {m : Memory} (hi : ArenaInv cfg m) (fuel : Nat)
    (fs : Splitter) :
    (∀ m', addsLoop cfg fuel fs 0 m = .done m' → ArenaInv cfg m' ∧ m.Grows m') ∧
      (∀ m', addsLoop cfg fuel fs 0 m = .full m' → ArenaInv cfg m' ∧ m.Grows m') ∧
      addsLoop cfg fuel fs 0 m ≠ .noNode := by
  let P : NodeAddr → Memory → Prop := fun c m' => ArenaInv cfg m' ∧ m.Grows m' ∧ c.toNat < m'.size
  have pull : ∀ cur m' b rest, P cur m' → m'.sq = b :: rest → P cur { m' with sq := rest } :=
    fun _ _ _ _ h _ => ⟨h.1.congr rfl, h.2.1.trans (.of_nodes rfl), h.2.2⟩
  have nav : ∀ cur m' y c m'', P cur m' → navigate cfg m' cur y = .addr c m'' → P c m'' := fun _ _ _ _ _ h hn => by
    obtain ⟨h1, h2, h3, -, -⟩ := navigate_arena hl h.1 hn
    exact ⟨h1, h.2.1.trans h2, h3⟩
  have start : P 0 m := ⟨hi, .refl m, hi.root⟩
  have keeps := addsLoop_keeps P pull nav fuel fs 0 m start
  refine ⟨fun m' h => ?_, fun m' h => ?_, addsLoop_noNode P pull nav (fun _ _ h => h.2.2) fuel fs 0 m start⟩
  · obtain ⟨c, h1, h2, -⟩ := keeps.1 m' h
    exact ⟨h1, h2⟩
  · obtain ⟨c, h1, h2, -⟩ := keeps.2 m' h
    exact ⟨h1, h2⟩

/-- What a command does to the arena: nothing, a new trie, or growth that keeps it a tree. -/
theorem exec_arena {i : Instr} {s t : State} (hl : s.cfg.nodeMax ≤ 65535) (hi : ArenaInv s.cfg s.mem)
    (h : exec i s = .next t) :
    t.mem.nodes = s.mem.nodes ∨ (i = .trNew ∧ t.mem = s.mem.newTrie) ∨
      (writesArena i = true ∧ i ≠ .trNew ∧ ArenaInv s.cfg t.mem ∧ s.mem.Grows t.mem) := by
  rcases exec_cases h with ⟨-, rfl⟩ | ⟨-, ⟨c, rfl⟩ | ⟨rfl, rfl⟩ | ⟨a, y, c, m, rfl, h1, rfl⟩ | ⟨a, n, rfl, h1, rfl⟩ |
    ⟨m, rfl, h1, rfl⟩ | ⟨m, rfl, h1, rfl⟩ | ⟨e, a, rfl, h1, h2, rfl⟩ | ⟨e, n, y, rfl, h1, h2, h3, h4, rfl⟩ |
    ⟨e, n, rfl, h1, h2, h3, h4, rfl⟩ | ⟨e, rfl, h1, rfl⟩ | ⟨w, rfl, rfl⟩ | ⟨rfl, h1, rfl⟩ | ⟨b, rfl, h1, rfl⟩ |
    ⟨rfl, rfl⟩ | ⟨p, rfl, h1, rfl⟩ | ⟨p, y, rfl, h1, rfl⟩ | ⟨d, q, rfl, h1, h2, rfl⟩ | ⟨n, x, r, rfl, h1, rfl⟩⟩
  case inr.inr.inl => exact .inr (.inl ⟨rfl, rfl⟩)
  case inr.inr.inr.inl =>
    obtain ⟨h2, h3, -⟩ := navigate_arena hl hi h1
    exact .inr (.inr ⟨rfl, by simp, h2, h3⟩)
  case inr.inr.inr.inr.inr.inl =>
    exact .inr (.inr ⟨rfl, by simp, (addsLoop_arena hl hi _ _).1 m h1⟩)
  case inr.inr.inr.inr.inr.inr.inl =>
    exact .inr (.inr ⟨rfl, by simp, (addsLoop_arena hl hi _ _).2.1 m h1⟩)
  case inr.inr.inr.inr.inr.inr.inr.inr.inr.inr.inr.inr.inl =>
    exact .inl (by rw [splitRespond_mem]; exact (splitStep_frame _ _).2.2.1)
  all_goals exact .inl (by first | rfl | rw [packRespond_mem]; rfl)

end Sys2Proof.Machine
end

