-- ==== Sys2Proof/Laws/Path.lean ====
section
/-! SUPPORT. The loop of TR.ADDS as one navigate step per symbol of the stream (spec/42_trie.md rule R162,
60_exceptions.md rule R205): the symbols of a stream of `n` bits with value `v`, the path they insert, and what the loop leaves. -/

namespace Sys2Proof.Machine

/-! ### The 3-bit symbols of a stream -/

/-- The 3-bit symbols of a stream of `n` bits with value `v`, in order (40_splitter.md rule R126). -/
def streamSymbols (n v : Nat) : List Symbol :=
  (List.range ((n + 2) / 3)).map (fun k => BitVec.ofNat 3 (v / 2 ^ (k * 3) % 8))

@[simp] theorem streamSymbols_zero (v : Nat) : streamSymbols 0 v = [] := rfl

theorem streamSymbols_succ {n v : Nat} (h : 0 < n) :
    streamSymbols n v = BitVec.ofNat 3 (v % 8) :: streamSymbols (n - 3) (v / 8) := by
  unfold streamSymbols
  rw [show (n + 2) / 3 = (n - 3 + 2) / 3 + 1 by omega, List.range_succ_eq_map, List.map_cons, List.map_map]
  refine List.cons_eq_cons.2 ⟨by simp, ?_⟩
  apply List.map_congr_left
  intro k _
  simp only [Function.comp]
  rw [Nat.succ_eq_add_one, Nat.add_mul, Nat.add_comm, Nat.pow_add, ← Nat.div_div_eq_div_mul]

@[simp] theorem streamSymbols_length (n v : Nat) : (streamSymbols n v).length = (n + 2) / 3 := by
  simp [streamSymbols]

theorem octalSymbols_eq (bs : List Byte) : octalSymbols bs = streamSymbols (8 * bs.length) (streamNumber bs) := rfl

/-! ### The path a symbol sequence inserts -/

/-- A navigate step does not look at the queue. -/
theorem navigate_withQueue (cfg : Config) (m : Memory) (q : List Byte) (a : NodeAddr) (y : Symbol) :
    navigate cfg { m with sq := q } a y =
      match navigate cfg m a y with
      | .addr c m' => .addr c { m' with sq := q }
      | .full => .full
      | .noNode => .noNode := by
  unfold navigate
  show (match m.nodeRead a y with | none => _ | some v => _) = _
  cases m.nodeRead a y with
  | none => rfl
  | some v =>
    simp only []
    split
    · rfl
    · show (if m.size = _ then _ else _) = _
      split <;> rfl

theorem insertPath_withQueue (cfg : Config) (q : List Byte) :
    ∀ (p : List Symbol) (a : NodeAddr) (m : Memory),
      insertPath cfg p a { m with sq := q } = ((insertPath cfg p a m).1, { (insertPath cfg p a m).2 with sq := q })
  | [], _, _ => rfl
  | y :: ys, a, m => by
    simp only [insertPath, navigate_withQueue]
    cases navigate cfg m a y with
    | addr c m' => exact insertPath_withQueue cfg q ys c m'
    | full => rfl
    | noNode => rfl

theorem insertPath_length (cfg : Config) :
    ∀ (p : List Symbol) (a : NodeAddr) (m : Memory), (insertPath cfg p a m).1.length ≤ p.length
  | [], _, _ => by simp [insertPath]
  | y :: ys, a, m => by
    simp only [insertPath]
    cases navigate cfg m a y with
    | addr c m' =>
      have := insertPath_length cfg ys c m'
      simp
      omega
    | full => simp
    | noNode => simp

theorem insertPath_sq (cfg : Config) :
    ∀ (p : List Symbol) (a : NodeAddr) (m : Memory), (insertPath cfg p a m).2.sq = m.sq
  | [], _, _ => rfl
  | y :: ys, a, m => by
    simp only [insertPath]
    cases h : navigate cfg m a y with
    | addr c m' =>
      simp only []
      rw [insertPath_sq cfg ys c m']
      exact (navigate_addr h).1
    | full => rfl
    | noNode => rfl

/-- The symbols that were followed, and what they alone insert. -/
theorem insertPath_split (cfg : Config) :
    ∀ (p : List Symbol) (a : NodeAddr) (m : Memory),
      ∃ pre, p = pre ++ (insertPath cfg p a m).1 ∧ insertPath cfg pre a m = ([], (insertPath cfg p a m).2)
  | [], _, _ => ⟨[], rfl, rfl⟩
  | y :: ys, a, m => by
    simp only [insertPath]
    cases h : navigate cfg m a y with
    | addr c m' =>
      obtain ⟨pre, h1, h2⟩ := insertPath_split cfg ys c m'
      refine ⟨y :: pre, ?_, by simp only [insertPath, h]; exact h2⟩
      simp only [List.cons_append]
      rw [← h1]
    | full => exact ⟨[], rfl, rfl⟩
    | noNode => exact ⟨[], rfl, rfl⟩

/-! ### The loop -/

/-- The queue holds the whole bytes of what is left of the stream. -/
theorem sq_length_eq {fs : Splitter} (hi : fs.Inv) (m : Memory) : m.sq.length = streamBits fs m / 8 := by
  have := hi.bits_le
  unfold streamBits
  omega

/-- What the loop of TR.ADDS leaves: the path inserted, and the queue empty or short of the bytes pulled so far. -/
theorem addsLoop_insertPath (cfg : Config) : ∀ (k : Nat) (fs : Splitter) (cur : NodeAddr) (m : Memory), fs.Inv →
    fs.w = .w3 → (fs.exh = true → streamBits fs m = 0) → streamBits fs m ≤ 3 * k →
    ∀ r, r = insertPath cfg (streamSymbols (streamBits fs m) (streamValue fs m)) cur m →
    (r.1 = [] → addsLoop cfg (k + 1) fs cur m = .done { nodes := r.2.nodes, sq := [] }) ∧
    (r.1 ≠ [] → addsLoop cfg (k + 1) fs cur m = .noNode ∨
      addsLoop cfg (k + 1) fs cur m = .full {
        nodes := r.2.nodes
        sq := m.sq.drop (m.sq.length -
          (streamBits fs m -
            3 * ((streamSymbols (streamBits fs m) (streamValue fs m)).length - r.1.length + 1)) / 8) }) := by
  intro k
  induction k with
  | zero =>
    intro fs cur m hi hw he hb r hr
    have h0 : streamBits fs m = 0 := by omega
    subst hr
    rw [h0, streamSymbols_zero]
    refine ⟨fun _ => ?_, fun h => absurd rfl h⟩
    have := splitStep_at_end h0
    have hm : (splitStep fs m).mem.sq = [] := List.eq_nil_of_length_eq_zero (by
      have := this.2.1
      unfold streamBits at this
      omega)
    simp only [addsLoop, this.1, insertPath]
    rw [← (splitStep_frame fs m).2.2.1, ← hm]
  | succ k ih =>
    intro fs cur m hi hw he hb r hr
    by_cases h0 : streamBits fs m = 0
    · subst hr
      rw [h0, streamSymbols_zero]
      refine ⟨fun _ => ?_, fun h => absurd rfl h⟩
      have := splitStep_at_end h0
      have hm : (splitStep fs m).mem.sq = [] := List.eq_nil_of_length_eq_zero (by
        have := this.2.1
        unfold streamBits at this
        omega)
      simp only [addsLoop, this.1, insertPath]
      rw [← (splitStep_frame fs m).2.2.1, ← hm]
    · have hex : fs.exh = false := by
        cases h : fs.exh
        · rfl
        · exact absurd (he h) h0
      obtain ⟨y, hr1, hv, hval, hbits, hexh⟩ := splitStep_value hi hex (m := m) (by omega)
      rw [hw] at hv hval hbits hexh
      simp only [symbolWidth] at hv hval hbits hexh
      have hy : y.setWidth 3 = BitVec.ofNat 3 (streamValue fs m % 8) := by
        apply BitVec.eq_of_toNat_eq; simp [hv]
      have hfr := splitStep_frame fs m
      have hnodes := hfr.2.2.1
      have hi' := splitStep_inv hi m
      have hm : (splitStep fs m).mem = { m with sq := (splitStep fs m).mem.sq } := by
        rw [← hnodes]
      have hlen' := sq_length_eq hi' (splitStep fs m).mem
      have hlen := sq_length_eq hi m
      rw [hbits] at hlen'
      have hdrop : (splitStep fs m).mem.sq = m.sq.drop (m.sq.length - (splitStep fs m).mem.sq.length) := by
        rcases hfr.2.2.2 with h | ⟨b, rest, hq, h⟩
        · rw [h]; simp
        · simp [h, hq]
      rw [streamSymbols_succ (by omega)] at hr ⊢
      have hloop : addsLoop cfg (k + 1 + 1) fs cur m =
          (match navigate cfg (splitStep fs m).mem cur (BitVec.ofNat 3 (streamValue fs m % 8)) with
            | .noNode => .noNode
            | .full => .full (splitStep fs m).mem
            | .addr c m' => addsLoop cfg (k + 1) (splitStep fs m).fs c m') := by
        rw [addsLoop]
        cases hnav : navigate cfg (splitStep fs m).mem cur (BitVec.ofNat 3 (streamValue fs m % 8)) <;>
          simp only [hr1, hy, hnav]
      rw [hloop, hm, navigate_withQueue]
      rw [insertPath] at hr
      cases hn : navigate cfg m cur (BitVec.ofNat 3 (streamValue fs m % 8)) with
      | noNode => subst hr; simp [hn]
      | full =>
        subst hr
        simp only [hn]
        refine ⟨fun h => by simp at h, fun _ => .inr ?_⟩
        congr 2
        rw [hdrop]
        congr 2
        rw [hlen']
        simp
      | addr c m' =>
        simp only [hn] at hr ⊢
        have hsb : streamBits (splitStep fs m).fs { m' with sq := (splitStep fs m).mem.sq } =
            streamBits fs m - 3 := hbits
        have hsv : streamValue (splitStep fs m).fs { m' with sq := (splitStep fs m).mem.sq } =
            streamValue fs m / 8 := hval
        have hstop : (splitStep fs m).fs.exh = true →
            streamBits (splitStep fs m).fs { m' with sq := (splitStep fs m).mem.sq } = 0 := fun h => by
          rw [hsb]
          by_contra hc
          rw [hexh (by omega)] at h
          cases h
        have := ih (splitStep fs m).fs c { m' with sq := (splitStep fs m).mem.sq } hi' (hfr.1.trans hw) hstop
          (by rw [hsb]; omega) _ rfl
        rw [hsb, hsv, insertPath_withQueue, ← hr] at this
        refine ⟨fun h => ?_, fun h => ?_⟩
        · exact this.1 h
        · rcases this.2 h with h' | h'
          · exact .inl h'
          · right
            rw [h']
            congr 2
            simp only []
            have hle : r.1.length ≤ (streamSymbols (streamBits fs m - 3) (streamValue fs m / 8)).length :=
              hr ▸ insertPath_length cfg _ _ _
            simp only [List.length_cons]
            generalize (streamSymbols (streamBits fs m - 3) (streamValue fs m / 8)).length = L at *
            rw [hdrop, List.drop_drop]
            congr 1
            have e1 : (splitStep fs m).mem.sq.length ≤ m.sq.length := by omega
            rw [List.length_drop]
            omega

end Sys2Proof.Machine
end

