-- ==== Sys2Proof/Laws/PerInstr.lean ====
section
/-! SUPPORT. Per instruction: the word the encoder makes of it is accepted by the row of the command table that bears
its name (spec/30_encoding.md rules R92, R96). -/

namespace Sys2Proof.Laws

/-- The row of the command table an instruction belongs to. -/
def RowMatch.cmdOf : Instr → Cmd
  | .trNew => .trNew
  | .trNav _ _ => .trNav
  | .trCnt _ => .trCnt
  | .trAdds => .trAdds
  | .enOpen _ _ => .enOpen
  | .enNext _ => .enNext
  | .enClose _ => .enClose
  | .fsBind _ => .fsBind
  | .fsNext => .fsNext
  | .sqPut _ => .sqPut
  | .sqClr => .sqClr
  | .pkClr _ => .pkClr
  | .pkPush _ _ => .pkPush
  | .pkCopy _ _ => .pkCopy
  | .csrRd _ _ => .csrRd

/-- The encoded instruction is accepted by its own row. -/
def RowMatch.Statement (i : Instr) : Prop :=
  ∃ r ∈ commandTable, r.cmd = RowMatch.cmdOf i ∧ r.accepts (encode i) = true

/-- A row of the table accepts a word built from its op byte and fields it does not mask. -/
theorem RowMatch.of_fields {r : Row} (hr : r ∈ commandTable) {i : Instr} (hc : r.cmd = RowMatch.cmdOf i)
    {ctx : CtxIdx} {sym : Symbol} {imm : BitVec 16} (he : encode i = fieldsWord (opField r.pattern) ctx sym imm)
    (h1 : ctx &&& ctxField r.mask = 0) (h2 : sym &&& symField r.mask = 0) (h3 : imm &&& immField r.mask = 0) :
    RowMatch.Statement i := by
  obtain ⟨hm, hp, -⟩ := commandTable_masks r hr
  exact ⟨r, hr, hc, by rw [he]; exact (Row.accepts_fieldsWord _ _ _ _ r hp hm).2 ⟨rfl, h1, h2, h3⟩⟩

theorem RowMatch.trNew : RowMatch.Statement .trNew :=
  RowMatch.of_fields (r := ⟨.trNew, 0xFFFFFFFF, 0x01000000⟩) (by decide) rfl (he := rfl) (by decide) (by decide)
    (by decide)

theorem RowMatch.trNav (a : NodeAddr) (s : Symbol) : RowMatch.Statement (.trNav a s) :=
  RowMatch.of_fields (r := ⟨.trNav, 0xFFF80000, 0x02000000⟩) (by decide) rfl (he := rfl) (by decide)
    (BitVec.and_zero) (BitVec.and_zero)

theorem RowMatch.trCnt (a : NodeAddr) : RowMatch.Statement (.trCnt a) :=
  RowMatch.of_fields (r := ⟨.trCnt, 0xFFFF0000, 0x03000000⟩) (by decide) rfl (he := rfl) (by decide) (by decide)
    (BitVec.and_zero)

theorem RowMatch.trAdds : RowMatch.Statement .trAdds :=
  RowMatch.of_fields (r := ⟨.trAdds, 0xFFFFFFFF, 0x04000000⟩) (by decide) rfl (he := rfl) (by decide) (by decide)
    (by decide)

theorem RowMatch.enOpen (e : CtxIdx) (a : NodeAddr) : RowMatch.Statement (.enOpen e a) :=
  RowMatch.of_fields (r := ⟨.enOpen, 0xFF0F0000, 0x10000000⟩) (by decide) rfl (he := rfl) (BitVec.and_zero)
    (by decide) (BitVec.and_zero)

theorem RowMatch.enNext (e : CtxIdx) : RowMatch.Statement (.enNext e) :=
  RowMatch.of_fields (r := ⟨.enNext, 0xFF0FFFFF, 0x11000000⟩) (by decide) rfl (he := rfl) (BitVec.and_zero)
    (by decide) (by decide)

theorem RowMatch.enClose (e : CtxIdx) : RowMatch.Statement (.enClose e) :=
  RowMatch.of_fields (r := ⟨.enClose, 0xFF0FFFFF, 0x12000000⟩) (by decide) rfl (he := rfl) (BitVec.and_zero)
    (by decide) (by decide)

theorem RowMatch.fsBind (w : Width) : RowMatch.Statement (.fsBind w) :=
  RowMatch.of_fields (r := ⟨.fsBind, 0xFFFFFFFE, 0x20000000⟩) (by decide) rfl (he := rfl) (by decide) (by decide)
    (by cases w <;> decide)

theorem RowMatch.fsNext : RowMatch.Statement .fsNext :=
  RowMatch.of_fields (r := ⟨.fsNext, 0xFFFFFFFF, 0x21000000⟩) (by decide) rfl (he := rfl) (by decide) (by decide)
    (by decide)

theorem RowMatch.sqPut (b : Byte) : RowMatch.Statement (.sqPut b) :=
  RowMatch.of_fields (r := ⟨.sqPut, 0xFFFFFF00, 0x28000000⟩) (by decide) rfl (he := rfl) (by decide) (by decide)
    (by revert b; decide)

theorem RowMatch.sqClr : RowMatch.Statement .sqClr :=
  RowMatch.of_fields (r := ⟨.sqClr, 0xFFFFFFFF, 0x29000000⟩) (by decide) rfl (he := rfl) (by decide) (by decide)
    (by decide)

theorem RowMatch.pkClr (p : CtxIdx) : RowMatch.Statement (.pkClr p) :=
  RowMatch.of_fields (r := ⟨.pkClr, 0xFF0FFFFF, 0x30000000⟩) (by decide) rfl (he := rfl) (BitVec.and_zero)
    (by decide) (by decide)

theorem RowMatch.pkPush (p : CtxIdx) (s : Symbol) : RowMatch.Statement (.pkPush p s) :=
  RowMatch.of_fields (r := ⟨.pkPush, 0xFF08FFFF, 0x31000000⟩) (by decide) rfl (he := rfl) (BitVec.and_zero)
    (BitVec.and_zero) (by decide)

theorem RowMatch.pkCopy (d q : CtxIdx) : RowMatch.Statement (.pkCopy d q) :=
  RowMatch.of_fields (r := ⟨.pkCopy, 0xFF0FFFF0, 0x32000000⟩) (by decide) rfl (he := rfl) (BitVec.and_zero)
    (by decide) (by revert q; decide)

theorem RowMatch.csrRd (c : CsrNum) (x : CtxIdx) : RowMatch.Statement (.csrRd c x) :=
  RowMatch.of_fields (r := ⟨.csrRd, 0xFF0FFF00, 0x40000000⟩) (by decide) rfl (he := rfl) (BitVec.and_zero)
    (by decide) (by revert c; decide)

end Sys2Proof.Laws
end

