-- ==== Sys2Proof/Laws/Runs.lean ====
section
/-! SUPPORT. Sequences of commands, and that no command looks at what the host will do next. -/

namespace Sys2Proof.Machine

/-- An outcome with other host actions to come. -/
def withHost (h : List HostAction) : Result → Result
  | .next t => .next { t with host := h }
  | .fault f => .fault f
  | .refused r => .refused r

theorem command_withHost {α : Type} (s : State) (h : List HostAction) (c : Except FaultCode α) (b b' : α → Result)
    (hb : ∀ a, b' a = withHost h (b a)) :
    ({ s with host := h } : State).command c b' = withHost h (s.command c b) := by
  simp only [State.command]
  split
  · rfl
  · cases c with
    | error e => rfl
    | ok a => exact hb a

/-- A command does not depend on what the host will do after it. -/
theorem exec_withHost (i : Instr) (s : State) (h : List HostAction) :
    exec i { s with host := h } = withHost h (exec i s) := by
  cases i <;>
    simp only [exec, execTrNew, execTrNav, execTrCnt, execTrAdds, execEnOpen, execEnNext, execEnClose, execFsBind,
      execFsNext, execSqPut, execSqClr, execPkClr, execPkPush, execPkCopy, execCsrRd] <;>
    refine command_withHost _ _ _ _ _ (fun a => ?_)
  case trNav => split <;> simp_all [withHost] <;> rfl
  case trCnt => split <;> simp_all [withHost] <;> rfl
  case trAdds => split <;> simp_all [withHost] <;> rfl
  case enOpen => split <;> simp_all [withHost] <;> rfl
  case enNext e =>
    simp only [State.withHost_en]
    rcases Bool.eq_false_or_eq_true (s.en e).isOpen with ho | ho
    · cases hn : s.mem.nodes[(s.en e).node.toNat]? with
      | none => simp only [ho, if_true]; rfl
      | some n =>
        simp only [ho, if_true]
        cases nextChild n (s.en e).pos <;> rfl
    · simp only [ho, Bool.false_eq_true, if_false]; rfl
  case sqPut => split <;> simp_all [withHost] <;> rfl
  case fsNext =>
    split
    · simp only [withHost]
      generalize (splitStep s.fs s.mem).result = r
      cases r <;> rfl
    · rfl
  case pkPush p y =>
    show Host.Outcome.next (packRespond (packStep (s.pk p) y).1 _) = _
    cases (packStep (s.pk p) y).1 <;> rfl
  all_goals rfl

/-- One more step of the machine behind the host's interface. -/
theorem core_run_succ (k : Nat) (s : State) :
    Host.Core.run Sys2Proof.core (k + 1) s =
      match step s with
      | .next t => Host.Core.run Sys2Proof.core k t
      | .fault f => .fault f
      | .refused r => .refused r := by
  have h := Host.Core.run.eq_2 Sys2Proof.core s k
  cases hs : step s <;> rw [show Sys2Proof.core.step s = step s from rfl, hs] at h <;> exact h

@[simp] theorem runAll_nil (s : State) : runAll [] s = .next s := rfl

theorem runAll_cons {i : Instr} {s t : State} (h : exec i s = .next t) (is : List Instr) :
    runAll (i :: is) s = runAll is t := by simp [runAll, h]

theorem runAll_append {is : List Instr} {s t : State} (h : runAll is s = .next t) (js : List Instr) :
    runAll (is ++ js) s = runAll js t := by
  induction is generalizing s with
  | nil =>
    cases h
    rfl
  | cons i is ih =>
    rw [List.cons_append, runAll]
    rw [runAll] at h
    cases hi : exec i s with
    | next u => simp only [hi] at h ⊢; exact ih h
    | fault f => simp [hi] at h
    | refused r => simp [hi] at h

theorem responses_cons {i : Instr} {s t : State} (h : exec i s = .next t) (is : List Instr) :
    responses (i :: is) s = t.resp :: responses is t := by simp [responses, h]

theorem responsesOf_cons {i j : Instr} {s t : State} (h : exec i s = .next t) (is : List Instr) :
    responsesOf j (i :: is) s = if i = j then t.resp :: responsesOf j is t else responsesOf j is t := by
  simp [responsesOf, h]

/-- What a run of FS.NEXT from a bound splitter answers and leaves, when the stream has `n` bits and the value `v`: digit
`j` of the stream at each of the first `ceil(n / w)` commands, then END (40_splitter.md rule R126). -/
theorem runAll_fsNext : ∀ (k : Nat) (s : State) (w n v : Nat), s.fault.valid = false → s.fs.bound = true → s.fs.Inv →
    (s.fs.exh = true → streamBits s.fs s.mem = 0) → symbolWidth s.fs.w = w → streamBits s.fs s.mem = n →
    streamValue s.fs s.mem = v →
    ∃ t, runAll (List.replicate k .fsNext) s = .next t ∧ t.fault.valid = false ∧ t.fs.bound = true ∧
      streamBits t.fs t.mem = n - k * w ∧
      (∀ j, j < k → (responses (List.replicate k .fsNext) s)[j]? =
        some (if j * w < n then 0x1000#16 ++ BitVec.ofNat 16 (v / 2 ^ (j * w) % 2 ^ w) else 0x20000000)) ∧
      (responses (List.replicate k .fsNext) s).length = k := by
  intro k
  induction k with
  | zero =>
    intro s w n v hf hb _ _ _ hn _
    exact ⟨s, rfl, hf, hb, by simp [hn], by simp, rfl⟩
  | succ k ih =>
    intro s w n v hf hb hi he hw hn hv
    have hx := execFsNext_eq hf hb
    obtain ⟨f1, f2, -, -⟩ := splitStep_frame s.fs s.mem
    have hi' := splitStep_inv hi s.mem
    have hw' : symbolWidth (splitStep s.fs s.mem).fs.w = w := by rw [f1, hw]
    have hk : (k + 1) * w = k * w + w := by ring
    by_cases h0 : n = 0
    · obtain ⟨e1, e2, -⟩ := splitStep_at_end (hn.trans h0)
      rw [e1] at hx
      obtain ⟨t, r1, r2, r3, r4, r5, r6⟩ :=
        ih (({ s with fs := (splitStep s.fs s.mem).fs, mem := (splitStep s.fs s.mem).mem } : State).respond .endOfSeq 0 0)
          w 0 _ hf (f2.trans hb) hi' (fun _ => e2) hw' e2 rfl
      refine ⟨t, ?_, r2, r3, by rw [r4, h0]; simp, fun j hj => ?_, ?_⟩
      · rw [List.replicate_succ, runAll_cons hx]
        exact r1
      · rw [List.replicate_succ, responses_cons hx, h0]
        cases j with
        | zero =>
          rw [if_neg (by omega)]
          rfl
        | succ j =>
          rw [List.getElem?_cons_succ]
          refine (r5 j (by omega)).trans ?_
          rw [if_neg (by omega), if_neg (by omega)]
      · rw [List.replicate_succ, responses_cons hx, List.length_cons]
        exact congrArg (· + 1) r6
    · have hex : s.fs.exh = false := by
        cases h : s.fs.exh
        · rfl
        · exact absurd (hn.symm.trans (he h)) h0
      obtain ⟨y, e1, e2, e3, e4, e5⟩ := splitStep_value hi hex (m := s.mem) (by omega)
      rw [hw, hv] at e2 e3
      rw [hw, hn] at e4 e5
      rw [e1] at hx
      have he' : (splitStep s.fs s.mem).fs.exh = true →
          streamBits (splitStep s.fs s.mem).fs (splitStep s.fs s.mem).mem = 0 := fun h => by
        rw [e4]
        by_contra hc
        rw [e5 (by omega)] at h
        cases h
      obtain ⟨t, r1, r2, r3, r4, r5, r6⟩ :=
        ih (({ s with fs := (splitStep s.fs s.mem).fs, mem := (splitStep s.fs s.mem).mem } : State).respond .val 0
          (y.setWidth 16)) w _ _ hf (f2.trans hb) hi' he' hw' e4 e3
      refine ⟨t, ?_, r2, r3, by rw [r4, hk]; omega, fun j hj => ?_, ?_⟩
      · rw [List.replicate_succ, runAll_cons hx]
        exact r1
      · rw [List.replicate_succ, responses_cons hx]
        cases j with
        | zero =>
          simp only [List.getElem?_cons_zero, Nat.zero_mul, Nat.pow_zero, Nat.div_one]
          rw [if_pos (by omega), ← e2]
          show some (respWord .val 0 (y.setWidth 16)) = _
          rw [respWord_val]
          congr 2
          apply BitVec.eq_of_toNat_eq
          simp
        | succ j =>
          rw [List.getElem?_cons_succ]
          refine (r5 j (by omega)).trans ?_
          rw [Nat.div_div_eq_div_mul, ← Nat.pow_add]
          have : (j + 1) * w = w + j * w := by ring
          rw [this]
          congr 1
          by_cases hc : j * w < n - w
          · rw [if_pos hc, if_pos (by omega)]
          · rw [if_neg hc, if_neg (by omega)]
      · rw [List.replicate_succ, responses_cons hx, List.length_cons]
        exact congrArg (· + 1) r6

theorem symbolNumber_append (a : List Symbol) (y : Symbol) :
    symbolNumber (a ++ [y]) = symbolNumber a + y.toNat * 8 ^ a.length := by
  induction a with
  | nil => simp [symbolNumber]
  | cons z zs ih =>
    simp only [List.cons_append, symbolNumber, ih, List.length_cons, Nat.pow_succ]
    ring

theorem symbolNumber_lt (a : List Symbol) : symbolNumber a < 8 ^ a.length := by
  induction a with
  | nil => simp [symbolNumber]
  | cons z zs ih =>
    simp only [symbolNumber, List.length_cons, Nat.pow_succ]
    have := z.isLt
    omega

/-- What a sequence of PK.PUSH into a cleared context leaves and what its last command answers, in terms of the number
`M` of the symbols pushed (41_packer.md rule R148). -/
theorem runAll_pkPush (p : CtxIdx) (a : List Symbol) :
    ∀ s : State, s.fault.valid = false → p.toNat < s.cfg.npk → s.pk p = Packer.cleared →
      ∃ t, runAll (a.map (fun y => .pkPush p y)) s = .next t ∧ t.fault.valid = false ∧ t.cfg = s.cfg ∧
        (t.pk p).Inv ∧ (t.pk p).bits.toNat = 3 * a.length % 8 ∧
        (t.pk p).stored.toNat = symbolNumber a / 256 ^ (3 * a.length / 8) ∧
        (a ≠ [] → t.resp = if 3 * (a.length - 1) / 8 = 3 * a.length / 8 then 0x30000000
          else 0x1000#16 ++ BitVec.ofNat 16 (symbolNumber a / 256 ^ (3 * a.length / 8 - 1) % 256)) := by
  induction a using List.reverseRecOn with
  | nil =>
    intro s hf _ hc
    exact ⟨s, rfl, hf, rfl, by rw [hc]; exact Packer.cleared_inv, by rw [hc]; rfl, by rw [hc]; rfl,
      fun h => absurd rfl h⟩
  | append_singleton a y ih =>
    intro s hf hp hc
    obtain ⟨t, h1, h2, h3, h4, h5, h6, -⟩ := ih s hf hp hc
    have hx := execPkPush_eq h2 (h3 ▸ hp) y
    have hrun : runAll ((a ++ [y]).map (fun y => Instr.pkPush p y)) s =
        .next (packRespond (packStep (t.pk p) y).1 (t.setPk p (packStep (t.pk p) y).2)) := by
      rw [List.map_append, runAll_append h1, List.map_singleton, runAll_cons hx]
      rfl
    have hlen : (a ++ [y]).length = a.length + 1 := by simp
    have hnum : symbolNumber (a ++ [y]) / 256 ^ (3 * a.length / 8) =
        (t.pk p).stored.toNat + y.toNat * 2 ^ (t.pk p).bits.toNat := by
      rw [symbolNumber_append, h5, h6]
      have e : y.toNat * 8 ^ a.length = 256 ^ (3 * a.length / 8) * (y.toNat * 2 ^ (3 * a.length % 8)) := by
        have : 8 ^ a.length = 256 ^ (3 * a.length / 8) * 2 ^ (3 * a.length % 8) := by
          rw [show (8 : Nat) = 2 ^ 3 from rfl, show (256 : Nat) = 2 ^ 8 from rfl, ← Nat.pow_mul, ← Nat.pow_mul,
            ← Nat.pow_add]
          congr 1
          omega
        rw [this]
        ring
      rw [e, Nat.add_mul_div_left _ _ (Nat.pow_pos (by decide))]
    refine ⟨_, hrun, by simpa using h2, by simpa using h3, by simpa using packStep_inv h4 y, ?_⟩
    simp only [packRespond_pk, State.setPk_pk_same, hlen]
    by_cases hb : 8 ≤ (t.pk p).bits.toNat + 3
    · obtain ⟨b, e1, e2, e3, e4⟩ := packStep_some h4 y hb
      have hq : 3 * (a.length + 1) / 8 = 3 * a.length / 8 + 1 := by omega
      refine ⟨by rw [e4]; omega, ?_, fun _ => ?_⟩
      · rw [e3, ← hnum, Nat.div_div_eq_div_mul, hq, Nat.pow_succ]
      · rw [if_neg (by simp; omega), hq, Nat.add_sub_cancel, hnum, ← e2, e1]
        show respWord .val 0 (b.setWidth 16) = _
        rw [respWord_val]
        congr 1
        apply BitVec.eq_of_toNat_eq
        simp
    · obtain ⟨e1, e3, e4⟩ := packStep_none h4 y (by omega)
      have hq : 3 * (a.length + 1) / 8 = 3 * a.length / 8 := by omega
      refine ⟨by rw [e4]; omega, by rw [e3, hq, hnum], fun _ => ?_⟩
      rw [if_pos (by simp; omega), e1]
      rfl

end Sys2Proof.Machine
end

