-- ==== Sys2Proof/Laws/Walk.lean ====
section
/-! SUPPORT. Where a symbol sequence leads in the arena (spec/42_trie.md rules R162 to R164): a walk survives growth, ends
inside the arena, and follows every path that has been inserted. -/

namespace Sys2Proof.Machine

/-- A walk ends at a node of the arena. -/
theorem walk_lt_size {m : Memory} : ∀ {p : List Symbol} {a b : NodeAddr}, walk m a p = some b → b.toNat < m.size
  | [], a, b, h => by
    simp only [walk] at h
    split at h
    · cases h
      assumption
    · cases h
  | y :: ys, a, b, h => by
    simp only [walk] at h
    cases hr : m.nodeRead a y with
    | none => simp [hr] at h
    | some v =>
      simp only [hr] at h
      split at h
      · cases h
      · exact walk_lt_size h

/-- A walk leads to the same node after the arena has grown. -/
theorem walk_grows {m m' : Memory} (g : m.Grows m') :
    ∀ {p : List Symbol} {a b : NodeAddr}, walk m a p = some b → walk m' a p = some b
  | [], a, b, h => by
    simp only [walk] at h ⊢
    split at h
    · have := g.size
      rw [if_pos (by omega)]
      exact h
    · cases h
  | y :: ys, a, b, h => by
    simp only [walk] at h ⊢
    cases hr : m.nodeRead a y with
    | none => simp [hr] at h
    | some v =>
      simp only [hr] at h
      split at h
      · cases h
      · rename_i hv
        rw [g.child a y v hr hv]
        simp only [if_neg hv]
        exact walk_grows g h

/-- A walk that follows a path follows every part of it from its start. -/
theorem walk_prefix {cfg : Config} {m : Memory} (hi : ArenaInv cfg m) :
    ∀ {p q : List Symbol} {a b : NodeAddr}, a.toNat < m.size → walk m a (p ++ q) = some b → ∃ c, walk m a p = some c
  | [], q, a, b, ha, _ => ⟨a, by simp [walk, ha]⟩
  | y :: ys, q, a, b, ha, h => by
    simp only [List.cons_append, walk] at h ⊢
    cases hr : m.nodeRead a y with
    | none => simp [hr] at h
    | some v =>
      simp only [hr] at h ⊢
      split at h
      · cases h
      · rename_i hv
        rw [if_neg hv]
        exact walk_prefix hi (hi.valid a y v hr hv) h

/-- Inserting a path keeps the arena a tree and only grows it, by at most one node a symbol; a path that has been inserted
whole can be walked; and with room for it, it is. -/
theorem insertPath_arena {cfg : Config} (hl : cfg.nodeMax ≤ 65535) :
    ∀ (p : List Symbol) (a : NodeAddr) (m : Memory), ArenaInv cfg m → a.toNat < m.size →
      ArenaInv cfg (insertPath cfg p a m).2 ∧ m.Grows (insertPath cfg p a m).2 ∧
        (insertPath cfg p a m).2.size ≤ m.size + p.length ∧
        ((insertPath cfg p a m).1 = [] → ∃ b, walk (insertPath cfg p a m).2 a p = some b) ∧
        (m.size + p.length ≤ cfg.nodeMax → (insertPath cfg p a m).1 = [])
  | [], a, m, hi, ha => ⟨hi, .refl _, Nat.le_refl _, fun _ => ⟨a, by simp [insertPath, walk, ha]⟩, fun _ => rfl⟩
  | y :: ys, a, m, hi, ha => by
    rw [insertPath]
    cases hn : navigate cfg m a y with
    | addr c m' =>
      obtain ⟨h1, h2, h3, h4, h5⟩ := navigate_arena hl hi hn
      obtain ⟨i1, i2, i3, i4, i5⟩ := insertPath_arena hl ys c m' h1 h3
      have hm : m'.size ≤ m.size + 1 := by
        obtain ⟨-, -, ⟨rfl, -⟩ | ⟨rfl, rfl, -⟩⟩ := navigate_addr hn
        · omega
        · rw [Memory.grown_size]
      refine ⟨i1, h2.trans i2, by simp; omega, fun h => ?_, fun h => i5 (by simp at h; omega)⟩
      obtain ⟨b, hb⟩ := i4 h
      exact ⟨b, by rw [walk, i2.child a y c h4 h5]; simpa only [if_neg h5] using hb⟩
    | full =>
      refine ⟨hi, .refl _, Nat.le_add_right _ _, fun h => absurd h (List.cons_ne_nil _ _), fun h => ?_⟩
      rcases navigate_cases cfg m a y with ⟨-, h'⟩ | ⟨v, -, -, h'⟩ | ⟨-, hs, -⟩ | ⟨-, -, h'⟩
      · rw [hn] at h'; cases h'
      · rw [hn] at h'; cases h'
      · simp at h; omega
      · rw [hn] at h'; cases h'
    | noNode =>
      rcases navigate_cases cfg m a y with ⟨h, -⟩ | ⟨v, -, -, h'⟩ | ⟨-, -, h'⟩ | ⟨-, -, h'⟩
      · omega
      all_goals rw [hn] at h'; cases h'

/-- Every node that an insertion has passed can be walked to afterwards, the insertion ended by a full arena or not. -/
theorem insertPath_passed {cfg : Config} (hl : cfg.nodeMax ≤ 65535) {m : Memory} (hi : ArenaInv cfg m)
    {a : NodeAddr} (ha : a.toNat < m.size) (p : List Symbol) (k : Nat)
    (hk : k + (insertPath cfg p a m).1.length ≤ p.length) :
    ∃ c, walk (insertPath cfg p a m).2 a (p.take k) = some c := by
  obtain ⟨pre, h1, h2⟩ := insertPath_split cfg p a m
  obtain ⟨i1, i2, -, i4, -⟩ := insertPath_arena hl pre a m hi ha
  rw [h2] at i1 i2 i4
  obtain ⟨b, hb⟩ := i4 rfl
  have hlen := congrArg List.length h1
  rw [List.length_append] at hlen
  have htake : p.take k = pre.take k := by
    conv_lhs => rw [h1]
    exact List.take_append_of_le_length (by omega)
  rw [htake]
  rw [← List.take_append_drop k pre] at hb
  exact walk_prefix i1 (Nat.lt_of_lt_of_le ha i2.size) hb

end Sys2Proof.Machine
end

