-- ==== Sys2Proof/Tests/Slice0.lean ====
section
/-! SUPPORT. The model's own tests. Expected values come from the spec: the command table of 30_encoding.md rule R96, the
illegal words of 95_test_vectors.md I1 and the vectors and programs named beside each test. The witnesses at the end show,
for each statement of Certificates/Slice0/Obligations.lean that has hypotheses, a state and operands that meet them. -/

open Sys2Proof Sys2Proof.Machine

/-! ### Well-formedness refuses an ill-formed term for each check -/

theorem test_wf_unknown_csr : (Instr.csrRd 0x05 0).wellFormed Config.default = false := by decide
theorem test_wf_block_csr_with_context : (Instr.csrRd 0x08 1).wellFormed Config.default = false := by decide
theorem test_wf_packer_csr_context : (Instr.csrRd 0x21 8).wellFormed Config.default = false := by decide
theorem test_wf_enumerator_csr_context : (Instr.csrRd 0x31 15).wellFormed Config.default = false := by decide
theorem test_wf_enumerator_context :
    (Instr.enOpen 8 0).wellFormed Config.default = false ∧ (Instr.enNext 8).wellFormed Config.default = false ∧
      (Instr.enClose 8).wellFormed Config.default = false := by decide
theorem test_wf_packer_context :
    (Instr.pkClr 8).wellFormed Config.default = false ∧ (Instr.pkPush 8 0).wellFormed Config.default = false := by decide
theorem test_wf_copy_contexts :
    (Instr.pkCopy 8 0).wellFormed Config.default = false ∧ (Instr.pkCopy 0 9).wellFormed Config.default = false := by
  decide
theorem test_wf_accepts :
    (Instr.csrRd 0x21 7).wellFormed Config.default = true ∧ (Instr.enOpen 7 0xFFFF).wellFormed Config.default = true := by
  decide

/-! ### Decoding: one word per row, written out from the pattern column of R96 -/

theorem test_decode_trNew : decodeWord 0b00000001000000000000000000000000 = .ok .trNew := by decide
theorem test_decode_trNav : decodeWord 0b00000010000001010000000000000011 = .ok (.trNav 3 5) := by decide
theorem test_decode_trCnt : decodeWord 0b00000011000000001111111111111110 = .ok (.trCnt 0xFFFE) := by decide
theorem test_decode_trAdds : decodeWord 0b00000100000000000000000000000000 = .ok .trAdds := by decide
theorem test_decode_enOpen : decodeWord 0b00010000100100000000000000000101 = .ok (.enOpen 9 5) := by decide
theorem test_decode_enNext : decodeWord 0b00010001000100000000000000000000 = .ok (.enNext 1) := by decide
theorem test_decode_enClose : decodeWord 0b00010010111100000000000000000000 = .ok (.enClose 15) := by decide
theorem test_decode_fsBind :
    decodeWord 0b00100000000000000000000000000000 = .ok (.fsBind .w3) ∧
      decodeWord 0b00100000000000000000000000000001 = .ok (.fsBind .w4) := by decide
theorem test_decode_fsNext : decodeWord 0b00100001000000000000000000000000 = .ok .fsNext := by decide
theorem test_decode_sqPut : decodeWord 0b00101000000000000000000001100001 = .ok (.sqPut 0x61) := by decide
theorem test_decode_sqClr : decodeWord 0b00101001000000000000000000000000 = .ok .sqClr := by decide
theorem test_decode_pkClr : decodeWord 0b00110000011100000000000000000000 = .ok (.pkClr 7) := by decide
theorem test_decode_pkPush : decodeWord 0b00110001000101000000000000000000 = .ok (.pkPush 1 4) := by decide
theorem test_decode_pkCopy : decodeWord 0b00110010000100000000000000000010 = .ok (.pkCopy 1 2) := by decide
theorem test_decode_csrRd : decodeWord 0b01000000001000000000000000100001 = .ok (.csrRd 0x21 2) := by decide

/-- A word that decodes to no instruction. -/
def refusedWord (c : Word) : Bool :=
  match decodeWord c with
  | .ok _ => false
  | .error _ => true

/-- 95_test_vectors.md I1: undefined `op` bytes. -/
theorem test_decode_undefined_ops :
    [0x00000000, 0xFFFFFFFF, 0x05000000, 0x13000000, 0x22000000, 0x2A000000, 0x33000000, 0x41000000, 0x80000000].all
      refusedWord = true := by decide

/-- 95_test_vectors.md I1: reserved bits set, at least one word per row. -/
theorem test_decode_reserved_bits :
    ([0x01000001, 0x01100000, 0x02080000, 0x02100000, 0x03010000, 0x04000001, 0x10010000, 0x11000001, 0x12080000].all
        refusedWord &&
      [0x20000002, 0x20100000, 0x21010000, 0x28000100, 0x29000001, 0x30010000, 0x31000001, 0x31080000].all refusedWord &&
      [0x32000010, 0x32010000, 0x40000100, 0x40010000].all refusedWord) = true := by decide

/-- 20_memory.md R69: a carrier serialises a command word least significant byte first. -/
theorem test_bytes_lsb_first : encodeBytes (.trNav 3 5) = [0x03, 0x00, 0x05, 0x02] := by decide

theorem test_table_word :
    decodeTableWord 32 0x02050003 = some (.trNav 3 5) ∧ decodeTableWord 32 0x02080000 = none := by decide

/-! ### The assembler: the examples of R101 and R102 -/

/-- What a text assembles to; no words when it is refused. -/
def assembled (text : String) : List Word :=
  match assemble text with
  | .ok ws => ws
  | .error _ => []

/-- Whether a text is an assembly error. -/
def refusedText (text : String) : Bool :=
  match assemble text with
  | .ok _ => false
  | .error _ => true

theorem test_asm_examples :
    assembled "TR.NAV 3, 5\nPK.PUSH 1, 4\nFS.BIND 4\nCSR.RD TR_SIZE\nCSR.RD PK_BITS, 2 ; a comment" =
      [0x02050003, 0x31140000, 0x20000001, 0x40000008, 0x40200021] := by decide
theorem test_asm_pseudo :
    assembled "TR.ADDSTR \"aa\"\nFS.OPEN 3, \"\"\nSQ.PUTS 0x61, 2" =
      [0x28000061, 0x28000061, 0x04000000, 0x20000000, 0x28000061, 0x28000002] := by decide
theorem test_asm_bad_width : refusedText "FS.BIND 5" = true ∧ refusedText "FS.BIND 3" = false := by decide

/-! ### One step of each command -/

/-- The response word of one command; no word when it stops. -/
def answer (i : Instr) (s : State) : Option Word :=
  match exec i s with
  | .next t => some t.resp
  | .fault _ => none
  | .refused _ => none

/-- Something of the state after one command. -/
def after {α : Type} (i : Instr) (s : State) (f : State → α) : Option α :=
  match exec i s with
  | .next t => some (f t)
  | .fault _ => none
  | .refused _ => none

/-- The reset state with bytes in the queue. -/
def withBytes (q : List Byte) : State := { State.reset with mem := { Memory.reset with sq := q } }

/-- The reset state with a splitter. -/
def withSplitter (fs : Splitter) (q : List Byte) : State := { withBytes q with fs := fs }

/-- The arena of "aa" cut after its third symbol and of "au" likewise (95_test_vectors.md P2): 1, 4, 5 and then the
children 4 and 7 of the original numbered 4 and 5 here. -/
def smallNodes : List Node :=
  [Node.fresh.setSlot 1 1, Node.fresh.setSlot 4 2, Node.fresh.setSlot 5 3,
    (Node.fresh.setSlot 0 4).setSlot 2 5, Node.fresh, Node.fresh]

/-- The reset state with that arena. -/
def withTrie : State := { State.reset with mem := { nodes := smallNodes, sq := [] } }

/-- 42_trie.md R157: size 1, every enumerator closed. -/
theorem test_trNew :
    after .trNew { withTrie with ens := Vector.replicate 16 (Enumerator.opened 3) }
      (fun t => (t.resp, t.mem.size, (t.en 0).isOpen, (t.en 0).node)) = some (0x00000000, 1, false, 3) := by decide

/-- 42_trie.md R158: `TR.NAV 0, 1` after reset gives `0x10000001` and TR_SIZE = 2. -/
theorem test_trNav_new :
    after (.trNav 0 1) State.reset (fun t => (t.resp, t.mem.size, t.mem.nodeRead 0 1, t.mem.nodeRead 1 1)) =
      some (0x10000001, 2, some 1, some 0xFFFF) := by decide

/-- 95_test_vectors.md P4 row 5: CAPACITY, nothing else changes. -/
theorem test_trNav_capacity :
    after (.trNav 5 0) { withTrie with cfg := { Config.default with nodeMax := 6 } }
      (fun t => (t.resp, t.fault.code, t.mem.size)) = some (0xF0000004, 0x04, 6) := by decide

/-- 95_test_vectors.md P2 rows 9 and 11, and P4: BAD_ADDR. -/
theorem test_trCnt :
    answer (.trCnt 3) withTrie = some 0x10000002 ∧ answer (.trCnt 5) withTrie = some 0x10000000 ∧
      answer (.trCnt 6) withTrie = some 0xF0000003 := by decide

/-- 42_trie.md R162: "aa" after reset gives size 7 and the path 0, 1, 2, 3, 4, 5, 6. -/
theorem test_trAdds :
    after .trAdds (withBytes [0x61, 0x61])
      (fun t => (t.resp, t.mem.size, t.mem.sq, t.mem.nodeRead 3 0, t.mem.nodeRead 5 0)) =
        some (0x00000000, 7, [], some 4, some 6) := by decide

/-- 60_exceptions.md R205 at `NODE_MAX = 3`: the third navigate step fails, two nodes stay, both bytes of which
`ceil(9/8) = 2` are pulled are gone. -/
theorem test_trAdds_capacity :
    after .trAdds { withBytes [0x61, 0x61, 0x63] with cfg := { Config.default with nodeMax := 3 } }
      (fun t => (t.resp, t.mem.size, t.mem.sq, t.mem.nodeRead 1 4)) = some (0xF0000004, 3, [0x63], some 2) := by decide

/-- 43_enumerator.md R176, and 95_test_vectors.md E6: BAD_CTX before BAD_ADDR. -/
theorem test_enOpen :
    after (.enOpen 0 3) withTrie (fun t => (t.resp, t.en 0)) = some (0x00000000, Enumerator.opened 3) ∧
      answer (.enOpen 9 5) State.reset = some 0xF0000002 := by decide

/-- 43_enumerator.md R177: symbol 2 is found from position 1. -/
theorem test_enNext :
    after (.enNext 0) (withTrie.setEn 0 { isOpen := true, node := 3, pos := 1 }) (fun t => (t.resp, (t.en 0).pos)) =
      some (0x10020005, 3) := by decide

/-- 43_enumerator.md R177: END leaves position 8; an unopened context raises NOT_OPEN (95_test_vectors.md E4). -/
theorem test_enNext_end :
    after (.enNext 0) (withTrie.setEn 0 { isOpen := true, node := 3, pos := 3 }) (fun t => (t.resp, (t.en 0).pos)) =
      some (0x20000000, 8) ∧ answer (.enNext 0) State.reset = some 0xF0000007 := by decide

/-- 43_enumerator.md R178: node and position stay. -/
theorem test_enClose :
    after (.enClose 0) (withTrie.setEn 0 { isOpen := true, node := 3, pos := 8 }) (fun t => (t.resp, t.en 0)) =
      some (0x00000000, { isOpen := false, node := 3, pos := 8 }) := by decide

/-- 40_splitter.md R124: FS_STAT is `0x0031` after `FS.BIND 3`. -/
theorem test_fsBind :
    after (.fsBind .w3) (withSplitter { w := .w4, bound := true, exh := true, rem := 5, bits := 4 } [1])
      (fun t => (t.resp, t.fs.stat, t.fs.rem, t.fs.bits, t.mem.sq)) = some (0x00000000, 0x0031, 0, 0, [1]) := by decide

/-- 95_test_vectors.md F-trace-1 row 3: two bits buffered, a byte pulled, symbol 5. -/
theorem test_fsNext_pull :
    after .fsNext (withSplitter { w := .w3, bound := true, exh := false, rem := 0x0001, bits := 2 } [0x61])
      (fun t => (t.resp, t.fs.rem, t.fs.bits, t.fs.exh, t.mem.sq)) = some (0x10000005, 0x0030, 7, false, []) := by decide

/-- 95_test_vectors.md P1 row 8: the tail symbol of two bits. -/
theorem test_fsNext_tail :
    after .fsNext (withSplitter { w := .w3, bound := true, exh := false, rem := 0x0001, bits := 2 } [])
      (fun t => (t.resp, t.fs.rem, t.fs.bits, t.fs.exh)) = some (0x10000001, 0, 0, true) := by decide

/-- 40_splitter.md R122, and 95_test_vectors.md F5: SQ_FULL at `SQ_DEPTH = 2`. -/
theorem test_sqPut :
    after (.sqPut 0x61) State.reset (fun t => (t.resp, t.mem.sq)) = some (0x00000000, [0x61]) ∧
      after (.sqPut 3) { withBytes [1, 2] with cfg := { Config.default with sqDepth := 2 } }
        (fun t => (t.resp, t.mem.sq)) = some (0xF0000005, [1, 2]) := by decide

/-- 95_test_vectors.md F3: the buffered bits stay. -/
theorem test_sqClr :
    after .sqClr (withSplitter { w := .w3, bound := true, exh := false, rem := 0x000C, bits := 5 } [0x61])
      (fun t => (t.resp, t.mem.sq, t.fs.rem, t.fs.bits)) = some (0x00000000, [], 0x000C, 5) := by decide

/-- 41_packer.md R142, and 95_test_vectors.md K2: BAD_CTX. -/
theorem test_pkClr :
    after (.pkClr 7) (State.reset.setPk 7 { stored := 0x21, bits := 6 }) (fun t => (t.resp, t.pk 7)) =
      some (0x00000000, Packer.cleared) ∧ answer (.pkClr 8) State.reset = some 0xF0000002 := by decide

/-- 41_packer.md R143: the third push of 1, 4, 1 gives the byte 0x61. -/
theorem test_pkPush_byte :
    after (.pkPush 0 1) (State.reset.setPk 0 { stored := 0x21, bits := 6 }) (fun t => (t.resp, t.pk 0)) =
      some (0x10000061, { stored := 0x00, bits := 1 }) := by decide

/-- 95_test_vectors.md K-step: at bits = 4 no byte comes out and seven bits are kept. -/
theorem test_pkPush_none :
    after (.pkPush 0 5) (State.reset.setPk 0 { stored := 0x0F, bits := 4 }) (fun t => (t.resp, t.pk 0)) =
      some (0x30000000, { stored := 0x5F, bits := 7 }) := by decide

/-- 41_packer.md R144, and 95_test_vectors.md K2: `PK.COPY 0, 9` raises BAD_CTX. -/
theorem test_pkCopy :
    after (.pkCopy 1 0) (State.reset.setPk 0 { stored := 0x21, bits := 6 }) (fun t => (t.resp, t.pk 1, t.pk 0)) =
      some (0x00000000, { stored := 0x21, bits := 6 }, { stored := 0x21, bits := 6 }) ∧
      answer (.pkCopy 0 9) State.reset = some 0xF0000002 := by decide

/-- 95_test_vectors.md C1, and E7 row 9: EN_STAT with `open` and `pos` 7. -/
theorem test_csrRd :
    answer (.csrRd 0x10 0) State.reset = some 0x10000030 ∧ answer (.csrRd 0x01 0) State.reset = some 0x1000FFFF ∧
      answer (.csrRd 0x30 0) (State.reset.setEn 0 { isOpen := true, node := 0, pos := 7 }) = some 0x10000071 := by decide

/-- 95_test_vectors.md C2. -/
theorem test_csrRd_faults :
    answer (.csrRd 0x05 9) State.reset = some 0xF0000001 ∧ answer (.csrRd 0x08 1) State.reset = some 0xF0000001 ∧
      answer (.csrRd 0x21 8) State.reset = some 0xF0000002 ∧ answer (.csrRd 0x31 15) State.reset = some 0xF0000002 := by
  decide

/-! ### The step -/

/-- Something of the state after one step. -/
def stepped {α : Type} (s : State) (f : State → α) : Option α :=
  match step s with
  | .next t => some (f t)
  | .fault _ => none
  | .refused _ => none

/-- The instruction of an opcode-table word runs as the next step. -/
theorem test_step_runs_table_word :
    stepped (State.reset.withFetchWord 32 0x02010000) (fun t => (t.resp, t.mem.size, t.host)) =
      some (0x10000001, 2, []) := by decide

/-- 95_test_vectors.md P4 row 8: in the faulted state a word is refused without decoding. -/
theorem test_step_refuses :
    stepped { State.reset with fault := { valid := true, code := 0x04 }, host := [.present 0x00000000] }
      (fun t => (t.resp, t.fault.code)) = some (0xF0000004, 0x04) := by decide

/-- 70_reset_and_hazards.md R230: reset leaves the faulted state. -/
theorem test_step_reset :
    stepped { withTrie with fault := { valid := true, code := 0x04 }, host := [.assertReset] }
      (fun t => (t.fault.valid, t.mem.size, t.resp)) = some (false, 1, 0x00000000) := by decide

/-! ### Witnesses: states and operands that meet the hypotheses of the statements -/

/-- The reset state of a configuration with bytes in the queue meets the invariant. -/
theorem witness_inv {cfg : Config} (h : cfg.Legal) {q : List Byte} (hq : q.length ≤ cfg.sqDepth) :
    State.Inv { State.resetOf cfg with mem := { Memory.reset with sq := q } } where
  legal := h
  fault := ⟨fun _ => rfl, fun hv => by simp [State.resetOf] at hv⟩
  fs := ⟨by simp [State.resetOf], by simp [State.resetOf], by simp [State.resetOf], by simp [State.resetOf]⟩
  pk := fun p => by
    show ((State.resetOf cfg).pk p).Inv
    rw [State.resetOf_pk]
    decide
  en := fun e => by
    show ((State.resetOf cfg).en e).Inv 1
    rw [State.resetOf_en]
    decide
  arena := (ArenaInv.newTrie h.1.1 Memory.reset).congr rfl
  queue := hq

/-- A configuration in which the arena is full at three nodes. -/
def tinyConfig : Config := { Config.default with nodeMax := 3 }

/-- EncodeOfDecodeIsIdentity; StepRunsTheDecodedInstruction. -/
theorem witness_decodes : decodeWord 0x02050003 = .ok (.trNav 3 5) := by decide

theorem witness_step_runs :
    let s : State := { State.reset with host := [.present 0x02050003, .readResp] }
    s.host = .present 0x02050003 :: [.readResp] ∧ s.fault.valid = false ∧ decodeWord 0x02050003 = .ok (.trNav 3 5) := by
  decide

theorem witness_presented_program :
    ({ State.reset with host := presentAll [.sqPut 0x61, .trAdds] } : State).host =
      presentAll [.sqPut 0x61, .trAdds] := rfl

/-- IllegalCommandRaisesIllegalCmd, first clause. -/
theorem witness_illegal_word :
    let s : State := { State.reset with host := [.present 0x02080000] }
    s.host = .present 0x02080000 :: [] ∧ s.fault.valid = false ∧
      ∀ r ∈ commandTable, (0x02080000 : Word) &&& r.mask ≠ r.pattern := by decide

/-- IllegalCommandRaisesIllegalCmd, second clause, and CsrRdAnswersTheRegister: a number of no register, and a per-block
register with a context. -/
theorem witness_illegal_csr :
    State.reset.fault.valid = false ∧ (∀ r : Csr, r.number ≠ 0x05) ∧
      (Csr.trSize.number = 0x08 ∧ csrScope .trSize = .block) ∧ (1 : CtxIdx) ≠ 0 :=
  ⟨rfl, fun r => by cases r <;> decide, by decide, by decide⟩

/-- FaultedBlockRefusesEveryWord, with a word and with reset; NoCommandRunsInTheFaultedState; FaultRegisterIsSticky. -/
theorem witness_faulted :
    let s : State := { State.reset with fault := { valid := true, code := 0x04 }, host := [.present 0x01000000] }
    let r : State := { State.reset with fault := { valid := true, code := 0x04 }, host := [.assertReset] }
    s.fault.valid = true ∧ s.host = .present 0x01000000 :: [] ∧ stepped s (fun t => t.fault) = some s.fault ∧
      r.host = .assertReset :: [] ∧ stepped r (fun t => t.fault.valid) = some false := by decide

theorem witness_faulted_not_reset (rest : List HostAction) :
    ({ State.reset with fault := { valid := true, code := 0x04 }, host := [.present 0x01000000] } : State).host ≠
      .assertReset :: rest := by simp

/-- IdleBlockHoldsItsState; ReadingTheResponseHasNoSideEffect; ResetActionGivesTheResetState. -/
theorem witness_host_actions :
    withTrie.host = [] ∧ ({ withTrie with host := [.readResp] } : State).host = .readResp :: [] ∧
      ({ withTrie with host := [.assertReset] } : State).host = .assertReset :: [] := by decide

/-- CsrValuesAfterReset: the last contexts that exist. -/
theorem witness_last_context : (7 : CtxIdx).toNat < Config.default.npk ∧ (7 : CtxIdx).toNat < Config.default.nen := by
  decide

/-- InvariantHoldsAtReset; ArenaStaysATree, first clause: the smallest and the largest legal configuration. -/
theorem witness_legal :
    Config.Legal { nodeMax := 1, npk := 1, nen := 1, sqDepth := 1 } ∧
      Config.Legal { nodeMax := 65535, npk := 16, nen := 16, sqDepth := 65535 } ∧ Config.default.Legal := by decide

/-- SqPutAppendsAByte: one byte short of full, and full. -/
theorem witness_sqPut :
    let cfg : Config := { Config.default with sqDepth := 2 }
    let s : State := { withBytes [1] with cfg := cfg }
    let f : State := { withBytes [1, 2] with cfg := cfg }
    s.fault.valid = false ∧ s.mem.sq.length < s.cfg.sqDepth ∧ f.fault.valid = false ∧
      f.mem.sq.length = f.cfg.sqDepth := by decide

/-- SqClrEmptiesTheQueue; FsBindCreatesAFreshSplitter; SplitterSequenceInClosedForm; SplitterConservesWidth (both widths);
TrNewLeavesTheRootAlone. -/
theorem witness_no_fault : (withBytes [0x61, 0x61]).fault.valid = false := by decide

/-- SplitterConservesWidth: both widths occur, over an empty and a non-empty queue. -/
theorem witness_symbol_counts :
    symbolCount .w4 0 = 0 ∧ symbolCount .w3 0 = 0 ∧ symbolCount .w4 2 = 4 ∧ symbolCount .w3 2 = 6 := by decide

/-- FsNextProducesTheNextSymbol; SplitterInvariantKept: a splitter for each clause, at the bounds of the buffered count. -/
theorem witness_fsNext :
    let unbound : Splitter := State.reset.fs
    let done : Splitter := { w := .w3, bound := true, exh := true, rem := 0, bits := 0 }
    let three : Splitter := { w := .w3, bound := true, exh := false, rem := 7, bits := 3 }
    let two : Splitter := { w := .w3, bound := true, exh := false, rem := 3, bits := 2 }
    (unbound.Inv ∧ unbound.bound = false) ∧ (done.Inv ∧ done.bound = true ∧ done.exh = true) ∧
      (three.Inv ∧ three.exh = false ∧ symbolWidth three.w ≤ three.bits.toNat) ∧
      (two.Inv ∧ two.exh = false ∧ two.bits.toNat < symbolWidth two.w) ∧
      (withSplitter two [0x61]).mem.sq = 0x61 :: [] ∧ (withSplitter two []).mem.sq = [] :=
  ⟨⟨⟨by decide, by decide, by decide, by decide⟩, rfl⟩, ⟨⟨by decide, by decide, by decide, by decide⟩, rfl, rfl⟩,
    ⟨⟨by decide, by decide, by decide, by decide⟩, rfl, by decide⟩,
    ⟨⟨by decide, by decide, by decide, by decide⟩, rfl, by decide⟩, rfl, rfl⟩

/-- FsNextIsPure: two states that agree on the splitter and the queue and differ elsewhere. -/
theorem witness_pure :
    let s := withBytes [0x61]
    let u := (withBytes [0x61]).setPk 3 { stored := 5, bits := 3 }
    s.fault.valid = false ∧ u.fault.valid = false ∧ s.fs = u.fs ∧ s.mem.sq = u.mem.sq ∧ s ≠ u := by decide

/-- PkClrMakesAFreshPacker; PkCopyCopiesAContext: the last context that exists and the first that does not. -/
theorem witness_packer_contexts :
    State.reset.fault.valid = false ∧ (7 : CtxIdx).toNat < State.reset.cfg.npk ∧
      State.reset.cfg.npk ≤ (8 : CtxIdx).toNat := by decide

/-- PkPushPacksOneSymbol: four and five buffered bits, where the two clauses meet. -/
theorem witness_pkPush :
    let s := (State.reset.setPk 0 { stored := 0x0F, bits := 4 }).setPk 1 { stored := 0x1F, bits := 5 }
    s.fault.valid = false ∧ (s.pk 0).Inv ∧ (s.pk 0).bits.toNat + 3 < 8 ∧ (s.pk 1).Inv ∧
      8 ≤ (s.pk 1).bits.toNat + 3 ∧ (0 : CtxIdx).toNat < s.cfg.npk := by decide

/-- PackerInvariantKept, PackerInvertsTheSplitter. -/
theorem witness_packers (p : CtxIdx) : (State.reset.pk p).Inv ∧ (0 : CtxIdx).toNat < State.reset.cfg.npk :=
  ⟨(State.Inv.pk (witness_inv (cfg := Config.default) (by decide) (q := []) (by decide)) p), by decide⟩

/-- PackerGeneralLaw: push number 2 completes byte 0, push number 1 completes none. -/
theorem witness_packer_law :
    let syms : List Symbol := [1, 4, 1]
    2 < syms.length ∧ 2 + 1 = (8 * (0 + 1) + 2) / 3 ∧ ∀ j, 1 + 1 ≠ (8 * (j + 1) + 2) / 3 :=
  ⟨by decide, by decide, fun j => by omega⟩

/-- PackerContextsAreIndependent; EnumeratorsAreIndependent; OnlyTrieCommandsWriteTheArena; CommandsReachOnlyTheirUnits;
FaultEntry: commands that leave a next state. -/
theorem witness_next_states :
    (answer (.pkPush 0 1) State.reset).isSome = true ∧ packerWritten (.pkPush 0 1) ≠ some 1 ∧
      (answer (.enOpen 0 0) State.reset).isSome = true ∧ enumeratorNamed (.enOpen 0 0) = some 0 ∧
      enumeratorNamed (.enOpen 0 0) ≠ some 1 ∧ writesArena (.enOpen 0 0) = false ∧
      reachesQueue (.enOpen 0 0) = false ∧ writesSplitter (.enOpen 0 0) = false ∧
      after (.enOpen 0 1) State.reset (fun t => t.fault.valid) = some true := by decide

/-- TrNavFollowsOrCreatesTheChild: a state for each clause. -/
theorem witness_trNav :
    let full : State := { withTrie with cfg := { Config.default with nodeMax := 6 } }
    withTrie.fault.valid = false ∧ withTrie.cfg.Legal ∧ full.cfg.Legal ∧ withTrie.mem.size ≤ (6 : NodeAddr).toNat ∧
      withTrie.mem.nodeRead 0 1 = some 1 ∧ (1 : SlotWord) ≠ absent ∧ withTrie.mem.nodeRead 5 0 = some absent ∧
      withTrie.mem.size < withTrie.cfg.nodeMax ∧ full.mem.size = full.cfg.nodeMax := by decide

/-- TrCntCountsTheChildren; EnOpenStartsAnEnumeration: the last node and the first address with none. -/
theorem witness_addresses :
    withTrie.fault.valid = false ∧ (5 : NodeAddr).toNat < withTrie.mem.size ∧ withTrie.mem.size ≤ (6 : NodeAddr).toNat ∧
      (7 : CtxIdx).toNat < withTrie.cfg.nen ∧ withTrie.cfg.nen ≤ (8 : CtxIdx).toNat := by decide

/-- TrAddsInsertsTheSymbolPath: a string that fits and one that does not. -/
theorem witness_trAdds :
    let s := withBytes [0x61, 0x61]
    let f : State := { withBytes [0x61, 0x61] with cfg := tinyConfig }
    (insertPath s.cfg (octalSymbols s.mem.sq) 0 s.mem).1 = [] ∧
      (insertPath f.cfg (octalSymbols f.mem.sq) 0 f.mem).1 ≠ [] := by decide

theorem witness_trAdds_inv : (withBytes [0x61, 0x61]).Inv ∧ State.Inv { withBytes [0x61, 0x61] with cfg := tinyConfig } :=
  ⟨witness_inv (cfg := Config.default) (by decide) (by decide), witness_inv (cfg := tinyConfig) (by decide) (by decide)⟩

/-- TrAddsCompletesWhenThereIsRoom. -/
theorem witness_room :
    (withBytes [0x61, 0x61]).mem.size + symbolCount .w3 (withBytes [0x61, 0x61]).mem.sq.length ≤
      (withBytes [0x61, 0x61]).cfg.nodeMax := by decide

/-- The state after TR.ADDS of "aa", with "au" in the queue. -/
def secondString : State :=
  match exec .trAdds (withBytes [0x61, 0x61]) with
  | .next t => { t with mem := { t.mem with sq := [0x61, 0x75] } }
  | .fault _ => State.reset
  | .refused _ => State.reset

/-- StringsShareTheirCommonPrefix: "aa" then "au", which share the symbols 1, 4, 5. -/
theorem witness_share :
    let s := withBytes [0x61, 0x61]
    after .trAdds s (fun t => (t.fault.valid, secondString.mem.nodes == t.mem.nodes)) = some (false, true) ∧
      secondString.fault.valid = false ∧ after .trAdds secondString (fun v => v.fault.valid) = some false ∧
      [1, 4, 5] <+: octalSymbols s.mem.sq ∧ [1, 4, 5] <+: octalSymbols secondString.mem.sq := by decide

theorem witness_share_inv : secondString.Inv := by
  have hi : (withBytes [0x61, 0x61]).Inv := witness_trAdds_inv.1
  obtain ⟨t, ht⟩ : ∃ t, exec .trAdds (withBytes [0x61, 0x61]) = .next t := ⟨_, rfl⟩
  have hs : secondString = { t with mem := { t.mem with sq := [0x61, 0x75] } } := by
    simp only [secondString, ht]
  have hn : t.mem.nodes = secondString.mem.nodes := by rw [hs]
  have ha : ArenaInv Config.default t.mem := by
    rcases exec_arena (i := .trAdds) hi.legal.1.2 hi.arena ht with h | ⟨h, -⟩ | ⟨-, -, h, -⟩
    · exact hi.arena.congr h
    · cases h
    · exact h
  have hc : t.cfg = Config.default ∧ t.fault = State.reset.fault ∧ t.fs = State.reset.fs ∧ t.pks = State.reset.pks ∧
      t.ens = State.reset.ens := by
    have : secondString.cfg = Config.default ∧ secondString.fault = State.reset.fault ∧
        secondString.fs = State.reset.fs ∧ secondString.pks = State.reset.pks ∧
        secondString.ens = State.reset.ens := by decide
    rw [hs] at this
    exact this
  have base := witness_inv (cfg := Config.default) (by decide) (q := []) (by decide)
  rw [hs]
  refine ⟨hc.1 ▸ base.legal, hc.2.1 ▸ base.fault, hc.2.2.1 ▸ base.fs, fun p => ?_, fun e => ?_, ?_, ?_⟩
  · show (t.pk p).Inv
    rw [State.pk_congr (s := State.reset) hc.2.2.2.1 p]
    exact base.pk p
  · show (t.en e).Inv _
    rw [State.en_congr (s := State.reset) hc.2.2.2.2 e, show State.reset.en e = Enumerator.closed from
      State.resetOf_en _ e]
    exact ⟨by decide, fun h => absurd h (by decide)⟩
  · exact hc.1 ▸ ha.congr rfl
  · rw [hc.1]
    exact (by decide : ([0x61, 0x75] : List Byte).length ≤ 256)

/-- AddressSpaceIsMonotonic; OnlyTrieCommandsWriteTheArena (both clauses); ResponseWordOfEachCommand; StepKeepsTheInvariant; StepNeverStops: a step of a state with the
invariant. -/
theorem witness_invariant_step :
    let s : State := { withBytes [0x61, 0x61] with host := [.present 0x04000000] }
    stepped s (fun t => (t.resp, t.mem.size)) = some (0x00000000, 7) ∧ Instr.trAdds ≠ Instr.trNew ∧
      (∀ rest, s.host ≠ .assertReset :: rest ∧ s.host ≠ .present (encode .trNew) :: rest) :=
  ⟨by decide, by decide, fun rest => ⟨by simp, fun h => by
    have := (List.cons_eq_cons.1 h).1
    exact absurd this (by decide)⟩⟩

/-- Every enumerator open at the root, which has one child. -/
def rootOpen : State :=
  { State.reset with mem := Memory.reset.grown 0 1, ens := Vector.replicate 16 (Enumerator.opened 0) }

theorem witness_inv_rootOpen : rootOpen.Inv where
  legal := by decide
  fault := ⟨fun _ => rfl, fun hv => absurd hv (by decide)⟩
  fs := (witness_inv (cfg := Config.default) (by decide) (q := []) (by decide)).fs
  pk := (witness_inv (cfg := Config.default) (by decide) (q := []) (by decide)).pk
  en := fun e => by
    rw [show rootOpen.en e = Enumerator.opened 0 by simp [rootOpen, State.en]]
    decide
  arena := (ArenaInv.newTrie (cfg := Config.default) (by decide) Memory.reset).grown (by decide) (by decide) (by decide)
  queue := by decide

/-- AddressSpaceIsMonotonic: TR.NAV and EN.NEXT answer an address, in states with the invariant. -/
theorem witness_returned_address :
    after (.trNav 0 1) State.reset (fun t => (t.resp, t.fault.valid)) = some (0x1000#16 ++ 1#16, false) ∧
      after (.enNext 0) rootOpen (fun t => (t.resp, t.fault.valid)) =
        some (0x1#4 ++ 0#9 ++ 1#3 ++ 1#16, false) := by decide

/-- AddressSpaceIsMonotonic: TR.ADDS passes every node of the path, or two of them when the arena is full. -/
theorem witness_passed :
    let tiny : State := { withBytes [0x61, 0x61] with cfg := tinyConfig }
    let path := octalSymbols tiny.mem.sq
    path.length = 6 ∧ (insertPath Config.default path 0 tiny.mem).1.length = 0 ∧
      2 + (insertPath tiny.cfg path 0 tiny.mem).1.length ≤ path.length := by decide

/-- StepKeepsTheMemoryForm. -/
theorem witness_memory_form : withTrie.cfg.Legal ∧ withTrie.mem.wf withTrie.cfg = true := by decide

/-- The form refuses an empty arena, a child outside the arena and a queue that is too long. -/
theorem witness_memory_form_refuses :
    Memory.wf Config.default { nodes := [], sq := [] } = false ∧
      Memory.wf Config.default { nodes := [Node.fresh.setSlot 0 1], sq := [] } = false ∧
      Memory.wf { Config.default with sqDepth := 1 } { nodes := [Node.fresh], sq := [1, 2] } = false := by decide

/-- EnNextYieldsTheNextPair: a state for each clause. -/
theorem witness_enNext :
    let s := (withTrie.setEn 0 { isOpen := true, node := 3, pos := 1 }).setEn 1 { isOpen := true, node := 3, pos := 3 }
    s.fault.valid = false ∧ (0 : CtxIdx).toNat < s.cfg.nen ∧ s.cfg.nen ≤ (8 : CtxIdx).toNat ∧
      (s.en 2).isOpen = false ∧ (s.en 0).isOpen = true ∧ (s.en 0).pos.toNat ≤ (2 : Symbol).toNat ∧
      s.mem.nodeRead (s.en 0).node 2 = some 5 ∧ (5 : SlotWord) ≠ absent ∧
      (∀ z : Symbol, (s.en 0).pos.toNat ≤ z.toNat → z.toNat < (2 : Symbol).toNat →
        s.mem.nodeRead (s.en 0).node z = some absent) ∧
      (s.en 1).isOpen = true ∧ (s.en 1).node.toNat < s.mem.size ∧
      (∀ z : Symbol, (s.en 1).pos.toNat ≤ z.toNat → s.mem.nodeRead (s.en 1).node z = some absent) := by decide

/-- EnCloseDropsTheEnumeration: an open context and one that is not. -/
theorem witness_enClose :
    let s := withTrie.setEn 0 { isOpen := true, node := 3, pos := 1 }
    s.fault.valid = false ∧ (s.en 0).isOpen = true ∧ (s.en 1).isOpen = false ∧ (0 : CtxIdx).toNat < s.cfg.nen ∧
      s.cfg.nen ≤ (8 : CtxIdx).toNat := by decide

/-- EnumerationAgreesWithTheCount: node 3 of the small trie, three EN.NEXT and another command between them. -/
theorem witness_enumeration :
    let prog : List Instr := [.enNext 0, .trCnt 3, .enNext 0, .enNext 0]
    withTrie.fault.valid = false ∧ (0 : CtxIdx).toNat < withTrie.cfg.nen ∧
      withTrie.mem.nodes[(3 : NodeAddr).toNat]? = some ((Node.fresh.setSlot 0 4).setSlot 2 5) ∧
      (∀ i ∈ prog, writesArena i = false ∧ i ≠ .enClose 0) ∧
      (match runAll (.enOpen 0 3 :: prog) withTrie with
        | .next t => t.fault.valid
        | .fault _ => true
        | .refused _ => true) = false := by decide

theorem witness_enumeration_not_reopened :
    ∀ i ∈ ([.enNext 0, .trCnt 3, .enNext 0, .enNext 0] : List Instr), ∀ b, i ≠ .enOpen 0 b := by
  intro i hi b
  fin_cases hi <;> simp

/-- EnumeratorInvariantKept. -/
theorem witness_enumerators (e : CtxIdx) : (State.reset.en e).Inv State.reset.mem.size :=
  (witness_inv (cfg := Config.default) (by decide) (q := []) (by decide)).en e

/-- CsrRdAnswersTheRegister: contexts on both sides of each bound. -/
theorem witness_csr_contexts :
    State.reset.fault.valid = false ∧ (7 : CtxIdx).toNat < State.reset.cfg.npk ∧
      State.reset.cfg.npk ≤ (8 : CtxIdx).toNat ∧ (7 : CtxIdx).toNat < State.reset.cfg.nen ∧
      State.reset.cfg.nen ≤ (8 : CtxIdx).toNat := by decide

/-- PackerStateAfterARoundTrip: the run answers a next state. -/
theorem witness_round_trip :
    ∃ t, runAll (.pkClr 0 :: (octalSymbols [0x61]).map (fun y => .pkPush 0 y)) State.reset = .next t ∧
      State.reset.fault.valid = false ∧ (0 : CtxIdx).toNat < State.reset.cfg.npk := ⟨_, rfl, by decide⟩

/-- FaultsArePrecise; FaultPriority (TR.ADDS): a fault of another command, and CAPACITY at the third step of TR.ADDS. -/
theorem witness_precise :
    after (.trCnt 1) State.reset (fun t => t.fault.valid) = some true ∧ Instr.trCnt 1 ≠ .trAdds ∧
      after .trAdds { withBytes [0x61, 0x61] with cfg := tinyConfig } (fun t => (t.fault.valid, t.mem.sq)) =
        some (true, []) := by decide

/-- FaultPriority: an input for each clause. -/
theorem witness_priority :
    let full : State := { withTrie with cfg := { Config.default with nodeMax := 6 } }
    (Instr.csrRd 0x05 9).isLegal = false ∧ (Instr.enOpen 9 5).isLegal = true ∧
      (Instr.enOpen 9 5).ctxInRange Config.default = false ∧ State.reset.fs.bound = false ∧
      (Instr.enNext 0).ctxInRange State.reset.cfg = true ∧ (State.reset.en 0).isOpen = false ∧
      State.reset.mem.size ≤ (5 : NodeAddr).toNat ∧ (Instr.enOpen 0 5).ctxInRange State.reset.cfg = true ∧
      full.mem.nodeRead 5 0 = some absent ∧ full.mem.size = full.cfg.nodeMax ∧
      (withBytes [1]).mem.sq.length = ({ Config.default with sqDepth := 1 } : Config).sqDepth := by decide

theorem witness_priority_illegal (i : Instr) : decodeWord 0x11900001 ≠ .ok i := by
  rw [show decodeWord 0x11900001 = .error (.reservedBits 0x11) from by decide]
  simp

/-- OnlyAReadOutsideTheArenaStops: states without the invariant in which EN.NEXT and TR.ADDS stop. -/
theorem witness_stop :
    let s := State.reset.setEn 0 { isOpen := true, node := 1, pos := 0 }
    let u : State := { withBytes [0x61] with mem := { nodes := [], sq := [0x61] } }
    s.cfg.Legal ∧ exec (.enNext 0) s = .fault .noSuchNode ∧ u.cfg.Legal ∧ exec .trAdds u = .fault .noSuchNode :=
  ⟨by decide, rfl, by decide, rfl⟩

/-- PseudoInstructionsExpandAsTheyRead. -/
theorem witness_pseudo :
    State.reset.fault.valid = false ∧ State.reset.mem.sq = [] ∧
      ([0x61, 0x61] : List Byte).length ≤ State.reset.cfg.sqDepth := by decide

/-- PseudoInstructionsExpandAsTheyRead: SQ.PUTS of two bytes that just fill a queue already in use. -/
theorem witness_puts :
    let s : State := { withBytes [1] with cfg := { Config.default with sqDepth := 3 } }
    s.fault.valid = false ∧ s.mem.sq.length + ([0x61, 0x75] : List Byte).length = s.cfg.sqDepth := by decide
end

section
/-! The values of the stores and of every register after reset (10_state.md rule R48). -/

namespace Sys2Proof.Machine

/-- Reset leaves the arena that TR.NEW leaves, so its slots are read by the law of TR.NEW. -/
theorem Memory.reset_nodeRead (a : NodeAddr) (y : Symbol) :
    Memory.reset.nodeRead a y = if a = 0 then some absent else none :=
  Memory.newTrie_nodeRead Memory.reset a y

/-- Settles O13: the root by `Memory.reset_nodeRead`, the nodes beyond it by the arena's size, each context from its
file, and every other register from its field in `State.resetOf`. -/
theorem resetValues : Obligations.ResetValues := by
  intro cfg s
  have hroot : ∀ y, s.mem.nodeRead 0 y = some 0xFFFF := fun y => Memory.reset_nodeRead 0 y
  have hbeyond : ∀ (a : NodeAddr) y, 1 ≤ a.toNat → s.mem.nodeRead a y = none := fun _ _ ha =>
    Memory.nodeRead_eq_none.2 ha
  have hpk (p : CtxIdx) : (s.pk p).stored = 0 ∧ (s.pk p).bits = 0 := by
    rw [State.resetOf_pk]
    exact ⟨rfl, rfl⟩
  have hen (e : CtxIdx) : (s.en e).isOpen = false ∧ (s.en e).node = 0 ∧ (s.en e).pos = 0 := by
    rw [State.resetOf_en]
    exact ⟨rfl, rfl, rfl⟩
  exact ⟨rfl, hroot, hbeyond, rfl, rfl, rfl, rfl, rfl, rfl, fun p _ => hpk p, fun e _ => hen e, rfl, rfl, rfl⟩

end Sys2Proof.Machine
end

section
/-! Illegal commands (30_encoding.md rule R97). -/

namespace Sys2Proof

/-- The decoder rejects exactly the words of no row (30_encoding.md rule R99 step 2). -/
theorem decodeWord_error_iff {c : Word} :
    (∃ e, decodeWord c = .error e) ↔ ∀ r ∈ commandTable, c &&& r.mask ≠ r.pattern := by
  have hnone : commandTable.find? (fun r => r.accepts c) = none ↔ ∀ r ∈ commandTable, c &&& r.mask ≠ r.pattern := by
    simp only [List.find?_eq_none, Row.accepts, beq_iff_eq, ne_eq]
  rw [← hnone, decodeWord]
  cases commandTable.find? (fun r => r.accepts c) <;> simp

namespace Machine

/-- A presented word is run on the state from which its presentation has been taken. -/
theorem step_present {s : State} {c : Word} {rest : List HostAction} (h : s.host = .present c :: rest) :
    step s = runWord exec c { s with host := rest } := by
  simp only [step, runHost, h, runAction]

/-- A word the decoder rejects raises ILLEGAL_CMD, whatever the reason. -/
theorem runWord_rejected {run : Instr → State → Result} {c : Word} {s : State} {e : DecodeReject}
    (hf : s.fault.valid = false) (hd : decodeWord c = .error e) : runWord run c s = .next (s.raise .illegalCmd) := by
  simp [runWord, hf, hd]

/-- A per-block CSR is not read with a context index (30_encoding.md rule R99 step 3). -/
theorem csrOperand_block_context (cfg : Config) {r : Csr} {x : CtxIdx} (hr : csrScope r = .block) (hx : x ≠ 0) :
    csrOperand cfg r.number x = .error .illegalCmd := by
  simp only [csrOperand_number, hr, if_neg hx]

/-- Settles O8: a word of no row is one the decoder rejects, the two cases of CSR.RD are those its operand check answers
with ILLEGAL_CMD, and the two fixed words are compared with each row. -/
theorem illegalCommandRaisesIllegalCmd : Obligations.IllegalCommandRaisesIllegalCmd := by
  refine ⟨fun s c rest hhost hf hrow => ?_, fun s n x hf hcase => ?_, by decide⟩
  · obtain ⟨e, hd⟩ := decodeWord_error_iff.2 hrow
    rw [step_present hhost]
    exact runWord_rejected hf hd
  · have hop : csrOperand s.cfg n x = .error .illegalCmd := by
      rcases hcase with hunknown | ⟨⟨r, rfl, hr⟩, hx⟩
      · exact csrOperand_unknown s.cfg hunknown x
      · exact csrOperand_block_context s.cfg hr hx
    exact execCsrRd_error hf hop

end Machine

end Sys2Proof
end

section
/-! The decoder finds the row that accepts a word (30_encoding.md rules R94, R96). -/

namespace Sys2Proof

/-- A word is accepted by at most one row of the table. -/
theorem commandTable_accepts_pairwise (c : Word) :
    commandTable.Pairwise fun a b => ¬ (a.accepts c = true ∧ b.accepts c = true) := by
  refine commandTable_disjoint.imp fun {a b} hdisj ⟨ha, hb⟩ => hdisj ?_
  rw [Row.accepts, beq_iff_eq] at ha hb
  rw [← ha, ← hb]
  ext i hi
  simp +contextual

/-- A row of the table that accepts a word is the one the decoder finds. -/
theorem find?_commandTable {r : Row} (hr : r ∈ commandTable) {c : Word} (hc : r.accepts c = true) :
    commandTable.find? (fun r => r.accepts c) = some r := by
  have hsymm : Std.Symm fun a b : Row => ¬ (a.accepts c = true ∧ b.accepts c = true) := ⟨fun _ _ h h' => h h'.symm⟩
  obtain ⟨q, hq⟩ := Option.isSome_iff_exists.1
    ((List.find?_isSome (p := fun r : Row => r.accepts c)).2 ⟨r, hr, hc⟩)
  have hqr : q = r := by
    by_contra hne
    exact (commandTable_accepts_pairwise c).forall (List.mem_of_find?_eq_some hq) hr hne
      ⟨List.find?_some (p := fun r : Row => r.accepts c) hq, hc⟩
  rw [hq, hqr]

/-- A word that a row of the table accepts is the command of that row, with the operands taken from its fields. -/
theorem decodeWord_of_accepts {r : Row} (hr : r ∈ commandTable) {c : Word} (hc : r.accepts c = true) :
    decodeWord c = .ok (r.cmd.operands c) := by
  rw [decodeWord, find?_commandTable hr hc]

/-- The word of SQ.PUT is its `op` byte, zeros, and the byte in `imm[7:0]` (30_encoding.md rule R92, format B). -/
theorem encode_sqPut (b : Byte) : encode (.sqPut b) = 0x28#8 ++ 0#16 ++ b := by
  revert b
  decide

/-- The word of SQ.PUT decodes to it (30_encoding.md rule R96). -/
theorem decodeWord_sqPut (b : Byte) : decodeWord (0x28#8 ++ 0#16 ++ b) = .ok (.sqPut b) := by
  obtain ⟨r, hr, hcmd, haccepts⟩ := Laws.RowMatch.sqPut b
  have himm : (0x28#8 ++ 0#16 ++ b : Word).extractLsb' 0 8 = b := BitVec.extractLsb'_append_eq_right
  rw [← encode_sqPut, decodeWord_of_accepts hr haccepts, hcmd, encode_sqPut]
  exact congrArg (fun b' => Except.ok (Instr.sqPut b')) himm

end Sys2Proof
end

section
/-! The source queue and FS.BIND (40_splitter.md rules R122, R123, R124). -/

namespace Sys2Proof.Machine

/-- Settles O17: the queue has room or is full, and each answer is that of `exec` there. -/
theorem sqPutAppendsAByte : Obligations.SqPutAppendsAByte := fun _ b hf =>
  ⟨decodeWord_sqPut b, fun hroom => execSqPut_eq hf hroom.ne b, fun hfull => execSqPut_full hf hfull b⟩

/-- Settles O18: the one way SQ.CLR goes, and its word compared with each row. -/
theorem sqClrEmptiesTheQueue : Obligations.SqClrEmptiesTheQueue := fun _ hf =>
  ⟨by decide, execSqClr_eq hf⟩

/-- Settles O19: the one way FS.BIND goes, and its two words compared with each row. -/
theorem fsBindCreatesAFreshSplitter : Obligations.FsBindCreatesAFreshSplitter := fun _ w hf =>
  ⟨by decide, by decide, execFsBind_eq hf w⟩

end Sys2Proof.Machine
end

section
/-! FS.NEXT (40_splitter.md rules R125, R129, R131). -/

namespace Sys2Proof.Machine

/-- The symbol in the value field of the response of FS.NEXT (40_splitter.md rule R130). -/
theorem lowSymbol_setWidth (w : Width) (rem : BitVec 16) :
    (lowSymbol w rem).setWidth 16 = BitVec.ofNat 16 (rem.toNat % 2 ^ symbolWidth w) := by
  rw [← lowSymbol_toNat, BitVec.ofNat_toNat]

/-- With fewer bits buffered than a symbol has, the whole buffer is the symbol. -/
theorem lowSymbol_setWidth_of_lt {w : Width} {rem : BitVec 16} (h : rem.toNat < 2 ^ symbolWidth w) :
    (lowSymbol w rem).setWidth 16 = rem := by
  rw [lowSymbol_setWidth, Nat.mod_eq_of_lt h, BitVec.ofNat_toNat, BitVec.setWidth_eq]

/-- Taking a symbol is a division of the buffer by `2^w` (40_splitter.md rule R130). -/
theorem splitTake_fs {fs : Splitter} (he : fs.exh = false) (h : symbolWidth fs.w ≤ fs.bits.toNat) (m : Memory) :
    (splitTake fs m).fs = { fs with
      rem := BitVec.ofNat 16 (fs.rem.toNat / 2 ^ symbolWidth fs.w)
      bits := BitVec.ofNat 4 (fs.bits.toNat - symbolWidth fs.w) } := by
  rw [← splitTake_rem fs m, ← splitTake_bits h m, BitVec.ofNat_toNat, BitVec.ofNat_toNat]
  simp [splitTake, he]

/-- FS.NEXT where `SplitStep` ends in taking a symbol from the buffer `fs`. -/
theorem execFsNext_take {s : State} (hf : s.fault.valid = false) (hb : s.fs.bound = true) {fs : Splitter} {m : Memory}
    (hstep : splitStep s.fs s.mem = splitTake fs m) (he : fs.exh = false) (h : symbolWidth fs.w ≤ fs.bits.toNat) :
    exec .fsNext s = .next { s with
      mem := m
      fs := { fs with
        rem := BitVec.ofNat 16 (fs.rem.toNat / 2 ^ symbolWidth fs.w)
        bits := BitVec.ofNat 4 (fs.bits.toNat - symbolWidth fs.w) }
      resp := 0x1000#16 ++ BitVec.ofNat 16 (fs.rem.toNat % 2 ^ symbolWidth fs.w) } := by
  rw [execFsNext_eq hf hb, hstep, splitTake_fs he h, ← lowSymbol_setWidth]
  rfl

/-- FS.NEXT when the queue is empty and the buffer holds less than a symbol: what is buffered is answered, if anything,
and the splitter is exhausted. -/
theorem execFsNext_last {s : State} (hf : s.fault.valid = false) (hb : s.fs.bound = true) (hi : s.fs.Inv)
    (he : s.fs.exh = false) (h : s.fs.bits.toNat < symbolWidth s.fs.w) (hq : s.mem.sq = []) :
    exec .fsNext s = .next { s with
      fs := s.fs.exhausted
      resp := if s.fs.bits.toNat = 0 then 0x20000000 else 0x1000#16 ++ s.fs.rem } := by
  have hrem : s.fs.rem.toNat < 2 ^ symbolWidth s.fs.w :=
    hi.rem_lt.trans (Nat.pow_lt_pow_right Nat.one_lt_two h)
  rw [execFsNext_eq hf hb, splitStep_of_end he h hq]
  by_cases h0 : s.fs.bits = 0
  · rw [if_pos h0, if_pos (by rw [h0]; rfl)]
    rfl
  · have h0' : s.fs.bits.toNat ≠ 0 := fun hn => h0 (BitVec.eq_of_toNat_eq hn)
    simp only [if_neg h0, if_neg h0', splitRespond, lowSymbol_setWidth_of_lt hrem, State.respond, respWord_val]

/-- Settles O20: the four ways `SplitStep` goes, each with its numbers, and FS.NEXT without a binding. -/
theorem fsNextProducesTheNextSymbol : Obligations.FsNextProducesTheNextSymbol := by
  intro s hf hi w r n
  refine ⟨by decide, execFsNext_notBound hf, fun hb he => ?_, fun hb he hn => ?_, fun b rest hb he hn hq => ?_,
    fun hb he hn hq => ?_⟩
  · rw [execFsNext_eq hf hb, splitStep_of_exh he]
    rfl
  · exact execFsNext_take hf hb (splitStep_of_ge he hn s.mem) he hn
  · have hn4 : s.fs.bits.toNat < 4 := by
      have := symbolWidth_eq s.fs.w
      omega
    obtain ⟨-, hw, -⟩ := Splitter.buffer_mid hi hn b
    rw [execFsNext_take hf hb (splitStep_of_pull he hn hq) he hw, Splitter.buffer_rem hi.rem_lt hn4,
      Splitter.buffer_bits hn4]
    rfl
  · exact execFsNext_last hf hb hi he hn hq

/-- Settles O23: both runs raise NOT_BOUND, or both make the same `SplitStep`, which sees the memory through the queue
alone. -/
theorem fsNextIsPure : Obligations.FsNextIsPure := by
  intro s u hs hu hfs hsq
  cases hb : s.fs.bound with
  | false =>
    exact ⟨_, _, execFsNext_notBound hs hb, execFsNext_notBound hu (hfs ▸ hb), rfl, hfs, hsq, rfl, rfl, rfl, rfl, rfl,
      rfl⟩
  | true =>
    obtain ⟨hres, hfs', hsq'⟩ := splitStep_congr s.fs hsq
    obtain ⟨-, -, hnodes, -⟩ := splitStep_frame s.fs s.mem
    refine ⟨_, _, execFsNext_eq hs hb, execFsNext_eq hu (hfs ▸ hb), ?_, ?_⟩
    · rw [← hfs, ← hres]
      cases (splitStep s.fs s.mem).result <;> rfl
    · simp [← hfs, hfs', hsq', hnodes, hs, hu]

/-- A string of `n` bytes has `2n` symbols of width 4 (40_splitter.md rule R127). -/
theorem symbolCount_w4 (n : Nat) : symbolCount .w4 n = 2 * n := by
  simp only [symbolCount, symbolWidth]
  omega

/-- Symbol number `j` exists exactly when the stream has bits left at its place: `symbolCount` is the ceiling of `8n / w`
(40_splitter.md rule R129). -/
theorem lt_symbolCount_iff (w : Width) (n j : Nat) : j < symbolCount w n ↔ j * symbolWidth w < 8 * n := by
  cases w <;> simp only [symbolCount, symbolWidth] <;> omega

/-- `respValues` drops no response of a list in which all are VAL (30_encoding.md rule R100). -/
theorem respValues_length_of_val {ws : List Word} (h : ∀ x ∈ ws, ∃ v : Value, x = 0x1000#16 ++ v) :
    (respValues ws).length = ws.length := by
  have hall : ∀ x ∈ ws, (x.extractLsb' 28 4 == RespKind.val.bits) = true := by
    intro x hx
    obtain ⟨v, rfl⟩ := h x hx
    rw [beq_iff_eq, BitVec.extractLsb'_append_eq_of_le (by decide)]
    rfl
  rw [respValues, List.length_map, List.filter_eq_self.2 hall]

/-- FS.NEXT on a bound splitter with no bits left answers END. -/
theorem execFsNext_at_end {s : State} (hf : s.fault.valid = false) (hb : s.fs.bound = true)
    (h0 : streamBits s.fs s.mem = 0) : ∃ t, exec .fsNext s = .next t ∧ t.resp = 0x20000000 := by
  obtain ⟨hres, -, -⟩ := splitStep_at_end h0
  refine ⟨_, execFsNext_eq hf hb, ?_⟩
  rw [hres]
  rfl

/-- From a splitter just bound, as many FS.NEXT as the queue has symbols all answer VAL and use up the stream. -/
theorem runAll_fsNext_symbolCount {b : State} {w : Width} (hf : b.fault.valid = false) (hfs : b.fs = Splitter.bind w) :
    let run := List.replicate (symbolCount w b.mem.sq.length) Instr.fsNext
    ∃ t, runAll run b = .next t ∧ t.fault.valid = false ∧ t.fs.bound = true ∧ streamBits t.fs t.mem = 0 ∧
      (respValues (responses run b)).length = symbolCount w b.mem.sq.length := by
  intro run
  have hbits : streamBits b.fs b.mem = 8 * b.mem.sq.length := by simp [streamBits, hfs, Splitter.bind]
  obtain ⟨t, hrun, htf, htb, hleft, hresp, hlen⟩ :=
    runAll_fsNext (symbolCount w b.mem.sq.length) b (symbolWidth w) _ _ hf (by rw [hfs]; rfl)
      (hfs ▸ Splitter.bind_inv w) (by simp [hfs, Splitter.bind]) (by rw [hfs]; rfl) hbits rfl
  have hend : streamBits t.fs t.mem = 0 := by
    have := (lt_symbolCount_iff w b.mem.sq.length _).not.1 (Nat.lt_irrefl _)
    omega
  have hval : ∀ x ∈ responses run b, ∃ v : Value, x = 0x1000#16 ++ v := by
    intro x hx
    obtain ⟨j, hj, rfl⟩ := List.mem_iff_getElem.1 hx
    have hjm := hlen ▸ hj
    have hxj := hresp j hjm
    rw [List.getElem?_eq_getElem hj, if_pos ((lt_symbolCount_iff _ _ j).1 hjm), Option.some_inj] at hxj
    exact ⟨_, hxj⟩
  exact ⟨t, hrun, htf, htb, hend, (respValues_length_of_val hval).trans hlen⟩

/-- Settles O22: the run of `runAll_fsNext_symbolCount`, which leaves no bit buffered and no byte queued, and after it
the command at the end of the stream. -/
theorem splitterConservesWidth : Obligations.SplitterConservesWidth := by
  intro s w hf n m
  refine ⟨?_, ?_, ?_⟩
  · rintro rfl
    exact symbolCount_w4 n
  · rintro rfl
    have hm : m = (8 * n + 2) / 3 := rfl
    omega
  · obtain ⟨t, hrun, htf, htb, hend, hvals⟩ :=
      runAll_fsNext_symbolCount (b := { s with fs := Splitter.bind w }.respond .done 0 0) hf rfl
    have hsq : t.mem.sq = [] := List.eq_nil_of_length_eq_zero (by unfold streamBits at hend; omega)
    obtain ⟨u, hu, hend'⟩ := execFsNext_at_end htf htb hend
    exact ⟨_, t, u, execFsBind_eq hf w, hrun, hvals, hsq, hu, hend'⟩

end Sys2Proof.Machine
end

section
/-! The words of the packer commands (30_encoding.md rules R92, R96). -/

namespace Sys2Proof

/-- An encoded instruction is decoded by its own row, with the operands taken from its own word. -/
theorem decodeWord_encode_of_rowMatch {i : Instr} (h : Laws.RowMatch.Statement i) :
    decodeWord (encode i) = .ok ((Laws.RowMatch.cmdOf i).operands (encode i)) := by
  obtain ⟨r, hr, hcmd, haccepts⟩ := h
  rw [decodeWord_of_accepts hr haccepts, hcmd]

/-- A word with `sym` zero, written with one run of zeros below `ctx`. -/
theorem fieldsWord_zero_sym (op : BitVec 8) (ctx : CtxIdx) (imm : BitVec 16) :
    fieldsWord op ctx 0 imm = op ++ ctx ++ 0#4 ++ imm :=
  congrArg (· ++ imm) (BitVec.append_assoc (x₁ := op ++ ctx) (x₂ := 0#1) (x₃ := 0#3))

/-- The word of PK.CLR decodes to it (format C). -/
theorem decodeWord_pkClr (p : CtxIdx) : decodeWord (0x30#8 ++ p ++ 0#20) = .ok (.pkClr p) := by
  have henc : encode (.pkClr p) = 0x30#8 ++ p ++ 0#20 := by
    rw [encode, fieldsWord_zero_sym]
    exact BitVec.append_assoc (x₁ := 0x30#8 ++ p) (x₂ := 0#4) (x₃ := 0#16)
  rw [← henc, decodeWord_encode_of_rowMatch (Laws.RowMatch.pkClr p)]
  simp [Laws.RowMatch.cmdOf, Cmd.operands, encode]

/-- The word of PK.PUSH decodes to it (format CS). -/
theorem decodeWord_pkPush (p : CtxIdx) (y : Symbol) :
    decodeWord (0x31#8 ++ p ++ 0#1 ++ y ++ 0#16) = .ok (.pkPush p y) := by
  have henc : encode (.pkPush p y) = 0x31#8 ++ p ++ 0#1 ++ y ++ 0#16 := rfl
  rw [← henc, decodeWord_encode_of_rowMatch (Laws.RowMatch.pkPush p y)]
  simp [Laws.RowMatch.cmdOf, Cmd.operands, encode]

/-- The word of PK.COPY decodes to it (format CC). -/
theorem decodeWord_pkCopy (d q : CtxIdx) : decodeWord (0x32#8 ++ d ++ 0#16 ++ q) = .ok (.pkCopy d q) := by
  have henc : encode (.pkCopy d q) = 0x32#8 ++ d ++ 0#16 ++ q := by
    rw [encode, fieldsWord_zero_sym]
    calc 0x32#8 ++ d ++ 0#4 ++ (0#12 ++ q) = 0x32#8 ++ d ++ 0#4 ++ 0#12 ++ q :=
          (BitVec.append_assoc (x₁ := 0x32#8 ++ d ++ 0#4) (x₂ := 0#12) (x₃ := q)).symm
      _ = 0x32#8 ++ d ++ 0#16 ++ q :=
          congrArg (· ++ q) (BitVec.append_assoc (x₁ := 0x32#8 ++ d) (x₂ := 0#4) (x₃ := 0#12))
  have hq : (encode (.pkCopy d q)).extractLsb' 0 4 = q := by
    rw [henc]
    exact BitVec.extractLsb'_append_eq_right
  rw [← henc, decodeWord_encode_of_rowMatch (Laws.RowMatch.pkCopy d q), Laws.RowMatch.cmdOf, Cmd.operands, hq]
  simp [encode]

end Sys2Proof
end

section
/-! The packer commands (41_packer.md rules R142, R143, R144). -/

namespace Sys2Proof.Machine

/-- Settles O25: the context that exists is written with the fresh packer, the one that does not raises BAD_CTX. -/
theorem pkClrMakesAFreshPacker : Obligations.PkClrMakesAFreshPacker := by
  intro s p hf
  exact ⟨decodeWord_pkClr p,
    fun hp => ⟨_, execPkClr_eq hf hp, rfl, by simp [Packer.cleared], fun q hq => by simp [State.setPk_pk_ne s hq], rfl⟩,
    fun hp => execPkClr_badCtx hf hp⟩

/-- Settles O27: the destination is written with the source's contents, which changes nothing when the two are one
context; a context that does not exist raises BAD_CTX. -/
theorem pkCopyCopiesAContext : Obligations.PkCopyCopiesAContext := by
  intro s d q hf
  refine ⟨decodeWord_pkCopy d q, fun hd hq => ⟨_, execPkCopy_eq hf hd hq, rfl, by simp,
    fun x hx => by simp [State.setPk_pk_ne s hx], rfl, ?_⟩, fun hbad => execPkCopy_badCtx hf hbad⟩
  rintro rfl
  rw [State.setPk_self]
  rfl

/-- PK.PUSH that completes no byte answers NONE. -/
@[simp] theorem packRespond_none_resp (s : State) : (packRespond none s).resp = respWord .noByte 0 0 := rfl

/-- PK.PUSH that completes a byte answers it as a VAL. -/
@[simp] theorem packRespond_some_resp (b : Byte) (s : State) :
    (packRespond (some b) s).resp = respWord .val 0 (BitVec.ofNat 16 b.toNat) := by
  rw [BitVec.ofNat_toNat]
  rfl

/-- Settles O26: the two ways `PackStep` goes, each with its numbers (R147). -/
theorem pkPushPacksOneSymbol : Obligations.PkPushPacksOneSymbol := by
  intro s p y hf hi combined n
  refine ⟨decodeWord_pkPush p y, fun hp => ⟨_, execPkPush_eq hf hp y, fun q hq => ?_, ?_, fun hn => ?_, fun hn => ?_⟩,
    fun hp => execPkPush_badCtx hf hp y⟩
  · rw [packRespond_pk, State.setPk_pk_ne s hq]
  · cases (packStep (s.pk p) y).1 <;> rfl
  · obtain ⟨hnone, hstored, hbits⟩ := packStep_none hi y hn
    rw [packRespond_pk, State.setPk_pk_same, hnone]
    exact ⟨rfl, hstored, hbits⟩
  · obtain ⟨b, hsome, hb, hstored, hbits⟩ := packStep_some hi y hn
    rw [packRespond_pk, State.setPk_pk_same, hsome, packRespond_some_resp, respWord_val, hb]
    exact ⟨rfl, hstored, hbits⟩

end Sys2Proof.Machine
end

section
/-! The round trip of the splitter and the packer (41_packer.md rule R145). -/

namespace Sys2Proof.Machine

/-! ### The values of responses -/

theorem respWord_kind (k : RespKind) (y : Symbol) (v : Value) : (respWord k y v).extractLsb' 28 4 = k.bits := by
  rw [respWord, BitVec.append_assoc, BitVec.append_assoc]
  exact BitVec.extractLsb'_append_eq_left

theorem respWord_value (k : RespKind) (y : Symbol) (v : Value) : (respWord k y v).extractLsb' 0 16 = v :=
  BitVec.extractLsb'_append_eq_right

/-- A VAL response gives its value. -/
theorem respValues_cons_val (y : Symbol) (v : Value) (ws : List Word) :
    respValues (respWord .val y v :: ws) = v :: respValues ws := by
  simp [respValues, respWord_kind, respWord_value]

/-- A response of another kind gives no value. -/
theorem respValues_cons_of_ne_val {k : RespKind} (hk : k ≠ .val) (y : Symbol) (v : Value) (ws : List Word) :
    respValues (respWord k y v :: ws) = respValues ws := by
  have hbits : (k.bits == RespKind.val.bits) = false := by
    cases k with
    | val => exact absurd rfl hk
    | done | endOfSeq | noByte | fault => rfl
  simp [respValues, respWord_kind, hbits]

/-! ### What a sequence of PK.PUSH answers -/

/-- The first `k` bytes of a stream with value `v`, least significant first, as values. -/
def streamByteValues : Nat → Nat → List Value
  | 0, _ => []
  | k + 1, v => BitVec.ofNat 16 (v % 256) :: streamByteValues k (v / 256)

/-- The bytes of the number of a byte string are that string (20_memory.md rule R69). -/
theorem streamByteValues_streamNumber (bs : List Byte) :
    streamByteValues bs.length (streamNumber bs) = bs.map (fun b => b.setWidth 16) := by
  induction bs with
  | nil => rfl
  | cons b bs ih =>
    have hb : b.toNat < 256 := b.isLt
    have hmod : (b.toNat + 256 * streamNumber bs) % 256 = b.toNat := by omega
    have hdiv : (b.toNat + 256 * streamNumber bs) / 256 = streamNumber bs := by omega
    rw [streamNumber, List.length_cons, streamByteValues, hmod, hdiv, ih, BitVec.ofNat_toNat, List.map_cons]

/-- The number in front of a packer: what it has buffered, with the symbols still to come above it (R147, R148). -/
def pendingNumber (p : Packer) (a : List Symbol) : Nat := p.stored.toNat + symbolNumber a * 2 ^ p.bits.toNat

/-- A step that completes no byte keeps the number in front of the packer. -/
theorem pendingNumber_packStep_none {p : Packer} (hi : p.Inv) (y : Symbol) (a : List Symbol)
    (h : p.bits.toNat + 3 < 8) : pendingNumber (packStep p y).2 a = pendingNumber p (y :: a) := by
  obtain ⟨-, hstored, hbits⟩ := packStep_none hi y h
  rw [pendingNumber, pendingNumber, hstored, hbits, symbolNumber, Nat.pow_add]
  ring

/-- A step that completes a byte takes the low byte of the number in front of the packer. -/
theorem pendingNumber_packStep_some {p : Packer} (hi : p.Inv) (y : Symbol) (a : List Symbol)
    (h : 8 ≤ p.bits.toNat + 3) :
    ∃ b : Byte, (packStep p y).1 = some b ∧ b.toNat = pendingNumber p (y :: a) % 256 ∧
      pendingNumber (packStep p y).2 a = pendingNumber p (y :: a) / 256 := by
  obtain ⟨b, hsome, hb, hstored, hbits⟩ := packStep_some hi y h
  have hsplit : pendingNumber p (y :: a) =
      p.stored.toNat + y.toNat * 2 ^ p.bits.toNat + 256 * (symbolNumber a * 2 ^ (p.bits.toNat + 3 - 8)) := by
    have hpow : 8 * 2 ^ p.bits.toNat = 256 * 2 ^ (p.bits.toNat + 3 - 8) := by
      rw [show (8 : Nat) = 2 ^ 3 from rfl, show (256 : Nat) = 2 ^ 8 from rfl, ← Nat.pow_add, ← Nat.pow_add]
      congr 1
      omega
    rw [pendingNumber, symbolNumber]
    linear_combination symbolNumber a * hpow
  refine ⟨b, hsome, ?_, ?_⟩
  · rw [hb, hsplit, Nat.add_mul_mod_self_left]
  · rw [pendingNumber, hstored, hbits, hsplit, Nat.add_mul_div_left _ _ (by decide)]

/-- The values that a sequence of PK.PUSH answers are the whole bytes of the number in front of the packer. -/
theorem respValues_pkPush (p : CtxIdx) (a : List Symbol) (s : State) (hf : s.fault.valid = false)
    (hp : p.toNat < s.cfg.npk) (hi : (s.pk p).Inv) :
    respValues (responses (a.map (fun y => .pkPush p y)) s) =
      streamByteValues (((s.pk p).bits.toNat + 3 * a.length) / 8) (pendingNumber (s.pk p) a) := by
  induction a generalizing s with
  | nil =>
    have hlt := (s.pk p).bits.isLt
    rw [show ((s.pk p).bits.toNat + 3 * ([] : List Symbol).length) / 8 = 0 by simp; omega]
    rfl
  | cons y a ih =>
    have hx := execPkPush_eq hf hp y
    rw [List.map_cons, responses_cons hx, List.length_cons]
    have ih' := ih (packRespond (packStep (s.pk p) y).1 (s.setPk p (packStep (s.pk p) y).2)) (by simpa using hf)
      (by simpa using hp) (by simpa using packStep_inv hi y)
    rw [packRespond_pk, State.setPk_pk_same] at ih'
    by_cases h : (s.pk p).bits.toNat + 3 < 8
    · obtain ⟨hnone, -, hbits⟩ := packStep_none hi y h
      rw [pendingNumber_packStep_none hi y a h, hbits, hnone] at ih'
      rw [hnone, packRespond_none_resp, respValues_cons_of_ne_val (by decide), ih']
      congr 2
      omega
    · have h8 : 8 ≤ (s.pk p).bits.toNat + 3 := by omega
      obtain ⟨-, -, -, -, hbits⟩ := packStep_some hi y h8
      obtain ⟨b, hsome, hb, hrest⟩ := pendingNumber_packStep_some hi y a h8
      rw [hrest, hbits, hsome] at ih'
      rw [hsome, packRespond_some_resp, respValues_cons_val, ih', hb,
        show ((s.pk p).bits.toNat + 3 * (a.length + 1)) / 8 =
          ((s.pk p).bits.toNat + 3 - 8 + 3 * a.length) / 8 + 1 by omega, streamByteValues]

/-! ### The number of the octal symbols -/

theorem streamNumber_lt (bs : List Byte) : streamNumber bs < 2 ^ (8 * bs.length) := by
  induction bs with
  | nil => decide
  | cons b bs ih =>
    have hb : b.toNat < 256 := b.isLt
    rw [streamNumber, List.length_cons, Nat.mul_succ, Nat.pow_add]
    omega

/-- The 3-bit symbols of a stream are its octal digits. -/
theorem symbolNumber_streamSymbols (n v : Nat) (h : v < 2 ^ n) : symbolNumber (streamSymbols n v) = v := by
  induction n using Nat.strong_induction_on generalizing v with
  | _ n ih =>
    rcases Nat.eq_zero_or_pos n with rfl | hn
    · rw [streamSymbols_zero, symbolNumber]
      omega
    · have hrest : v / 8 < 2 ^ (n - 3) := by
        rw [Nat.div_lt_iff_lt_mul (by decide), show (8 : Nat) = 2 ^ 3 from rfl, ← Nat.pow_add]
        exact h.trans_le (Nat.pow_le_pow_right (by decide) (by omega))
      rw [streamSymbols_succ hn, symbolNumber, ih (n - 3) (by omega) (v / 8) hrest, BitVec.toNat_ofNat]
      omega

/-- The octal symbols of a byte string have the number of the string (20_memory.md rule R69, 41_packer.md R148). -/
theorem symbolNumber_octalSymbols (bs : List Byte) : symbolNumber (octalSymbols bs) = streamNumber bs := by
  rw [octalSymbols_eq]
  exact symbolNumber_streamSymbols _ _ (streamNumber_lt bs)

/-- PK.CLR answers DONE and leaves a state in which its context is fresh and commands still run. -/
theorem execPkClr_cleared {s : State} {p : CtxIdx} (hf : s.fault.valid = false) (hp : p.toNat < s.cfg.npk) :
    ∃ c, exec (.pkClr p) s = .next c ∧ c.resp = respWord .done 0 0 ∧ c.fault.valid = false ∧ p.toNat < c.cfg.npk ∧
      c.pk p = Packer.cleared :=
  ⟨_, execPkClr_eq hf hp, rfl, hf, hp, by simp⟩

/-- Settles O29: the run completes by `runAll_pkPush`, and its values are the whole bytes of the number of the octal
symbols, which is the number of the string. -/
theorem packerInvertsTheSplitter : Obligations.PackerInvertsTheSplitter := by
  intro s p bytes hf hp prog
  obtain ⟨c, hclr, hdone, hcf, hcp, hpk⟩ := execPkClr_cleared hf hp
  obtain ⟨t, hrun, -⟩ := runAll_pkPush p (octalSymbols bytes) c hcf hcp hpk
  have hnumber : pendingNumber Packer.cleared (octalSymbols bytes) = streamNumber bytes := by
    simp [pendingNumber, Packer.cleared, symbolNumber_octalSymbols]
  have hcount : (Packer.cleared.bits.toNat + 3 * (octalSymbols bytes).length) / 8 = bytes.length := by
    rw [octalSymbols_eq, streamSymbols_length, show Packer.cleared.bits.toNat = 0 from rfl]
    omega
  refine ⟨t, (runAll_cons hclr _).trans hrun, ?_⟩
  rw [responses_cons hclr, hdone, respValues_cons_of_ne_val (by decide),
    respValues_pkPush p _ c hcf hcp (hpk ▸ Packer.cleared_inv), hpk, hnumber, hcount, streamByteValues_streamNumber]

end Sys2Proof.Machine
end

section
/-! The words of the trie commands (30_encoding.md rules R92, R96). -/

namespace Sys2Proof

/-- The word of TR.NAV decodes to it (format AS). -/
theorem decodeWord_trNav (a : NodeAddr) (y : Symbol) : decodeWord (0x02#8 ++ 0#5 ++ y ++ a) = .ok (.trNav a y) := by
  have henc : encode (.trNav a y) = 0x02#8 ++ 0#5 ++ y ++ a := rfl
  rw [← henc, decodeWord_encode_of_rowMatch (Laws.RowMatch.trNav a y)]
  simp [Laws.RowMatch.cmdOf, Cmd.operands, encode]

/-- The word of TR.CNT decodes to it (format A). -/
theorem decodeWord_trCnt (a : NodeAddr) : decodeWord (0x03#8 ++ 0#8 ++ a) = .ok (.trCnt a) := by
  have henc : encode (.trCnt a) = 0x03#8 ++ 0#8 ++ a := rfl
  rw [← henc, decodeWord_encode_of_rowMatch (Laws.RowMatch.trCnt a)]
  simp [Laws.RowMatch.cmdOf, Cmd.operands, encode]

end Sys2Proof
end

section
/-! TR.NEW, TR.NAV and TR.CNT (42_trie.md rules R157, R158, R159). -/

namespace Sys2Proof.Machine

/-- Settles O33: the root by the law of the trie just created, each enumerator by the law of `closeAll`. -/
theorem trNewLeavesTheRootAlone : Obligations.TrNewLeavesTheRootAlone := by
  intro s hf
  have hroot : ∀ y, s.mem.newTrie.nodeRead 0 y = some absent := fun y => s.mem.newTrie_nodeRead 0 y
  exact ⟨by decide, _, execTrNew_eq hf, rfl, rfl, hroot, fun e _ => State.closeAll_en _ e, rfl⟩

section navigate
variable {cfg : Config} {m : Memory} {a : NodeAddr} {y : Symbol}

/-- `Navigate` follows a child that exists and changes nothing. -/
theorem navigate_of_child {v : SlotWord} (hr : m.nodeRead a y = some v) (hv : v ≠ absent) :
    navigate cfg m a y = .addr v m := by
  simp [navigate, hr, hv]

/-- `Navigate` finds the arena full where it would create a node. -/
theorem navigate_of_full (hr : m.nodeRead a y = some absent) (hs : m.size = cfg.nodeMax) :
    navigate cfg m a y = .full := by
  simp [navigate, hr, hs]

/-- `Navigate` creates the child that is absent when there is room. -/
theorem navigate_of_absent (hr : m.nodeRead a y = some absent) (hs : m.size ≠ cfg.nodeMax) :
    navigate cfg m a y = .addr m.newAddr (m.grown a y) := by
  simp [navigate, hr, hs, Memory.grown]

end navigate

/-- Settles O34: the ways `Navigate` goes, and every slot after its allocation path. -/
theorem trNavFollowsOrCreatesTheChild : Obligations.TrNavFollowsOrCreatesTheChild := by
  intro s a y hf hl
  refine ⟨decodeWord_trNav a y, fun ha => execTrNav_badAddr hf ha y,
    fun v hr hv => execTrNav_addr hf (navigate_of_child hr hv),
    fun hr hs => execTrNav_full hf (navigate_of_full hr hs), fun hr hs => ?_⟩
  have hmax : s.cfg.nodeMax ≤ 65535 := hl.1.2
  have ha : a.toNat < s.mem.size := Memory.lt_size_of_nodeRead hr
  have hread := Memory.nodeRead_grown ha (by omega) y
  have haddr : s.mem.newAddr.toNat = s.mem.size := Memory.newAddr_toNat (by omega)
  have hne : a ≠ s.mem.newAddr := by
    rintro rfl
    omega
  refine ⟨_, s.mem.newAddr, execTrNav_addr hf (navigate_of_absent hr hs.ne), haddr, rfl, s.mem.grown_size a y, ?_,
    fun z => ?_, fun b z hb hslot => ?_, rfl⟩
  · exact (hread a y).trans (by rw [if_neg hne, if_pos ⟨rfl, rfl⟩])
  · exact (hread s.mem.newAddr z).trans (if_pos rfl)
  · exact (hread b z).trans (by rw [if_neg hb, if_neg (not_and_or.2 hslot)])

/-- The count of TR.CNT is the number of symbols whose slot is not absent (42_trie.md rule R159). -/
theorem childCount_eq_card (n : Node) :
    childCount n = (Finset.univ.filter (fun y : Symbol => n.slot y ≠ absent)).card := by
  have hfilter : Finset.univ.filter (fun y : Symbol => n.slot y ≠ absent) =
      (allSymbols.filter (fun y => n.slot y != absent)).toFinset := by
    ext y
    simp [mem_allSymbols]
  rw [hfilter, List.toFinset_card_of_nodup (allSymbols_nodup.filter _), childCount, List.countP_eq_length_filter]

/-- Settles O35: the node exists and its slots are counted, or it does not and BAD_ADDR is raised. -/
theorem trCntCountsTheChildren : Obligations.TrCntCountsTheChildren := by
  intro s a hf
  refine ⟨decodeWord_trCnt a, fun ha => execTrCnt_badAddr hf ha, fun ha => ?_⟩
  obtain ⟨n, hn⟩ := Memory.exists_node ha
  refine ⟨childCount n, ?_, childCount_le n, execTrCnt_eq hf hn⟩
  simp [childCount_eq_card, Memory.nodeRead_of_getElem hn]

end Sys2Proof.Machine
end

section
/-! TR.ADDS and the sharing of common beginnings (42_trie.md rules R162, R163; 60_exceptions.md rule R205). -/

namespace Sys2Proof.Machine

/-- The loop of TR.ADDS on a queue of bytes: the path of its symbols inserted from the root, and the queue emptied, or
short of the bytes pulled up to the step that found the arena full. -/
theorem addsLoop_octalSymbols {cfg : Config} {m : Memory} (hl : cfg.nodeMax ≤ 65535) (hi : ArenaInv cfg m)
    {left : List Symbol} {m' : Memory} (hins : insertPath cfg (octalSymbols m.sq) 0 m = (left, m')) :
    (left = [] → addsLoop cfg (addsFuel m) (Splitter.bind .w3) 0 m = .done { nodes := m'.nodes, sq := [] }) ∧
    (left ≠ [] → addsLoop cfg (addsFuel m) (Splitter.bind .w3) 0 m = .full {
      nodes := m'.nodes
      sq := m.sq.drop (min m.sq.length ((3 * ((octalSymbols m.sq).length - left.length + 1) + 7) / 8)) }) := by
  have hbits : streamBits (Splitter.bind .w3) m = 8 * m.sq.length := by simp [streamBits, Splitter.bind]
  have hvalue : streamValue (Splitter.bind .w3) m = streamNumber m.sq := by simp [streamValue, Splitter.bind]
  have hloop := addsLoop_insertPath cfg (3 * m.sq.length) (Splitter.bind .w3) 0 m (Splitter.bind_inv .w3) rfl
    (by simp [Splitter.bind]) (by omega) _ rfl
  rw [hbits, hvalue, ← octalSymbols_eq, hins] at hloop
  obtain ⟨hdone, hfull⟩ := hloop
  refine ⟨hdone, fun hne => ?_⟩
  obtain ⟨-, -, hnode⟩ := addsLoop_arena hl hi (addsFuel m) (Splitter.bind .w3)
  rw [addsFuel, (hfull hne).resolve_left hnode]
  congr 3
  simp only []
  omega

/-- Settles O36: the loop of TR.ADDS makes the navigate steps of the path, and each of its two ends is answered by
`exec`. -/
theorem trAddsInsertsTheSymbolPath : Obligations.TrAddsInsertsTheSymbolPath := by
  intro s hi hf bytes path left nodes k
  obtain ⟨hdone, hfull⟩ := addsLoop_octalSymbols hi.legal.1.2 hi.arena (Prod.eta _).symm
  exact ⟨by decide, fun h => execTrAdds_done hf (hdone h), fun h => execTrAdds_full hf (hfull h)⟩

/-- A TR.ADDS that raises no fault has inserted the whole path of its string. -/
theorem insertPath_of_trAdds {s t : State} (hi : s.Inv) (hf : s.fault.valid = false) (hexec : exec .trAdds s = .next t)
    (hft : t.fault.valid = false) :
    ∃ m, insertPath s.cfg (octalSymbols s.mem.sq) 0 s.mem = ([], m) ∧ t.mem.nodes = m.nodes := by
  obtain ⟨-, hdone, hfull⟩ := trAddsInsertsTheSymbolPath s hi hf
  have hleft : (insertPath s.cfg (octalSymbols s.mem.sq) 0 s.mem).1 = [] := by
    by_contra hne
    rw [hfull hne] at hexec
    cases hexec
    cases hft
  refine ⟨_, Prod.ext hleft rfl, ?_⟩
  rw [hdone hleft] at hexec
  cases hexec
  rfl

/-- The empty walk stays at its node. -/
theorem walk_nil_eq_some {m : Memory} {a b : NodeAddr} : walk m a [] = some b ↔ a.toNat < m.size ∧ a = b := by
  simp [walk]

/-- A walk takes its first symbol to a child and goes on from there. -/
theorem walk_cons_eq_some {m : Memory} {y : Symbol} {ys : List Symbol} {a b : NodeAddr} :
    walk m a (y :: ys) = some b ↔ ∃ v, m.nodeRead a y = some v ∧ v ≠ absent ∧ walk m v ys = some b := by
  rw [walk]
  cases m.nodeRead a y <;> simp

/-- Inserting a path that begins with one already in the arena creates nothing along that beginning. -/
theorem insertPath_of_walk {cfg : Config} {m : Memory} (q : List Symbol) :
    ∀ {p : List Symbol} {a b : NodeAddr}, walk m a p = some b → insertPath cfg (p ++ q) a m = insertPath cfg q b m
  | [], _, _, h => by rw [(walk_nil_eq_some.1 h).2, List.nil_append]
  | y :: ys, _, _, h => by
    obtain ⟨v, hr, hv, hwalk⟩ := walk_cons_eq_some.1 h
    simp only [List.cons_append, insertPath, navigate_of_child hr hv]
    exact insertPath_of_walk q hwalk

/-- Settles O38: the path of the first string can be walked in the arena it leaves, so the second insertion begins where
the shared symbols end, and growth keeps what was walked. -/
theorem stringsShareTheirCommonPrefix : Obligations.StringsShareTheirCommonPrefix := by
  rintro s t u v shared hs hsf hst htf hu hut huf huv hvf ⟨rest, hrest⟩ ⟨q, hq⟩
  obtain ⟨m, hm, htm⟩ := insertPath_of_trAdds hs hsf hst htf
  obtain ⟨m', hm', hvm⟩ := insertPath_of_trAdds hu huf huv hvf
  have hwalks : ∀ pre, pre <+: shared → ∃ c, walk u.mem 0 pre = some c := by
    rintro _ ⟨post, rfl⟩
    obtain ⟨-, -, -, hwalk, -⟩ :=
      insertPath_arena hs.legal.1.2 (octalSymbols s.mem.sq) 0 s.mem hs.arena hs.arena.root
    obtain ⟨b, hb⟩ := hwalk (by rw [hm])
    rw [hm, ← hrest, List.append_assoc] at hb
    exact walk_prefix hu.arena hu.arena.root (walk_grows (.of_nodes (hut.trans htm)) hb)
  have hback : u.mem.Grows t.mem := .of_nodes hut.symm
  obtain ⟨c, hc⟩ := hwalks shared ⟨[], List.append_nil shared⟩
  refine ⟨?_, fun pre hpre => ?_, ?_⟩
  · rw [walk_grows hback hc]
    rfl
  · obtain ⟨b, hb⟩ := hwalks pre hpre
    obtain ⟨-, hgrows, -⟩ := insertPath_arena hu.legal.1.2 (octalSymbols u.mem.sq) 0 u.mem hu.arena hu.arena.root
    rw [hm'] at hgrows
    rw [walk_grows hback hb, walk_grows (hgrows.trans (.of_nodes hvm)) hb]
  · obtain ⟨-, -, hsize, -⟩ := insertPath_arena hu.legal.1.2 q c u.mem hu.arena (walk_lt_size hc)
    rw [← insertPath_of_walk q hc, hq, hm'] at hsize
    rw [← hq, List.length_append, Memory.size_congr hvm, ← Memory.size_congr hut]
    simp only at hsize
    omega

end Sys2Proof.Machine
end

section
/-! The words of the enumerator commands (30_encoding.md rules R92, R96). -/

namespace Sys2Proof

/-- A word with `sym` and `imm` zero, written with one run of zeros below `ctx` (format C). -/
theorem fieldsWord_zero_sym_imm (op : BitVec 8) (ctx : CtxIdx) : fieldsWord op ctx 0 0 = op ++ ctx ++ 0#20 :=
  (fieldsWord_zero_sym op ctx 0).trans (BitVec.append_assoc (x₁ := op ++ ctx) (x₂ := 0#4) (x₃ := 0#16))

/-- The word of EN.OPEN decodes to it (format CA). -/
theorem decodeWord_enOpen (e : CtxIdx) (a : NodeAddr) :
    decodeWord (0x10#8 ++ e ++ 0#4 ++ a) = .ok (.enOpen e a) := by
  have henc : encode (.enOpen e a) = 0x10#8 ++ e ++ 0#4 ++ a := fieldsWord_zero_sym 0x10 e a
  rw [← henc, decodeWord_encode_of_rowMatch (Laws.RowMatch.enOpen e a)]
  simp [Laws.RowMatch.cmdOf, Cmd.operands, encode]

/-- The word of EN.NEXT decodes to it (format C). -/
theorem decodeWord_enNext (e : CtxIdx) : decodeWord (0x11#8 ++ e ++ 0#20) = .ok (.enNext e) := by
  have henc : encode (.enNext e) = 0x11#8 ++ e ++ 0#20 := fieldsWord_zero_sym_imm 0x11 e
  rw [← henc, decodeWord_encode_of_rowMatch (Laws.RowMatch.enNext e)]
  simp [Laws.RowMatch.cmdOf, Cmd.operands, encode]

/-- The word of EN.CLOSE decodes to it (format C). -/
theorem decodeWord_enClose (e : CtxIdx) : decodeWord (0x12#8 ++ e ++ 0#20) = .ok (.enClose e) := by
  have henc : encode (.enClose e) = 0x12#8 ++ e ++ 0#20 := fieldsWord_zero_sym_imm 0x12 e
  rw [← henc, decodeWord_encode_of_rowMatch (Laws.RowMatch.enClose e)]
  simp [Laws.RowMatch.cmdOf, Cmd.operands, encode]

end Sys2Proof
end

section
/-! The enumerator commands (43_enumerator.md rules R176, R177, R178, R180). -/

namespace Sys2Proof.Machine

/-- A command that writes one enumerator context and answers leaves every other part of the state alone. -/
theorem State.setEn_respond_frame (s : State) (e : CtxIdx) (v : Enumerator) (k : RespKind) (y : Symbol) (w : Value) :
    let t := (s.setEn e v).respond k y w
    t.resp = respWord k y w ∧ t.en e = v ∧ (∀ x, x ≠ e → t.en x = s.en x) ∧
      t = { s with ens := t.ens, resp := t.resp } :=
  ⟨rfl, s.setEn_en_same e v, fun _ hx => s.setEn_en_ne hx v, rfl⟩

/-- Closing an enumeration that is not open leaves it as it is. -/
theorem Enumerator.close_of_not_open {en : Enumerator} (h : en.isOpen = false) : en.close = en := by
  rw [Enumerator.close, ← h]

/-- What a slot of a node that exists reads as. -/
theorem Memory.nodeRead_eq_some {m : Memory} {a : NodeAddr} {n : Node} (hn : m.nodes[a.toNat]? = some n) {y : Symbol}
    {v : SlotWord} : m.nodeRead a y = some v ↔ n.slot y = v := by
  rw [Memory.nodeRead_of_getElem hn, Option.some.injEq]

/-- Settles O42: the context exists or not, then the node exists or not, and the context that is opened is the one
written. -/
theorem enOpenStartsAnEnumeration : Obligations.EnOpenStartsAnEnumeration := by
  intro s e a hf
  exact ⟨decodeWord_enOpen e a, fun he => execEnOpen_badCtx hf he a, fun he ha => execEnOpen_badAddr hf he ha,
    fun he ha => ⟨_, execEnOpen_eq hf he ha, s.setEn_respond_frame e _ .done 0 0⟩⟩

/-- Settles O43: the scan of the node's slots from `pos` finds the symbol described, or finds none. -/
theorem enNextYieldsTheNextPair : Obligations.EnNextYieldsTheNextPair := by
  intro s e hf a pos
  refine ⟨decodeWord_enNext e, fun he => execEnNext_badCtx hf he, fun he ho => execEnNext_notOpen hf he ho,
    fun y v he ho hy hr hv hlow => ?_, fun he ho ha hall => ?_⟩
  · obtain ⟨n, hn⟩ := Memory.exists_node (Memory.lt_size_of_nodeRead hr)
    obtain rfl : n.slot y = v := (Memory.nodeRead_eq_some hn).1 hr
    have hscan : nextChild n (s.en e).pos = some y :=
      nextChild_eq_some.2 ⟨hy, hv, fun z hz hzy => (Memory.nodeRead_eq_some hn).1 (hlow z hz hzy)⟩
    have hpos : y.setWidth 4 + 1 = BitVec.ofNat 4 (y.toNat + 1) := by
      rw [BitVec.ofNat_add, BitVec.ofNat_toNat]
      rfl
    rw [← hpos]
    exact ⟨_, execEnNext_pair hf he ho hn hscan, s.setEn_respond_frame e _ .val y (n.slot y)⟩
  · obtain ⟨n, hn⟩ := Memory.exists_node ha
    have hscan : nextChild n (s.en e).pos = none :=
      nextChild_eq_none.2 fun z hz => (Memory.nodeRead_eq_some hn).1 (hall z hz)
    exact ⟨_, execEnNext_end hf he ho hn hscan, s.setEn_respond_frame e _ .endOfSeq 0 0⟩

/-- Settles O44: the context is written with itself closed, which is itself when it was not open. -/
theorem enCloseDropsTheEnumeration : Obligations.EnCloseDropsTheEnumeration := by
  intro s e hf
  refine ⟨decodeWord_enClose e, fun he => ?_, fun he => execEnClose_badCtx hf he⟩
  obtain ⟨hresp, hsame, hothers, hframe⟩ := s.setEn_respond_frame e (s.en e).close .done 0 0
  refine ⟨_, execEnClose_eq hf he, hresp, hsame, hothers, hframe, fun ho => ?_⟩
  rw [Enumerator.close_of_not_open ho, State.setEn_self]
  rfl

/-- What a command does to the enumerators: nothing, beside an answer or a fault; one write, to the context it names;
or, from another unit, nothing unless it is TR.NEW. -/
theorem exec_enumerators {i : Instr} {s t : State} (h : exec i s = .next t) :
    (∃ r f, t = { s with resp := r, fault := f }) ∨
    (∃ e v r, enumeratorNamed i = some e ∧ t = { s.setEn e v with resp := r }) ∨
    (enumeratorNamed i = none ∧ (i = .trNew ∨ t.ens = s.ens)) := by
  rcases exec_cases h with ⟨-, rfl⟩ | ⟨-, ⟨c, rfl⟩ | ⟨rfl, -⟩ | ⟨a, y, c, m, rfl, -, rfl⟩ | ⟨a, n, rfl, -, rfl⟩ |
    ⟨m, rfl, -, rfl⟩ | ⟨m, rfl, -, rfl⟩ | ⟨e, a, rfl, -, -, rfl⟩ | ⟨e, n, y, rfl, -, -, -, -, rfl⟩ |
    ⟨e, n, rfl, -, -, -, -, rfl⟩ | ⟨e, rfl, -, rfl⟩ | ⟨w, rfl, rfl⟩ | ⟨rfl, -, rfl⟩ | ⟨b, rfl, -, rfl⟩ |
    ⟨rfl, rfl⟩ | ⟨p, rfl, -, rfl⟩ | ⟨p, y, rfl, -, rfl⟩ | ⟨d, q, rfl, -, -, rfl⟩ | ⟨n, x, r, rfl, -, rfl⟩⟩
  · exact .inl ⟨_, _, rfl⟩
  · exact .inl ⟨_, _, rfl⟩
  · exact .inr (.inr ⟨rfl, .inl rfl⟩)
  -- the other ways of the trie unit, then the writes of the EN commands, then the other units
  iterate 4 exact .inr (.inr ⟨rfl, .inr rfl⟩)
  iterate 4 exact .inr (.inl ⟨e, _, _, rfl, rfl⟩)
  all_goals exact .inr (.inr ⟨rfl, .inr (by simp)⟩)

/-- Settles O47: the three things `exec_enumerators` says a command can do. -/
theorem enumeratorsAreIndependent : Obligations.EnumeratorsAreIndependent := by
  intro i s t h
  rcases exec_enumerators h with ⟨r, f, rfl⟩ | ⟨e, v, r, hnamed, rfl⟩ | ⟨hnamed, hens⟩
  · exact ⟨fun _ _ _ => rfl, fun _ _ => ⟨fun _ _ => rfl, rfl⟩⟩
  · rw [hnamed]
    refine ⟨fun x hx _ => s.setEn_en_ne (fun hxe => hx (congrArg some hxe.symm)) v, ?_⟩
    rintro _ ⟨⟩
    exact ⟨fun x hx => s.setEn_en_ne hx v, rfl⟩
  · rw [hnamed]
    exact ⟨fun x _ hnew => State.en_congr (hens.resolve_left hnew) x, nofun⟩

end Sys2Proof.Machine
end

section
/-! The word of CSR.RD (30_encoding.md rules R92, R96). -/

namespace Sys2Proof

/-- The word of CSR.RD decodes to it (format R). -/
theorem decodeWord_csrRd (c : CsrNum) (x : CtxIdx) :
    decodeWord (0x40#8 ++ x ++ 0#12 ++ c) = .ok (.csrRd c x) := by
  have henc : encode (.csrRd c x) = 0x40#8 ++ x ++ 0#12 ++ c := by
    rw [encode, fieldsWord_zero_sym]
    calc 0x40#8 ++ x ++ 0#4 ++ (0#8 ++ c) = 0x40#8 ++ x ++ 0#4 ++ 0#8 ++ c :=
          (BitVec.append_assoc (x₁ := 0x40#8 ++ x ++ 0#4) (x₂ := 0#8) (x₃ := c)).symm
      _ = 0x40#8 ++ x ++ 0#12 ++ c :=
          congrArg (· ++ c) (BitVec.append_assoc (x₁ := 0x40#8 ++ x) (x₂ := 0#4) (x₃ := 0#8))
  have hc : (encode (.csrRd c x)).extractLsb' 0 8 = c := by
    rw [henc]
    exact BitVec.extractLsb'_append_eq_right
  rw [← henc, decodeWord_encode_of_rowMatch (Laws.RowMatch.csrRd c x), Laws.RowMatch.cmdOf, Cmd.operands, hc]
  simp [encode]

end Sys2Proof
end

section
/-! CSR.RD (44_system.md rule R190): its operand check by the scope of the register, and its answers. -/

namespace Sys2Proof.Machine

/-- FS_STAT as a sum of its fields, `bound` in bit 0, `exh` in bit 1, the width from bit 4 (10_state.md rule R45). -/
theorem Splitter.stat_eq_ofNat (fs : Splitter) :
    fs.stat = BitVec.ofNat 16
      ((if fs.bound then 1 else 0) + 2 * (if fs.exh then 1 else 0) + 16 * symbolWidth fs.w) := by
  rw [Splitter.stat]
  cases fs.w <;> cases fs.exh <;> cases fs.bound <;> decide

/-- EN_STAT as a sum of its fields, `open` in bit 0 and `pos` from bit 4 (10_state.md rule R45). -/
theorem Enumerator.stat_eq_ofNat (en : Enumerator) :
    en.stat = BitVec.ofNat 16 ((if en.isOpen then 1 else 0) + 16 * en.pos.toNat) := by
  rw [Enumerator.stat]
  generalize en.pos = pos
  cases en.isOpen <;> revert pos <;> decide

section csrOperand
variable {cfg : Config} {x : CtxIdx} {r : Csr}

theorem csrOperand_block (hr : csrScope r = .block) : csrOperand cfg r.number 0 = .ok r := by
  simp only [csrOperand_number, hr, if_true]

theorem csrOperand_packer (hr : csrScope r = .packer) (hx : x.toNat < cfg.npk) :
    csrOperand cfg r.number x = .ok r := by
  simp only [csrOperand_number, hr, if_pos hx]

theorem csrOperand_packer_bad (hr : csrScope r = .packer) (hx : cfg.npk ≤ x.toNat) :
    csrOperand cfg r.number x = .error .badCtx := by
  simp only [csrOperand_number, hr, if_neg (Nat.not_lt.2 hx)]

theorem csrOperand_enumerator (hr : csrScope r = .enumerator) (hx : x.toNat < cfg.nen) :
    csrOperand cfg r.number x = .ok r := by
  simp only [csrOperand_number, hr, if_pos hx]

theorem csrOperand_enumerator_bad (hr : csrScope r = .enumerator) (hx : cfg.nen ≤ x.toNat) :
    csrOperand cfg r.number x = .error .badCtx := by
  simp only [csrOperand_number, hr, if_neg (Nat.not_lt.2 hx)]

end csrOperand

/-- A register whose operand check passes is answered, and nothing else changes. -/
theorem execCsrRd_answers {s : State} {x : CtxIdx} {r : Csr} (hf : s.fault.valid = false)
    (hop : csrOperand s.cfg r.number x = .ok r) {v : Value} (hv : csrValue s x r = v) :
    exec (.csrRd r.number x) s = .next { s with resp := 0x1000#16 ++ v } := by
  rw [execCsrRd_eq hf hop, hv]
  rfl

/-- Settles O48: each register passes its operand check or fails it by its scope, and its content is that of the table
of R45, the two status registers as sums of their fields. -/
theorem csrRdAnswersTheRegister : Obligations.CsrRdAnswersTheRegister := by
  intro s x hf
  refine ⟨fun c => decodeWord_csrRd c x, fun c hc => ?unknown, fun hx r hr => ?blockContext, fun hx => ?block,
    fun hx => ?packer, fun hx => ?packerBad, fun hx => ?enumerator, fun hx => ?enumeratorBad⟩
  case unknown => exact execCsrRd_error hf (csrOperand_unknown s.cfg hc x)
  case blockContext => exact execCsrRd_error hf (csrOperand_block_context s.cfg hr hx)
  case block =>
    subst hx
    have answers (r : Csr) (hr : csrScope r = .block) {v : Value} (hv : csrValue s 0 r = v) :=
      execCsrRd_answers hf (csrOperand_block hr) hv
    exact ⟨answers .version rfl rfl, answers .cfgNodeMax rfl rfl, answers .cfgNpk rfl rfl, answers .cfgNen rfl rfl,
      answers .cfgSqDepth rfl rfl, answers .trSize rfl rfl, answers .fsStat rfl s.fs.stat_eq_ofNat,
      answers .fsRem rfl rfl, answers .fsBits rfl (BitVec.ofNat_toNat 16 s.fs.bits).symm, answers .sqLevel rfl rfl⟩
  case packer =>
    have answers (r : Csr) (hr : csrScope r = .packer) {v : Value} (hv : csrValue s x r = v) :=
      execCsrRd_answers hf (csrOperand_packer hr hx) hv
    exact ⟨answers .pkStored rfl (BitVec.ofNat_toNat 16 _).symm, answers .pkBits rfl (BitVec.ofNat_toNat 16 _).symm⟩
  case packerBad =>
    have badCtx (r : Csr) (hr : csrScope r = .packer) := execCsrRd_error hf (csrOperand_packer_bad hr hx)
    exact ⟨badCtx .pkStored rfl, badCtx .pkBits rfl⟩
  case enumerator =>
    have answers (r : Csr) (hr : csrScope r = .enumerator) {v : Value} (hv : csrValue s x r = v) :=
      execCsrRd_answers hf (csrOperand_enumerator hr hx) hv
    exact ⟨answers .enStat rfl (s.en x).stat_eq_ofNat, answers .enNode rfl rfl⟩
  case enumeratorBad =>
    have badCtx (r : Csr) (hr : csrScope r = .enumerator) := execCsrRd_error hf (csrOperand_enumerator_bad hr hx)
    exact ⟨badCtx .enStat rfl, badCtx .enNode rfl⟩

end Sys2Proof.Machine
end

section
/-! Faults (60_exceptions.md rules R203 to R206). -/

namespace Sys2Proof.Machine

/-! ### Refusing and raising -/

/-- A refusal answers with the code that is held and changes nothing else (60_exceptions.md rule R204). -/
theorem State.refuse_eq (s : State) : s.refuse = { s with resp := 0xF00000#24 ++ s.fault.code } := by
  rw [State.refuse, respWord_fault]

/-- Raising a fault writes `FAULT` and `RESP` (60_exceptions.md rule R203). -/
theorem State.raise_eq (s : State) (c : FaultCode) :
    s.raise c = { s with fault := { valid := true, code := c.number }, resp := 0xF00000#24 ++ c.number } := by
  rw [State.raise, respWord_fault]

/-- A word presented to the faulted block is refused before it is decoded (30_encoding.md rule R99 step 1). -/
theorem runWord_refused {s : State} (hf : s.fault.valid = true) (run : Instr → State → Result) (c : Word) :
    runWord run c s = .next s.refuse := by
  rw [runWord, if_pos hf]

/-- A step of the faulted block is reset or keeps `FAULT`. -/
theorem step_of_faulted {s t : State} (hf : s.fault.valid = true) (h : step s = .next t) :
    (∃ rest, s.host = .assertReset :: rest) ∨ t.fault = s.fault := by
  rcases step_cases h with ⟨-, rfl⟩ |
    ⟨a, rest, hhost, ⟨rfl, -⟩ | ⟨-, rfl⟩ | ⟨c, -, ⟨-, rfl⟩ | ⟨hf', -⟩ | ⟨hf', -⟩⟩⟩
  · exact .inr rfl
  · exact .inl ⟨rest, hhost⟩
  · exact .inr rfl
  · exact .inr rfl
  all_goals exact absurd hf (by simp [hf'])

/-- Settles O9: a presented word is refused (`runWord_refused`), and a step that does not keep `FAULT` is reset
(`step_of_faulted`). -/
theorem faultedBlockRefusesEveryWord : Obligations.FaultedBlockRefusesEveryWord := by
  intro s a rest hhost hf
  refine ⟨?_, fun t hstep ht => ?_⟩
  · rintro c rfl
    rw [step_present hhost, runWord_refused (s := { s with host := rest }) hf, State.refuse_eq]
  · rcases step_of_faulted hf hstep with ⟨rest', hreset⟩ | hkeep
    · exact (List.cons.inj (hhost.symm.trans hreset)).1
    · rw [hkeep, hf] at ht
      cases ht

/-! ### What a command does to `FAULT` -/

/-- A command that starts without a fault leaves `FAULT` alone, raises a fault before any effect, or is TR.ADDS raising
CAPACITY with the memory of the steps it made (60_exceptions.md rule R205). -/
theorem exec_fault_cases {i : Instr} {s t : State} (hf : s.fault.valid = false) (h : exec i s = .next t) :
    t.fault = s.fault ∨ (∃ c, t = s.raise c) ∨ (i = .trAdds ∧ ∃ m, t = { s with mem := m }.raise .capacity) := by
  rcases exec_cases h with ⟨hf', -⟩ | ⟨-, ⟨c, rfl⟩ | ⟨-, rfl⟩ | ⟨a, y, c, m, -, -, rfl⟩ | ⟨a, n, -, -, rfl⟩ |
    ⟨m, -, -, rfl⟩ | ⟨m, rfl, -, rfl⟩ | ⟨e, a, -, -, -, rfl⟩ | ⟨e, n, y, -, -, -, -, -, rfl⟩ |
    ⟨e, n, -, -, -, -, -, rfl⟩ | ⟨e, -, -, rfl⟩ | ⟨w, -, rfl⟩ | ⟨-, -, rfl⟩ | ⟨b, -, -, rfl⟩ |
    ⟨-, rfl⟩ | ⟨p, -, -, rfl⟩ | ⟨p, y, -, -, rfl⟩ | ⟨d, q, -, -, -, rfl⟩ | ⟨n, x, r, -, -, rfl⟩⟩
  · exact absurd hf' (by simp [hf])
  · exact .inr (.inl ⟨c, rfl⟩)
  -- the ways the trie unit answers, then CAPACITY of TR.ADDS, then the ways the other units answer
  iterate 4 exact .inl rfl
  · exact .inr (.inr ⟨rfl, m, rfl⟩)
  all_goals exact .inl (by simp)

/-- Settles O49: each of the ways `exec_fault_cases` gives keeps `FAULT` or is an entry of `State.raise`. -/
theorem faultEntry : Obligations.FaultEntry := by
  refine ⟨State.raise_eq, fun i s t hf h => ?_⟩
  rcases exec_fault_cases hf h with hkeep | ⟨c, rfl⟩ | ⟨-, m, rfl⟩
  · exact .inl hkeep
  · exact .inr ⟨c, rfl, respWord_fault c.number⟩
  · exact .inr ⟨.capacity, rfl, rfl⟩

/-! ### Precision -/

/-- The symbols followed before the arena was found full insert what the whole path inserted, and leave the queue
alone. -/
theorem insertPath_take {cfg : Config} {p left : List Symbol} {a : NodeAddr} {m m' : Memory}
    (h : insertPath cfg p a m = (left, m')) :
    insertPath cfg (p.take (p.length - left.length)) a m = ([], { m with nodes := m'.nodes }) := by
  obtain ⟨pre, hp, hpre⟩ := insertPath_split cfg p a m
  have hsq : (insertPath cfg p a m).2.sq = m.sq := insertPath_sq cfg p a m
  rw [h] at hp hpre hsq
  have htake : p.take (p.length - left.length) = pre := by simp [hp]
  rw [htake, hpre, ← hsq]

/-- Settles O51: a fault other than that of TR.ADDS is raised on the state before the command, and TR.ADDS that faults
has a part of its path left, so it has made the steps of the part before (`insertPath_take`). -/
theorem faultsArePrecise : Obligations.FaultsArePrecise := by
  refine ⟨fun i s t hf hi h ht => ?_, fun s t hi hf h ht => ?_⟩
  · rcases exec_fault_cases hf h with hkeep | ⟨c, rfl⟩ | ⟨rfl, -⟩
    · rw [hkeep, hf] at ht
      cases ht
    · rfl
    · exact absurd rfl hi
  · obtain ⟨-, hdone, hfull⟩ := trAddsInsertsTheSymbolPath s hi hf
    have hle := insertPath_length s.cfg (octalSymbols s.mem.sq) 0 s.mem
    rcases hins : insertPath s.cfg (octalSymbols s.mem.sq) 0 s.mem with ⟨left, m⟩
    simp only [hins] at hdone hfull hle
    have hleft : left ≠ [] := fun hnil => by
      rw [hdone hnil] at h
      cases h
      rw [hf] at ht
      cases ht
    have hpos : 0 < left.length := List.length_pos_iff.2 hleft
    rw [hfull hleft] at h
    obtain rfl := Host.Outcome.next.inj h
    have hsteps := insertPath_take hins
    exact ⟨(octalSymbols s.mem.sq).length - left.length + 1, by omega, by omega, hsteps, rfl, rfl⟩

/-! ### Priority -/

/-- The context range of a CSR operand, by the scope of the CSR the number names (10_state.md rule R45). -/
theorem csrRd_ctxInRange_number (cfg : Config) (r : Csr) (x : CtxIdx) :
    (Instr.csrRd r.number x).ctxInRange cfg =
      match csrScope r with
      | .block => true
      | .packer => decide (x.toNat < cfg.npk)
      | .enumerator => decide (x.toNat < cfg.nen) := by
  cases r <;> simp [Instr.ctxInRange, packerCsrNumbers, enumeratorCsrNumbers, Csr.number, csrScope]

/-- A legal CSR operand whose context does not exist fails its check with BAD_CTX (30_encoding.md rule R99 step 4). -/
theorem csrOperand_eq_badCtx {cfg : Config} {n : CsrNum} {x : CtxIdx} (hl : (Instr.csrRd n x).isLegal = true)
    (hc : (Instr.csrRd n x).ctxInRange cfg = false) : csrOperand cfg n x = .error .badCtx := by
  obtain ⟨r, rfl⟩ : ∃ r : Csr, r.number = n := by
    by_contra hunknown
    exact (csrRd_isLegal_iff cfg n x).1 hl (csrOperand_unknown cfg (not_exists.1 hunknown) x)
  rw [csrRd_ctxInRange_number] at hc
  cases hr : csrScope r <;> simp only [hr, decide_eq_false_iff_not, Nat.not_lt] at hc
  case block => cases hc
  case packer => exact csrOperand_packer_bad hr hc
  case enumerator => exact csrOperand_enumerator_bad hr hc

/-- Of the decoded commands only CSR.RD can be illegal, and its operand check then raises ILLEGAL_CMD
(30_encoding.md rule R99 step 3). -/
theorem exec_of_not_isLegal {i : Instr} {s : State} (hf : s.fault.valid = false) (hl : i.isLegal = false) :
    exec i s = .next (s.raise .illegalCmd) := by
  cases i
  case csrRd n x =>
    have hop : csrOperand s.cfg n x = .error .illegalCmd := by
      by_contra hne
      rw [(csrRd_isLegal_iff s.cfg n x).2 hne] at hl
      cases hl
    exact execCsrRd_error hf hop
  all_goals cases hl

/-- A legal command that names a context that does not exist raises BAD_CTX, whatever its other operands
(30_encoding.md rule R99 step 4). -/
theorem exec_of_not_ctxInRange {i : Instr} {s : State} (hf : s.fault.valid = false) (hl : i.isLegal = true)
    (hc : i.ctxInRange s.cfg = false) : exec i s = .next (s.raise .badCtx) := by
  cases i
  case csrRd n x => exact execCsrRd_error hf (csrOperand_eq_badCtx hl hc)
  -- closes the commands that name no context
  all_goals simp only [Instr.ctxInRange, Bool.and_eq_false_iff, decide_eq_false_iff_not, Nat.not_lt, reduceCtorEq] at hc
  case enOpen e a => exact execEnOpen_badCtx hf hc a
  case enNext e => exact execEnNext_badCtx hf hc
  case enClose e => exact execEnClose_badCtx hf hc
  case pkClr p => exact execPkClr_badCtx hf hc
  case pkPush p y => exact execPkPush_badCtx hf hc y
  case pkCopy d q => exact execPkCopy_badCtx hf hc

/-- The only fault TR.ADDS raises is CAPACITY. -/
theorem execTrAdds_fault_code {s t : State} (hf : s.fault.valid = false) (h : exec .trAdds s = .next t)
    (ht : t.fault.valid = true) : t.fault.code = FaultCode.capacity.number := by
  rcases execTrAdds_cases hf with ⟨m, -, he⟩ | ⟨m, -, he⟩ | ⟨-, he⟩ <;> rw [he] at h <;> cases h
  · rw [State.respond_fault, hf] at ht
    cases ht
  · rfl

/-- Settles O52: steps 1 and 2 of the prologue are those of `runWord`, steps 3 and 4 the operand checks of `exec`, and
each check after them is the one its command makes when the earlier ones have passed. -/
theorem faultPriority : Obligations.FaultPriority := by
  refine ⟨fun s c hf => runWord_refused hf exec c, fun s c hf hd => ?illegalWord,
    fun s i hf hl => exec_of_not_isLegal hf hl, fun s i hf hl hc => exec_of_not_ctxInRange hf hl hc, fun s hf => ?own⟩
  case illegalWord =>
    cases hw : decodeWord c with
    | ok i => exact absurd hw (hd i)
    | error e => exact runWord_rejected hf hw
  case own =>
    refine ⟨?notBound, ?notOpen, ?badAddr, ?sqFull, ?trNavCapacity, ?trAddsCapacity⟩
    case notBound => exact execFsNext_notBound hf
    case notOpen => exact fun e he ho => execEnNext_notOpen hf (of_decide_eq_true he) ho
    case badAddr =>
      exact fun a ha => ⟨execTrNav_badAddr hf ha, execTrCnt_badAddr hf ha,
        fun e he => execEnOpen_badAddr hf (of_decide_eq_true he) ha⟩
    case sqFull => exact fun b hfull => execSqPut_full hf hfull b
    case trNavCapacity => exact fun a y hr hs => execTrNav_full hf (navigate_of_full hr hs)
    case trAddsCapacity => exact fun t h ht => execTrAdds_fault_code hf h ht

end Sys2Proof.Machine
end

section
/-! CSR.RD directly after reset (70_reset_and_hazards.md rule R231). -/

namespace Sys2Proof.Machine

/-- The last column of the table of 10_state.md rule R45. -/
def csrResetValue (cfg : Config) : Csr → Value
  | .version => 0x0100
  | .cfgNodeMax => BitVec.ofNat 16 cfg.nodeMax
  | .cfgNpk => BitVec.ofNat 16 cfg.npk
  | .cfgNen => BitVec.ofNat 16 cfg.nen
  | .cfgSqDepth => BitVec.ofNat 16 cfg.sqDepth
  | .trSize => 0x0001
  | .fsStat => 0x0030
  | .fsRem | .fsBits | .sqLevel | .pkStored | .pkBits | .enStat | .enNode => 0

/-- Every CSR holds the last column of its row after reset, in every context. -/
theorem csrValue_resetOf (cfg : Config) (x : CtxIdx) (r : Csr) :
    csrValue (State.resetOf cfg) x r = csrResetValue cfg r := by
  cases r
  case fsStat => exact (State.resetOf cfg).fs.stat_eq_ofNat
  case pkStored | pkBits => rw [csrValue, State.resetOf_pk]; rfl
  case enStat | enNode => rw [csrValue, State.resetOf_en]; rfl
  all_goals rfl

/-- A CSR whose operand check passes is answered with its value after reset. -/
theorem execCsrRd_resetOf {cfg : Config} {x : CtxIdx} {r : Csr} (hop : csrOperand cfg r.number x = .ok r) :
    exec (.csrRd r.number x) (State.resetOf cfg) =
      .next { State.resetOf cfg with resp := 0x1000#16 ++ csrResetValue cfg r } :=
  execCsrRd_answers rfl hop (csrValue_resetOf cfg x r)

/-- Settles O15: the operand check passes for every register of each scope, and each is answered with the last column
of its row. -/
theorem csrValuesAfterReset : Obligations.CsrValuesAfterReset := by
  intro cfg x answers
  refine ⟨?block, fun hx => ?packer, fun hx => ?enumerator⟩
  case block =>
    have reads (r : Csr) (hr : csrScope r = .block) : answers r.number 0 (csrResetValue cfg r) :=
      execCsrRd_resetOf (csrOperand_block hr)
    exact ⟨reads .version rfl, reads .cfgNodeMax rfl, reads .cfgNpk rfl, reads .cfgNen rfl, reads .cfgSqDepth rfl,
      reads .trSize rfl, reads .fsStat rfl, reads .fsRem rfl, reads .fsBits rfl, reads .sqLevel rfl⟩
  case packer =>
    have reads (r : Csr) (hr : csrScope r = .packer) : answers r.number x (csrResetValue cfg r) :=
      execCsrRd_resetOf (csrOperand_packer hr hx)
    exact ⟨reads .pkStored rfl, reads .pkBits rfl⟩
  case enumerator =>
    have reads (r : Csr) (hr : csrScope r = .enumerator) : answers r.number x (csrResetValue cfg r) :=
      execCsrRd_resetOf (csrOperand_enumerator hr hx)
    exact ⟨reads .enStat rfl, reads .enNode rfl⟩

end Sys2Proof.Machine
end

section
/-! The decoder and the encoder agree on every instruction and on every word (30_encoding.md rules R90 to R97). -/

namespace Sys2Proof

/-! ### From an instruction to its word and back -/

/-- The word of every instruction is accepted by the row of its own command. -/
theorem Laws.RowMatch.statement : ∀ i : Instr, RowMatch.Statement i
  | .trNew => RowMatch.trNew
  | .trNav a s => RowMatch.trNav a s
  | .trCnt a => RowMatch.trCnt a
  | .trAdds => RowMatch.trAdds
  | .enOpen e a => RowMatch.enOpen e a
  | .enNext e => RowMatch.enNext e
  | .enClose e => RowMatch.enClose e
  | .fsBind w => RowMatch.fsBind w
  | .fsNext => RowMatch.fsNext
  | .sqPut b => RowMatch.sqPut b
  | .sqClr => RowMatch.sqClr
  | .pkClr p => RowMatch.pkClr p
  | .pkPush p s => RowMatch.pkPush p s
  | .pkCopy d q => RowMatch.pkCopy d q
  | .csrRd c x => RowMatch.csrRd c x

/-- An operand in the low bits of `imm`, below zeros, is read from the low bits of the word. -/
theorem fieldsWord_low {m k : Nat} (hmk : m + k = 16) (op : BitVec 8) (ctx : CtxIdx) (sym : Symbol) (v : BitVec k) :
    (fieldsWord op ctx sym ((0#m ++ v).cast hmk)).extractLsb' 0 k = v := by
  ext i hi
  simp [fieldsWord_getLsbD, show i < 16 by omega, BitVec.getElem_append, hi]

/-- The operands assembled from the fields of an instruction's own word are its operands (R92, R93). -/
theorem operands_encode (i : Instr) : (Laws.RowMatch.cmdOf i).operands (encode i) = i := by
  cases i
  case fsBind w =>
    have hw := fieldsWord_low (m := 15) rfl 0x20 0 0 w.select
    exact (congrArg (fun b => Instr.fsBind (Width.ofSelect b)) hw).trans (by rw [Width.ofSelect_select])
  case sqPut b => exact congrArg Instr.sqPut (fieldsWord_low (m := 8) rfl 0x28 0 0 b)
  case pkCopy d q => exact congrArg₂ Instr.pkCopy (ctxField_fieldsWord ..) (fieldsWord_low (m := 12) rfl 0x32 d 0 q)
  case csrRd c x => exact congrArg₂ Instr.csrRd (fieldsWord_low (m := 8) rfl 0x40 x 0 c) (ctxField_fieldsWord ..)
  all_goals simp [Laws.RowMatch.cmdOf, Cmd.operands, encode]

/-- Settles O1: the word of an instruction is accepted by its own row, the only one of the table to accept it, and that
row reads its operands back. -/
theorem decodeOfEncodeIsIdentity : Obligations.DecodeOfEncodeIsIdentity := fun i => by
  rw [decodeWord_encode_of_rowMatch (Laws.RowMatch.statement i), operands_encode]

/-! ### From a word to its instruction and back -/

/-- Settles O3: the decoder finds a row that accepts the word, and no other row of the table accepts it. -/
theorem decodeAcceptsExactlyTheTableRows : Obligations.DecodeAcceptsExactlyTheTableRows := by
  intro c i
  constructor
  · intro h
    rw [decodeWord] at h
    cases hr : commandTable.find? (fun r => r.accepts c) with
    | none => simp [hr] at h
    | some r =>
      simp only [hr] at h
      have haccepts : r.accepts c = true := List.find?_some (p := fun r : Row => r.accepts c) hr
      exact ⟨r, List.mem_of_find?_eq_some hr, beq_iff_eq.1 haccepts, (Except.ok.inj h).symm⟩
  · rintro ⟨r, hr, hc, rfl⟩
    exact decodeWord_of_accepts hr (beq_iff_eq.2 hc)

/-- A word whose bit 19 is zero is made of its fields (R91). -/
theorem fieldsWord_fields {c : Word} (h19 : c.getLsbD 19 = false) :
    fieldsWord (opField c) (ctxField c) (symField c) (immField c) = c := by
  have hbit : 0#1 = c.extractLsb' 19 1 := by
    ext i hi
    obtain rfl : i = 0 := by omega
    simpa using h19
  rw [fieldsWord, hbit, opField, ctxField, symField, immField]
  rw [BitVec.extractLsb'_append_extractLsb'_eq_extractLsb' (start₁ := 20) (len₁ := 4) rfl,
    BitVec.extractLsb'_append_extractLsb'_eq_extractLsb' (start₁ := 19) (len₁ := 1) rfl,
    BitVec.extractLsb'_append_extractLsb'_eq_extractLsb' (start₁ := 16) (len₁ := 3) rfl,
    BitVec.extractLsb'_append_extractLsb'_eq_extractLsb' (start₁ := 0) (len₁ := 16) rfl]
  exact BitVec.extractLsb'_eq_self

/-- A word that a row accepts is made of the row's `op` byte and its own other fields, and is zero in every field where
the row's mask is set. -/
theorem Row.fields_of_accepts {r : Row} (hr : r ∈ commandTable) {c : Word} (hc : r.accepts c = true) :
    fieldsWord (opField r.pattern) (ctxField c) (symField c) (immField c) = c ∧
      ctxField c &&& ctxField r.mask = 0 ∧ symField c &&& symField r.mask = 0 ∧ immField c &&& immField r.mask = 0 := by
  have hreserved : ∀ r ∈ commandTable, r.mask.getLsbD 19 = true ∧ r.pattern.getLsbD 19 = false := by decide
  obtain ⟨hmask19, hpat19⟩ := hreserved r hr
  obtain ⟨hmask, hpat, -⟩ := commandTable_masks r hr
  have h19 : c.getLsbD 19 = false := by
    have hand : (c &&& r.mask).getLsbD 19 = r.pattern.getLsbD 19 := by rw [beq_iff_eq.1 hc]
    rwa [BitVec.getLsbD_and, hmask19, Bool.and_true, hpat19] at hand
  have hfields := fieldsWord_fields h19
  rw [← hfields, Row.accepts_fieldsWord _ _ _ _ r hpat hmask] at hc
  obtain ⟨hop, hmasks⟩ := hc
  exact ⟨hop ▸ hfields, hmasks⟩

/-- A field that is zero where it is masked throughout is zero. -/
theorem eq_zero_of_and_allOnes {w : Nat} {x : BitVec w} (h : x &&& BitVec.allOnes w = 0) : x = 0 := by
  rwa [BitVec.and_allOnes] at h

/-- A field that is zero where its high `m` bits are masked holds its low bits alone. -/
theorem append_low_of_and_eq_zero {m k : Nat} {x : BitVec (m + k)} (h : x &&& (BitVec.allOnes m ++ 0#k) = 0) :
    0#m ++ x.extractLsb' 0 k = x := by
  ext i hi
  have hand : (x &&& (BitVec.allOnes m ++ 0#k))[i] = (0 : BitVec (m + k))[i] := by rw [h]
  by_cases hik : i < k
  · simp [BitVec.getElem_append, hik, BitVec.getLsbD_eq_getElem, hi]
  · simpa [BitVec.getElem_append, hik, show i - k < m by omega] using hand.symm

/-- The width select of the width a select stands for (R93). -/
theorem Width.select_ofSelect (b : BitVec 1) : (Width.ofSelect b).select = b := by
  revert b
  decide

/-- The word of the operands that a row reads from a word it accepts is that word: the bits that the row does not read
are zero by its mask (R94). -/
theorem encode_operands {r : Row} (hr : r ∈ commandTable) {c : Word} (hc : r.accepts c = true) :
    encode (r.cmd.operands c) = c := by
  obtain ⟨hfields, hctx, hsym, himm⟩ := Row.fields_of_accepts hr hc
  have hctx0 (hm : ctxField r.mask = BitVec.allOnes 4) : ctxField c = 0 := eq_zero_of_and_allOnes (hm ▸ hctx)
  have hsym0 (hm : symField r.mask = BitVec.allOnes 3) : symField c = 0 := eq_zero_of_and_allOnes (hm ▸ hsym)
  have himm0 (hm : immField r.mask = BitVec.allOnes 16) : immField c = 0 := eq_zero_of_and_allOnes (hm ▸ himm)
  have hlow (k : Nat) (hk : k ≤ 16) : (immField c).extractLsb' 0 k = c.extractLsb' 0 k := by
    ext i hi
    simp [immField, show i < 16 by omega]
  refine Eq.trans ?_ hfields
  simp only [commandTable, List.cons_append, List.nil_append, List.mem_cons, List.not_mem_nil, or_false] at hr
  rcases hr with rfl | rfl | rfl | rfl | rfl | rfl | rfl | rfl | rfl | rfl | rfl | rfl | rfl | rfl | rfl
  all_goals simp only [Cmd.operands, encode]
  -- TR
  · rw [hctx0 rfl, hsym0 rfl, himm0 rfl]; rfl
  · rw [hctx0 rfl]; rfl
  · rw [hctx0 rfl, hsym0 rfl]; rfl
  · rw [hctx0 rfl, hsym0 rfl, himm0 rfl]; rfl
  -- EN
  · rw [hsym0 rfl]; rfl
  · rw [hsym0 rfl, himm0 rfl]; rfl
  · rw [hsym0 rfl, himm0 rfl]; rfl
  -- FS and SQ
  · rw [hctx0 rfl, hsym0 rfl, Width.select_ofSelect, ← hlow 1 (by decide)]
    exact congrArg _ (append_low_of_and_eq_zero (m := 15) (k := 1) himm)
  · rw [hctx0 rfl, hsym0 rfl, himm0 rfl]; rfl
  · rw [hctx0 rfl, hsym0 rfl, ← hlow 8 (by decide)]
    exact congrArg _ (append_low_of_and_eq_zero (m := 8) (k := 8) himm)
  · rw [hctx0 rfl, hsym0 rfl, himm0 rfl]; rfl
  -- PK and CSR
  · rw [hsym0 rfl, himm0 rfl]; rfl
  · rw [himm0 rfl]; rfl
  · rw [hsym0 rfl, ← hlow 4 (by decide)]
    exact congrArg _ (append_low_of_and_eq_zero (m := 12) (k := 4) himm)
  · rw [hsym0 rfl, ← hlow 8 (by decide)]
    exact congrArg _ (append_low_of_and_eq_zero (m := 8) (k := 8) himm)

/-- Settles O2: the word is that of the operands that the row accepting it reads. -/
theorem encodeOfDecodeIsIdentity : Obligations.EncodeOfDecodeIsIdentity := by
  intro c i h
  obtain ⟨r, hr, hc, rfl⟩ := (decodeAcceptsExactlyTheTableRows c i).1 h
  exact encode_operands hr (beq_iff_eq.2 hc)

/-! ### Words as bytes and words of the spec -/

/-- The four bytes of a word, put together most significant first, are the word. -/
theorem append_wordBytes (c : Word) :
    c.extractLsb' 24 8 ++ c.extractLsb' 16 8 ++ c.extractLsb' 8 8 ++ c.extractLsb' 0 8 = c := by
  rw [BitVec.extractLsb'_append_extractLsb'_eq_extractLsb' (start₁ := 16) (len₁ := 8) rfl,
    BitVec.extractLsb'_append_extractLsb'_eq_extractLsb' (start₁ := 8) (len₁ := 8) rfl,
    BitVec.extractLsb'_append_extractLsb'_eq_extractLsb' (start₁ := 0) (len₁ := 8) rfl]
  exact BitVec.extractLsb'_eq_self

/-- Settles O5: the carrier's four bytes are the word of the instruction, which decodes to it. -/
theorem byteStreamRoundTrip : Obligations.ByteStreamRoundTrip := by
  intro i rest
  simp only [encodeBytes, wordBytes, List.cons_append, List.nil_append, decodeBytes]
  rw [append_wordBytes, decodeOfEncodeIsIdentity]

/-- Settles O4: each of the eight words is compared with the rows of the table. -/
theorem specWordsDecodeAsWritten : Obligations.SpecWordsDecodeAsWritten := by
  unfold Obligations.SpecWordsDecodeAsWritten
  decide

end Sys2Proof
end

section
/-! What a command does to each unit (10_state.md section 9, 20_memory.md rule R63): said once, from `exec_cases`, so
that every invariant and every frame is a case split of a few lines. -/

namespace Sys2Proof

/-! ### The bounds of a legal configuration (00_scope.md rule R5) -/

theorem Config.Legal.one_le_nodeMax {cfg : Config} (h : cfg.Legal) : 1 ≤ cfg.nodeMax := h.1.1

theorem Config.Legal.nodeMax_le {cfg : Config} (h : cfg.Legal) : cfg.nodeMax ≤ 65535 := h.1.2

end Sys2Proof

namespace Sys2Proof.Machine

/-! ### The memories TR.NAV and TR.ADDS can leave -/

/-- The memories that pulls from the source queue and navigate steps lead to. -/
inductive Memory.Reaches (cfg : Config) (m : Memory) : Memory → Prop
  | refl : Reaches cfg m m
  | pull {m' : Memory} {b : Byte} {rest : List Byte} (h : Reaches cfg m m') (hq : m'.sq = b :: rest) :
      Reaches cfg m { m' with sq := rest }
  | nav {m' m'' : Memory} {a c : NodeAddr} {y : Symbol} (h : Reaches cfg m m')
      (hn : navigate cfg m' a y = .addr c m'') : Reaches cfg m m''

/-- The loop of TR.ADDS reaches the memory it ends with. -/
theorem addsLoop_reaches (cfg : Config) (fuel : Nat) (fs : Splitter) (cur : NodeAddr) (m : Memory) :
    (∀ m', addsLoop cfg fuel fs cur m = .done m' → m.Reaches cfg m') ∧
      ∀ m', addsLoop cfg fuel fs cur m = .full m' → m.Reaches cfg m' := by
  obtain ⟨hdone, hfull⟩ := addsLoop_keeps (cfg := cfg) (fun _ m' => m.Reaches cfg m') (fun _ _ _ _ h hq => .pull h hq)
    (fun _ _ _ _ _ h hn => .nav h hn) fuel fs cur m .refl
  exact ⟨fun m' h => (hdone m' h).choose_spec, fun m' h => (hfull m' h).choose_spec⟩

namespace Memory.Reaches
variable {cfg : Config} {m m' : Memory}

/-- No node is lost. -/
theorem size_le (h : m.Reaches cfg m') : m.size ≤ m'.size := by
  induction h with
  | refl => exact Nat.le_refl _
  | pull _ _ ih => exact ih
  | nav _ hn ih =>
    obtain ⟨-, -, ⟨rfl, -⟩ | ⟨rfl, -⟩⟩ := navigate_addr hn
    · exact ih
    · rw [grown_size]
      omega

/-- No byte is put into the queue. -/
theorem sq_length_le (h : m.Reaches cfg m') : m'.sq.length ≤ m.sq.length := by
  induction h with
  | refl => exact Nat.le_refl _
  | pull _ hq ih =>
    rw [hq, List.length_cons] at ih
    exact Nat.le_of_succ_le ih
  | nav _ hn ih => rwa [(navigate_addr hn).1]

end Memory.Reaches

/-! ### The effect of a command, unit by unit -/

/-- What a command can do to the state, by the unit that it writes, with the invariants that the unit keeps. -/
inductive Effect (i : Instr) (s : State) : State → Prop
  /-- Nothing but `RESP` and `FAULT`. -/
  | answer (r : Word) (f : FaultReg) : Effect i s { s with resp := r, fault := f }
  /-- TR.NEW. -/
  | newTrie (hi : i = .trNew) (r : Word) :
      Effect i s { s with mem := s.mem.newTrie, ens := closeEach s.ens, resp := r }
  /-- TR.NAV and TR.ADDS. -/
  | trie {m : Memory} (harena : writesArena i = true) (hi : i ≠ .trNew) (hm : s.mem.Reaches s.cfg m)
      (hsq : reachesQueue i = false → m.sq = s.mem.sq) (r : Word) (f : FaultReg) :
      Effect i s { s with mem := m, resp := r, fault := f }
  /-- The EN commands. -/
  | enumerator {e : CtxIdx} {v : Enumerator} (he : enumeratorNamed i = some e)
      (hinv : (s.en e).Inv s.mem.size → v.Inv s.mem.size) (r : Word) : Effect i s { s.setEn e v with resp := r }
  /-- The FS commands. -/
  | splitter {fs : Splitter} {q : List Byte} (hw : writesSplitter i = true) (hinv : s.fs.Inv → fs.Inv)
      (hsq : reachesQueue i = false → q = s.mem.sq) (hlen : q.length ≤ s.mem.sq.length) (r : Word) :
      Effect i s { s with fs := fs, mem := { s.mem with sq := q }, resp := r }
  /-- The SQ commands. -/
  | queue {q : List Byte} (hq : reachesQueue i = true)
      (hlen : s.mem.sq.length ≤ s.cfg.sqDepth → q.length ≤ s.cfg.sqDepth) (r : Word) :
      Effect i s { s with mem := { s.mem with sq := q }, resp := r }
  /-- The PK commands. -/
  | packer {p : CtxIdx} {v : Packer} (hp : packerWritten i = some p) (hinv : (∀ q, (s.pk q).Inv) → v.Inv) (r : Word) :
      Effect i s { s.setPk p v with resp := r }

/-- The position after a symbol is the next number (10_state.md rule R38). -/
theorem succ_symbol_toNat (y : Symbol) : (y.setWidth 4 + 1 : BitVec 4).toNat = y.toNat + 1 := by
  revert y
  decide

/-- The response of FS.NEXT writes `RESP` alone. -/
theorem splitRespond_eq (r : SplitResult) (s : State) :
    splitRespond r s = { s with resp := (splitRespond r s).resp } := by cases r <;> rfl

/-- The response of PK.PUSH writes `RESP` alone. -/
theorem packRespond_eq (r : Option Byte) (s : State) :
    packRespond r s = { s with resp := (packRespond r s).resp } := by cases r <;> rfl

/-- `SplitStep` touches the memory in the queue alone, which it makes no longer. -/
theorem splitStep_mem (fs : Splitter) (m : Memory) :
    (splitStep fs m).mem = { m with sq := (splitStep fs m).mem.sq } ∧ (splitStep fs m).mem.sq.length ≤ m.sq.length := by
  obtain ⟨-, -, -, hm | ⟨b, rest, hq, hm⟩⟩ := splitStep_frame fs m <;> rw [hm]
  · exact ⟨rfl, Nat.le_refl _⟩
  · exact ⟨rfl, by simp [hq]⟩

/-- Every command that answers a next state has one of the effects. -/
theorem exec_effect {i : Instr} {s t : State} (h : exec i s = .next t) : Effect i s t := by
  rcases exec_cases h with ⟨-, rfl⟩ | ⟨-, ⟨c, rfl⟩ | ⟨rfl, rfl⟩ | ⟨a, y, c, m, rfl, hn, rfl⟩ | ⟨a, n, rfl, -, rfl⟩ |
    ⟨m, rfl, hm, rfl⟩ | ⟨m, rfl, hm, rfl⟩ | ⟨e, a, rfl, -, ha, rfl⟩ | ⟨e, n, y, rfl, -, -, -, -, rfl⟩ |
    ⟨e, n, rfl, -, -, -, -, rfl⟩ | ⟨e, rfl, -, rfl⟩ | ⟨w, rfl, rfl⟩ | ⟨rfl, -, rfl⟩ | ⟨b, rfl, hb, rfl⟩ |
    ⟨rfl, rfl⟩ | ⟨p, rfl, -, rfl⟩ | ⟨p, y, rfl, -, rfl⟩ | ⟨d, q, rfl, -, -, rfl⟩ | ⟨n, x, r, rfl, -, rfl⟩⟩
  -- a refusal, a fault
  · exact .answer _ _
  · exact .answer _ _
  -- TR.NEW, TR.NAV, TR.CNT, TR.ADDS completed and stopped
  · exact .newTrie rfl _
  · exact .trie rfl (by simp) (.nav .refl hn) (fun _ => (navigate_addr hn).1) _ _
  · exact .answer _ _
  · exact .trie rfl (by simp) ((addsLoop_reaches _ _ _ _ _).1 m hm) (fun hq => absurd hq (by decide)) _ _
  · exact .trie rfl (by simp) ((addsLoop_reaches _ _ _ _ _).2 m hm) (fun hq => absurd hq (by decide)) _ _
  -- EN.OPEN, EN.NEXT with a pair and at the end, EN.CLOSE
  · exact .enumerator (v := .opened a) rfl (fun _ => ⟨Nat.zero_le _, fun _ => ha⟩) _
  · exact .enumerator (v := { s.en e with pos := _ }) rfl (fun hi => ⟨(succ_symbol_toNat y).trans_le y.isLt, hi.2⟩) _
  · exact .enumerator (v := { s.en e with pos := 8 }) rfl (fun hi => ⟨Nat.le_refl _, hi.2⟩) _
  · exact .enumerator (v := (s.en e).close) rfl (fun hi => ⟨hi.1, fun ho => absurd ho (by simp)⟩) _
  -- FS.BIND, FS.NEXT
  · exact .splitter rfl (fun _ => Splitter.bind_inv w) (fun _ => rfl) (Nat.le_refl _) _
  · obtain ⟨hqueue, hlen⟩ := splitStep_mem s.fs s.mem
    rw [splitRespond_eq, hqueue]
    exact .splitter rfl (fun hi => splitStep_inv hi s.mem) (fun hq => absurd hq (by decide)) hlen _
  -- SQ.PUT, SQ.CLR
  · exact .queue rfl (fun hl => by rw [List.length_append]; exact Nat.lt_of_le_of_ne hl hb) _
  · exact .queue rfl (fun _ => Nat.zero_le _) _
  -- PK.CLR, PK.PUSH, PK.COPY, CSR.RD
  · exact .packer rfl (fun _ => Packer.cleared_inv) _
  · rw [packRespond_eq]
    exact .packer rfl (fun hi => packStep_inv (hi p) y) _
  · exact .packer rfl (fun hi => hi q) _
  · exact .answer _ _

section frame
variable {i : Instr} {s t : State} (h : exec i s = .next t)
include h

/-- No command changes the configuration. -/
theorem exec_cfg : t.cfg = s.cfg := by
  cases exec_effect h <;> rfl

/-- No command changes what the host will do. -/
theorem exec_host : t.host = s.host := by
  cases exec_effect h <;> rfl

/-- A command that is not TR.NAV, TR.ADDS or TR.NEW leaves the arena alone. -/
theorem exec_nodes (hw : writesArena i = false) : t.mem.nodes = s.mem.nodes := by
  cases exec_effect h with
  | newTrie hi => subst hi; cases hw
  | trie harena => rw [harena] at hw; cases hw
  | _ => rfl

/-- A command that does not reach the queue leaves it alone. -/
theorem exec_sq (hq : reachesQueue i = false) : t.mem.sq = s.mem.sq := by
  cases exec_effect h with
  | trie _ _ _ hsq => exact hsq hq
  | splitter _ _ hsq => exact hsq hq
  | queue hreach => rw [hreach] at hq; cases hq
  | _ => rfl

/-- A command that does not write the splitter registers leaves them alone. -/
theorem exec_fs (hw : writesSplitter i = false) : t.fs = s.fs := by
  cases exec_effect h with
  | splitter hwrites => rw [hwrites] at hw; cases hw
  | _ => rfl

/-- A packer context that a command does not write keeps its contents. -/
theorem exec_pk {p : CtxIdx} (hp : packerWritten i ≠ some p) : t.pk p = s.pk p := by
  cases exec_effect h with
  | packer hwritten =>
    refine s.setPk_pk_ne ?_ _
    rintro rfl
    exact hp hwritten
  | _ => rfl

/-! ### What every command keeps -/

/-- The splitter invariant (10_state.md rule R31). -/
theorem exec_fs_inv (hi : s.fs.Inv) : t.fs.Inv := by
  cases exec_effect h with
  | splitter _ hinv => exact hinv hi
  | _ => exact hi

/-- The packer invariant (10_state.md rule R35). -/
theorem exec_pk_inv (hi : ∀ p, (s.pk p).Inv) (p : CtxIdx) : (t.pk p).Inv := by
  cases exec_effect h with
  | @packer d v _ hinv r =>
    by_cases hpd : p = d
    · subst hpd
      exact (s.setPk_pk_same p v).symm ▸ hinv hi
    · exact (s.setPk_pk_ne hpd v).symm ▸ hi p
  | _ => exact hi p

/-- The enumerator invariant (10_state.md rule R39). -/
theorem exec_en_inv (hi : ∀ e, (s.en e).Inv s.mem.size) (e : CtxIdx) : (t.en e).Inv t.mem.size := by
  cases exec_effect h with
  | newTrie _ r =>
    obtain ⟨hpos, -⟩ := hi e
    exact (s.closeAll_en e).symm ▸ ⟨hpos, nofun⟩
  | trie _ _ hm =>
    obtain ⟨hpos, hnode⟩ := hi e
    exact ⟨hpos, fun ho => Nat.lt_of_lt_of_le (hnode ho) hm.size_le⟩
  | @enumerator d v _ hinv r =>
    by_cases hed : e = d
    · subst hed
      exact (s.setEn_en_same e v).symm ▸ hinv (hi e)
    · exact (s.setEn_en_ne hed v).symm ▸ hi e
  | _ => exact hi e

/-- The bound on the queue (10_state.md rule R44). -/
theorem exec_sq_le (hl : s.mem.sq.length ≤ s.cfg.sqDepth) : t.mem.sq.length ≤ s.cfg.sqDepth := by
  cases exec_effect h with
  | trie _ _ hm => exact Nat.le_trans hm.sq_length_le hl
  | splitter _ _ _ hlen => exact Nat.le_trans hlen hl
  | queue _ hlen => exact hlen hl
  | _ => exact hl

end frame

end Sys2Proof.Machine
end

section
/-! The step (30_encoding.md rule R99, 60_exceptions.md rules R204, R217; 10_state.md rules R21, R22, R23). -/

namespace Sys2Proof.Machine

/-! ### One host action -/

/-- Settles O6: the step gives the word to `runWord`, which decodes it. -/
theorem stepRunsTheDecodedInstruction : Obligations.StepRunsTheDecodedInstruction := by
  intro s c rest i hhost hf hd
  rw [step_present hhost]
  simp [runWord, hf, hd]

/-- Settles O10: in the faulted state every command is refused. -/
theorem noCommandRunsInTheFaultedState : Obligations.NoCommandRunsInTheFaultedState := fun i s hf => by
  rw [exec_of_faulted i s hf, State.refuse_eq]

/-- Settles O11: with no host action the step is the identity. -/
theorem idleBlockHoldsItsState : Obligations.IdleBlockHoldsItsState := fun s hhost => by
  rw [step, runHost, hhost]

/-- Settles O12: the read takes its action from the host's list and nothing else. -/
theorem readingTheResponseHasNoSideEffect : Obligations.ReadingTheResponseHasNoSideEffect := fun s rest hhost => by
  rw [step, runHost, hhost]
  rfl

/-- Settles O14: reset discards everything but the configuration and what the host does after it. -/
theorem resetActionGivesTheResetState : Obligations.ResetActionGivesTheResetState := fun s rest hhost => by
  rw [step, runHost, hhost]
  rfl

/-- Settles O50: a step of the faulted block is reset or keeps `FAULT`. -/
theorem faultRegisterIsSticky : Obligations.FaultRegisterIsSticky := by
  intro s t h hf hreset
  refine (step_of_faulted hf h).resolve_left ?_
  rintro ⟨rest, hhost⟩
  exact hreset rest hhost

/-! ### A program -/

/-- Presenting the word of an instruction runs the instruction, in the faulted state too (log entry 10). -/
theorem step_present_encode {s : State} {i : Instr} {rest : List HostAction}
    (h : s.host = .present (encode i) :: rest) : step s = exec i { s with host := rest } := by
  cases hf : s.fault.valid with
  | false => exact stepRunsTheDecodedInstruction s _ rest i h hf (decodeOfEncodeIsIdentity i)
  | true =>
    rw [step_present h, runWord_refused (s := { s with host := rest }) hf, exec_of_faulted i { s with host := rest } hf]

/-- Settles O7, by induction on the program: each step runs the command it presents, which does not look at the
commands presented after it. -/
theorem stepsRunThePresentedProgram : Obligations.StepsRunThePresentedProgram := by
  intro prog
  induction prog with
  | nil =>
    intro s hhost
    rw [show s = { s with host := [] } by rw [← show s.host = [] from hhost]]
    rfl
  | cons i prog ih =>
    intro s hhost
    have hstep : step s = withHost (presentAll prog) (exec i { s with host := [] }) :=
      (step_present_encode hhost).trans (exec_withHost i { s with host := [] } (presentAll prog))
    rw [List.length_cons, core_run_succ, hstep, runAll]
    cases hexec : exec i { s with host := [] } with
    | next t =>
      have ht : { t with host := [] } = t := by rw [← show t.host = [] from exec_host hexec]
      exact (ih { t with host := presentAll prog } rfl).trans (by rw [← ht])
    | fault f => rfl
    | refused r => rfl

/-! ### What reaches what -/

/-- Settles O57, unit by unit. -/
theorem commandsReachOnlyTheirUnits : Obligations.CommandsReachOnlyTheirUnits := fun _ _ _ h =>
  ⟨exec_sq h, exec_fs h, exec_cfg h, exec_host h⟩

/-- Settles O32: the one packer context written is the destination. -/
theorem packerContextsAreIndependent : Obligations.PackerContextsAreIndependent := fun _ _ _ _ h => exec_pk h

end Sys2Proof.Machine
end

section
/-! The invariants of the units at reset and at every step (10_state.md rules R31, R35, R39, R42, R44). -/

namespace Sys2Proof.Machine

/-! ### At reset -/

theorem Enumerator.closed_inv {size : Nat} : Enumerator.closed.Inv size := ⟨Nat.zero_le _, nofun⟩

/-- The splitter after reset. -/
theorem State.resetOf_fs_inv (cfg : Config) : (State.resetOf cfg).fs.Inv where
  rem_lt := Nat.one_pos
  bits_le := Nat.zero_le 7
  exhausted := nofun
  nibble := fun _ => .inl rfl

/-- The fault register after reset. -/
theorem State.resetOf_fault_inv (cfg : Config) : (State.resetOf cfg).fault.Inv := ⟨fun _ => rfl, nofun⟩

/-- The arena after reset is that of a trie just created. -/
theorem ArenaInv.reset {cfg : Config} (h : 1 ≤ cfg.nodeMax) : ArenaInv cfg Memory.reset := .newTrie h Memory.reset

/-- Settles O16: each unit meets its invariant. -/
theorem invariantHoldsAtReset : Obligations.InvariantHoldsAtReset := fun cfg hl => {
  legal := hl
  fault := State.resetOf_fault_inv cfg
  fs := State.resetOf_fs_inv cfg
  pk := fun p => (State.resetOf_pk cfg p).symm ▸ Packer.cleared_inv
  en := fun e => (State.resetOf_en cfg e).symm ▸ Enumerator.closed_inv
  arena := .reset hl.one_le_nodeMax
  queue := Nat.zero_le _ }

/-! ### The splitter, the packers, the enumerators -/

/-- Settles O24: no command but FS.BIND and FS.NEXT writes the splitter, and both keep its invariant. -/
theorem splitterInvariantKept : Obligations.SplitterInvariantKept := by
  refine ⟨State.resetOf_fs_inv, fun s t hi h => ?_⟩
  obtain ⟨hrem, hbits, hexh, hnibble⟩ : t.fs.Inv :=
    step_keeps (fun u => u.fs.Inv) (fun _ _ hu => hu) (fun u _ => State.resetOf_fs_inv u.cfg) (fun _ hu => hu)
      (fun _ _ hu => hu) (fun _ _ _ hu hexec => exec_fs_inv hexec hu) hi h
  exact ⟨hrem, hbits, hexh, hnibble⟩

/-- Settles O28: a command writes at most one packer context, with contents that meet the invariant. -/
theorem packerInvariantKept : Obligations.PackerInvariantKept := by
  refine ⟨fun cfg p => (State.resetOf_pk cfg p).symm ▸ Packer.cleared_inv, fun s t hi h p => ?_⟩
  have hkeeps : ∀ p, (t.pk p).Inv :=
    step_keeps (fun u => ∀ p, (u.pk p).Inv) (fun _ _ hu => hu)
      (fun u _ p => (u.hostReset_pk p).symm ▸ Packer.cleared_inv) (fun _ hu => hu) (fun _ _ hu => hu)
      (fun _ _ _ hu hexec => exec_pk_inv hexec hu) hi h
  exact ⟨Nat.le_of_lt_succ (t.pk p).bits.isLt, hkeeps p⟩

/-- Settles O46: a context is opened at a node that exists, and nodes disappear only where every context is closed. -/
theorem enumeratorInvariantKept : Obligations.EnumeratorInvariantKept := by
  refine ⟨fun cfg e => (State.resetOf_en cfg e).symm ▸ Enumerator.closed_inv, fun s t hi h => ?_⟩
  exact step_keeps (fun u => ∀ e, (u.en e).Inv u.mem.size) (fun _ _ hu => hu)
    (fun u _ e => (u.hostReset_en e).symm ▸ Enumerator.closed_inv) (fun _ hu => hu) (fun _ _ hu => hu)
    (fun _ _ _ hu hexec => exec_en_inv hexec hu) hi h

/-! ### The arena -/

/-- A command keeps the arena a tree, and no command but TR.NEW loses a node or a child address. -/
theorem exec_tree {i : Instr} {s t : State} (hl : s.cfg.Legal) (hi : ArenaInv s.cfg s.mem) (h : exec i s = .next t) :
    ArenaInv s.cfg t.mem ∧ (i ≠ .trNew → s.mem.Grows t.mem) := by
  rcases exec_arena hl.nodeMax_le hi h with hnodes | ⟨rfl, hmem⟩ | ⟨-, -, htree, hgrows⟩
  · exact ⟨hi.congr hnodes, fun _ => .of_nodes hnodes⟩
  · exact ⟨hmem ▸ .newTrie hl.one_le_nodeMax s.mem, fun hne => absurd rfl hne⟩
  · exact ⟨htree, fun _ => hgrows⟩

/-- Settles O41: the first clause is the frame of the commands that are not TR commands, the second the growth of the
arena. -/
theorem onlyTrieCommandsWriteTheArena : Obligations.OnlyTrieCommandsWriteTheArena := by
  refine ⟨fun i s t hw h => exec_nodes h hw, fun i s t hi hne h => ?_⟩
  obtain ⟨-, hgrows⟩ := exec_tree hi.legal hi.arena h
  exact ⟨(hgrows hne).size, (hgrows hne).child⟩

/-- No step changes the configuration. -/
theorem step_cfg {s t : State} (h : step s = .next t) : t.cfg = s.cfg :=
  step_keeps (fun u => u.cfg = s.cfg) (fun _ _ hu => hu) (fun _ hu => hu) (fun _ hu => hu) (fun _ _ hu => hu)
    (fun _ _ _ hu hexec => (exec_cfg hexec).trans hu) rfl h

/-- A step keeps the arena a tree, and no step but reset and TR.NEW loses a node or a child address. -/
theorem step_tree {s t : State} (hl : s.cfg.Legal) (hi : ArenaInv s.cfg s.mem) (h : step s = .next t) :
    ArenaInv s.cfg t.mem ∧
      (s.mem.Grows t.mem ∨ ∃ rest, s.host = .assertReset :: rest ∨ s.host = .present (encode .trNew) :: rest) := by
  rcases step_cases h with
    ⟨-, rfl⟩ | ⟨a, rest, hhost, ⟨rfl, rfl⟩ | ⟨-, rfl⟩ | ⟨c, rfl, ⟨-, rfl⟩ | ⟨-, -, rfl⟩ | ⟨-, i, hdecode, hexec⟩⟩⟩
  · exact ⟨hi, .inl (.refl _)⟩
  · exact ⟨.reset hl.one_le_nodeMax, .inr ⟨rest, .inl hhost⟩⟩
  · exact ⟨hi, .inl (.refl _)⟩
  · exact ⟨hi, .inl (.refl _)⟩
  · exact ⟨hi, .inl (.refl _)⟩
  · obtain ⟨htree, hgrows⟩ := exec_tree (s := { s with host := rest }) hl hi hexec
    refine ⟨htree, ?_⟩
    by_cases hnew : i = .trNew
    · rw [← encodeOfDecodeIsIdentity c i hdecode, hnew] at hhost
      exact .inr ⟨rest, .inr hhost⟩
    · exact .inl (hgrows hnew)

/-- Settles O40: reset creates a trie, every step keeps it a tree (`step_tree`), and the bound on its size is that of
the configuration. -/
theorem arenaStaysATree : Obligations.ArenaStaysATree := by
  refine ⟨fun cfg hl => .reset hl.one_le_nodeMax, fun s t hl hi h => ?_⟩
  obtain ⟨htree, hgrows⟩ := step_tree hl hi h
  refine ⟨(step_cfg h).symm ▸ htree, htree.bounded.trans hl.nodeMax_le, fun hother => ?_⟩
  have hgrows : s.mem.Grows t.mem := hgrows.resolve_right fun ⟨rest, hhost⟩ =>
    hhost.elim (hother rest).1 (hother rest).2
  exact ⟨hgrows.size, hgrows.child⟩

/-! ### The form of the memory -/

/-- The form of memory with another queue that is not too long. -/
theorem Memory.wf_withQueue {cfg : Config} {m : Memory} (h : m.wf cfg = true) {q : List Byte}
    (hq : q.length ≤ cfg.sqDepth) : ({ m with sq := q } : Memory).wf cfg = true := by
  simp only [Memory.wf, Bool.and_eq_true, decide_eq_true_eq] at h ⊢
  exact ⟨h.1, hq⟩

theorem Memory.sq_length_le_of_wf {cfg : Config} {m : Memory} (h : m.wf cfg = true) : m.sq.length ≤ cfg.sqDepth := by
  simp only [Memory.wf, Bool.and_eq_true, decide_eq_true_eq] at h
  exact h.2

/-- Pulls and navigate steps keep the form of memory. -/
theorem Memory.Reaches.wf {cfg : Config} (hb : cfg.nodeMax ≤ 65535) {m m' : Memory} (hr : m.Reaches cfg m')
    (h : m.wf cfg = true) : m'.wf cfg = true := by
  induction hr with
  | refl => exact h
  | pull _ hq ih =>
    have hlen := Memory.sq_length_le_of_wf ih
    rw [hq, List.length_cons] at hlen
    exact Memory.wf_withQueue ih (Nat.le_of_succ_le hlen)
  | nav _ hn ih => exact navigate_wf hb ih hn

/-- Every command keeps the form of memory. -/
theorem exec_wf {i : Instr} {s t : State} (hb : s.cfg.nodeMax ≤ 65535) (h : exec i s = .next t)
    (hw : s.mem.wf s.cfg = true) : t.mem.wf s.cfg = true := by
  have hlen := Memory.sq_length_le_of_wf hw
  cases exec_effect h with
  | newTrie => exact Memory.newTrie_wf hb hw
  | trie _ _ hm => exact hm.wf hb hw
  | splitter _ _ _ hq => exact Memory.wf_withQueue hw (hq.trans hlen)
  | queue _ hq => exact Memory.wf_withQueue hw (hq hlen)
  | _ => exact hw

/-- Settles O58: reset gives the form, and every command keeps it. -/
theorem stepKeepsTheMemoryForm : Obligations.StepKeepsTheMemoryForm := by
  intro s t hl hw h
  have hkeeps : t.cfg.Legal ∧ t.mem.wf t.cfg = true :=
    step_keeps (fun u => u.cfg.Legal ∧ u.mem.wf u.cfg = true) (fun _ _ hu => hu)
      (fun _ ⟨hul, _⟩ => ⟨hul, Memory.reset_wf hul.nodeMax_le hul.one_le_nodeMax⟩) (fun _ hu => hu) (fun _ _ hu => hu)
      (fun _ _ _ ⟨hul, huw⟩ hexec => (exec_cfg hexec).symm ▸ ⟨hul, exec_wf hul.nodeMax_le hexec huw⟩) ⟨hl, hw⟩ h
  exact hkeeps.2

/-! ### The whole machine -/

/-- A raised fault is one of the seven. -/
theorem FaultReg.raise_inv (c : FaultCode) : FaultReg.Inv { valid := true, code := c.number } :=
  ⟨nofun, fun _ => ⟨c, rfl⟩⟩

/-- Every command keeps the invariant of `FAULT` (60_exceptions.md rule R201). -/
theorem exec_fault_inv {i : Instr} {s t : State} (h : exec i s = .next t) (hi : s.fault.Inv) : t.fault.Inv := by
  cases hf : s.fault.valid with
  | true =>
    rw [exec_of_faulted i s hf] at h
    cases h
    exact hi
  | false =>
    rcases exec_fault_cases hf h with hkeep | ⟨c, rfl⟩ | ⟨-, m, rfl⟩
    · exact hkeep.symm ▸ hi
    · exact FaultReg.raise_inv c
    · exact FaultReg.raise_inv .capacity

/-- Every command keeps the invariant of the model. -/
theorem exec_inv {i : Instr} {s t : State} (hi : s.Inv) (h : exec i s = .next t) : t.Inv where
  legal := (exec_cfg h).symm ▸ hi.legal
  fault := exec_fault_inv h hi.fault
  fs := exec_fs_inv h hi.fs
  pk := exec_pk_inv h hi.pk
  en := exec_en_inv h hi.en
  arena := (exec_cfg h).symm ▸ (exec_tree hi.legal hi.arena h).1
  queue := (exec_cfg h).symm ▸ exec_sq_le h hi.queue

/-- Settles O54: what the host does beside a command keeps the invariant or resets the block, and every command keeps
it unit by unit (`exec_inv`). -/
theorem stepKeepsTheInvariant : Obligations.StepKeepsTheInvariant := by
  intro s t hi h
  have withHost (u : State) (rest : List HostAction) (hu : u.Inv) : State.Inv { u with host := rest } :=
    ⟨hu.legal, hu.fault, hu.fs, hu.pk, hu.en, hu.arena, hu.queue⟩
  refine step_keeps State.Inv withHost (fun u hu => ?_) (fun u hu => ?_) (fun u c hu => ?_)
    (fun _ _ _ hu hexec => exec_inv hu hexec) hi h
  · exact withHost _ u.host (invariantHoldsAtReset u.cfg hu.legal)
  · exact ⟨hu.legal, hu.fault, hu.fs, hu.pk, hu.en, hu.arena, hu.queue⟩
  · exact ⟨hu.legal, FaultReg.raise_inv c, hu.fs, hu.pk, hu.en, hu.arena, hu.queue⟩

end Sys2Proof.Machine
end

section
/-! Where the model stops (00_scope.md rule R11; log entries 6 and 7). -/

namespace Sys2Proof.Machine

/-- A command whose body always answers a next state answers one. -/
theorem State.command_next {α : Type} {s : State} {check : Except FaultCode α} {body : α → Result}
    (h : ∀ a, ∃ t, body a = .next t) : ∃ t, s.command check body = .next t := by
  rcases s.command_cases check body with ⟨-, hc⟩ | ⟨-, c, -, hc⟩ | ⟨-, a, -, hc⟩
  · exact ⟨_, hc⟩
  · exact ⟨_, hc⟩
  · exact hc ▸ h a

/-- A command answers a next state, or stops at a slot outside the arena: EN.NEXT in an enumeration of no node, TR.ADDS
in an arena that its loop leaves. -/
theorem exec_next_or_stop (i : Instr) (s : State) :
    (∃ t, exec i s = .next t) ∨
    (exec i s = .fault .noSuchNode ∧ s.fault.valid = false ∧
      ((∃ e, i = .enNext e ∧ (s.en e).isOpen = true ∧ s.mem.size ≤ (s.en e).node.toNat) ∨
        (i = .trAdds ∧ addsLoop s.cfg (addsFuel s.mem) (Splitter.bind .w3) 0 s.mem = .noNode))) := by
  cases hf : s.fault.valid with
  | true => exact .inl ⟨_, exec_of_faulted i s hf⟩
  | false =>
  cases i
  case trAdds =>
    rcases execTrAdds_cases hf with ⟨m, -, he⟩ | ⟨m, -, he⟩ | ⟨hnode, he⟩
    · exact .inl ⟨_, he⟩
    · exact .inl ⟨_, he⟩
    · exact .inr ⟨he, rfl, .inr ⟨rfl, hnode⟩⟩
  case enNext e =>
    by_cases he : e.toNat < s.cfg.nen
    · cases ho : (s.en e).isOpen with
      | false => exact .inl ⟨_, execEnNext_notOpen hf he ho⟩
      | true =>
        by_cases ha : (s.en e).node.toNat < s.mem.size
        · obtain ⟨n, hn⟩ := Memory.exists_node ha
          cases hy : nextChild n (s.en e).pos with
          | some y => exact .inl ⟨_, execEnNext_pair hf he ho hn hy⟩
          | none => exact .inl ⟨_, execEnNext_end hf he ho hn hy⟩
        · exact .inr ⟨execEnNext_noNode hf he ho (by omega), rfl, .inl ⟨e, rfl, ho, by omega⟩⟩
    · exact .inl ⟨_, execEnNext_badCtx hf (by omega)⟩
  case trNew => exact .inl ⟨_, execTrNew_eq hf⟩
  case fsBind w => exact .inl ⟨_, execFsBind_eq hf w⟩
  case sqClr => exact .inl ⟨_, execSqClr_eq hf⟩
  case trNav | trCnt | fsNext | sqPut =>
    left
    simp only [exec, execTrNav, execTrCnt, execFsNext, execSqPut, State.command_ok _ hf]
    split <;> exact ⟨_, rfl⟩
  case enOpen => exact .inl (State.command_next fun _ => by split <;> exact ⟨_, rfl⟩)
  all_goals exact .inl (State.command_next fun _ => ⟨_, rfl⟩)

/-- Settles O56: TR.ADDS stays inside an arena that meets its invariant. -/
theorem onlyAReadOutsideTheArenaStops : Obligations.OnlyAReadOutsideTheArenaStops := by
  intro i s hl
  rcases exec_next_or_stop i s with ⟨t, h⟩ | ⟨h, hf, hwhere⟩ <;> rw [h]
  · exact ⟨nofun, nofun⟩
  · refine ⟨nofun, ?_⟩
    rintro _ ⟨⟩
    refine ⟨rfl, hf, hwhere.imp_right fun ⟨hi, hnode⟩ => ⟨hi, fun harena => ?_⟩⟩
    obtain ⟨-, -, hinside⟩ := addsLoop_arena hl.nodeMax_le harena (addsFuel s.mem) (Splitter.bind .w3)
    exact hinside hnode

/-- Under the invariant every command answers a next state. -/
theorem exec_next (i : Instr) {s : State} (hi : s.Inv) : ∃ t, exec i s = .next t := by
  rcases exec_next_or_stop i s with h | ⟨h, -⟩
  · exact h
  · obtain ⟨-, -, ⟨e, -, ho, ha⟩ | ⟨-, harena⟩⟩ := (onlyAReadOutsideTheArenaStops i s hi.legal).2 _ h
    · exact absurd ((hi.en e).2 ho) (Nat.not_lt.2 ha)
    · exact absurd hi.arena harena

/-- Settles O55: the host's other actions answer a next state by themselves, and a command does so under the
invariant. -/
theorem stepNeverStops : Obligations.StepNeverStops := by
  intro s hi
  cases hhost : s.host with
  | nil => exact ⟨s, idleBlockHoldsItsState s hhost⟩
  | cons a rest =>
    cases a with
    | assertReset => exact ⟨_, resetActionGivesTheResetState s rest hhost⟩
    | readResp => exact ⟨_, readingTheResponseHasNoSideEffect s rest hhost⟩
    | present c =>
      rw [step_present hhost]
      have hi' : State.Inv { s with host := rest } :=
        ⟨hi.legal, hi.fault, hi.fs, hi.pk, hi.en, hi.arena, hi.queue⟩
      cases hf : s.fault.valid with
      | true => exact ⟨_, runWord_refused (s := { s with host := rest }) hf exec c⟩
      | false =>
        cases hd : decodeWord c with
        | error e => exact ⟨_, runWord_rejected (s := { s with host := rest }) hf hd⟩
        | ok i =>
          rw [← step_present hhost, stepRunsTheDecodedInstruction s c rest i hhost hf hd]
          exact exec_next i hi'

end Sys2Proof.Machine
end

section
/-! Sequences of commands: the splitter in closed form (40_splitter.md rule R126), the packer's number (41_packer.md
rules R146, R148) and the pseudo-instructions (30_encoding.md rule R102). -/

namespace Sys2Proof.Machine

/-! ### Parts of a sequence -/

/-- The first command of a sequence that completes, and the sequence after it. -/
theorem exec_of_runAll_cons {i : Instr} {is : List Instr} {s t : State} (h : runAll (i :: is) s = .next t) :
    ∃ u, exec i s = .next u ∧ runAll is u = .next t := by
  rw [runAll] at h
  cases hi : exec i s with
  | next u =>
    rw [hi] at h
    exact ⟨u, rfl, h⟩
  | fault f =>
    rw [hi] at h
    cases h
  | refused r =>
    rw [hi] at h
    cases h

/-- The response of the last command of a sequence is the one that the state holds after it. -/
theorem responses_getElem?_last (is : List Instr) {i : Instr} {s t : State} (h : runAll (i :: is) s = .next t) :
    (responses (i :: is) s)[is.length]? = some t.resp := by
  obtain ⟨u, hexec, hrun⟩ := exec_of_runAll_cons h
  rw [responses_cons hexec]
  induction is generalizing i s u with
  | nil =>
    cases hrun
    rfl
  | cons j is ih =>
    obtain ⟨v, hexec', hrun'⟩ := exec_of_runAll_cons hrun
    rw [responses_cons hexec', List.length_cons, List.getElem?_cons_succ]
    exact ih hrun v hexec' hrun'

/-- A sequence of one command is the command. -/
theorem runAll_singleton (i : Instr) (s : State) : runAll [i] s = exec i s := by
  rw [runAll]
  cases exec i s <;> rfl

/-- A command that leaves no fault has started without one. -/
theorem not_faulted_before {i : Instr} {s t : State} (h : exec i s = .next t) (ht : t.fault.valid = false) :
    s.fault.valid = false := by
  cases hf : s.fault.valid with
  | false => rfl
  | true =>
    rw [exec_of_faulted i s hf] at h
    cases h
    exact hf.symm.trans ht

/-- A sequence that ends without a fault has started without one. -/
theorem not_faulted_before_runAll {is : List Instr} {s t : State} (h : runAll is s = .next t)
    (ht : t.fault.valid = false) : s.fault.valid = false := by
  induction is generalizing s with
  | nil =>
    cases h
    exact ht
  | cons i is ih =>
    obtain ⟨u, hexec, hrun⟩ := exec_of_runAll_cons h
    exact not_faulted_before hexec (ih hrun)

/-! ### The splitter -/

/-- Settles O21: after FS.BIND the stream is the queue's bytes, and the last of `k + 1` FS.NEXT answers its digit `k`,
or END past its bits. -/
theorem splitterSequenceInClosedForm : Obligations.SplitterSequenceInClosedForm := by
  intro s w k hf
  have hbits : streamBits (Splitter.bind w) s.mem = 8 * s.mem.sq.length := by simp [streamBits, Splitter.bind]
  have hvalue : streamValue (Splitter.bind w) s.mem = streamNumber s.mem.sq := by simp [streamValue, Splitter.bind]
  obtain ⟨t, hrun, -, -, -, hresp, -⟩ := runAll_fsNext (k + 1) ({ s with fs := Splitter.bind w }.respond .done 0 0)
    (symbolWidth w) _ _ hf rfl (Splitter.bind_inv w) (by simp [Splitter.bind]) rfl hbits hvalue
  refine ⟨t, (runAll_cons (execFsBind_eq hf w) _).trans hrun, ?_⟩
  have hlast := hresp k (Nat.lt_succ_self k)
  rw [List.replicate_succ] at hrun hlast
  have hlen := responses_getElem?_last _ hrun
  rw [List.length_replicate, hlast, Option.some_inj] at hlen
  rw [← hlen, symbolAt]
  exact if_congr (lt_symbolCount_iff w _ k).symm rfl rfl

/-! ### The packer -/

/-- What a sequence of PK.PUSH after PK.CLR leaves and answers, by `runAll_pkPush`. -/
theorem runAll_pkClr_pkPush {s : State} {p : CtxIdx} (hf : s.fault.valid = false) (hp : p.toNat < s.cfg.npk)
    (a : List Symbol) :
    ∃ t, runAll (.pkClr p :: a.map (fun y => .pkPush p y)) s = .next t ∧
      (t.pk p).bits.toNat = 3 * a.length % 8 ∧
      (t.pk p).stored.toNat = symbolNumber a / 256 ^ (3 * a.length / 8) ∧
      (a ≠ [] → t.resp = if 3 * (a.length - 1) / 8 = 3 * a.length / 8 then 0x30000000
        else 0x1000#16 ++ BitVec.ofNat 16 (symbolNumber a / 256 ^ (3 * a.length / 8 - 1) % 256)) := by
  obtain ⟨c, hclr, -, hcf, hcp, hpk⟩ := execPkClr_cleared hf hp
  obtain ⟨t, hrun, -, -, -, hbits, hstored, hresp⟩ := runAll_pkPush p a c hcf hcp hpk
  exact ⟨t, (runAll_cons hclr _).trans hrun, hbits, hstored, hresp⟩

/-- Settles O30: of the string's number, which is below `256^n`, nothing is left above its `n` bytes. -/
theorem packerStateAfterARoundTrip : Obligations.PackerStateAfterARoundTrip := by
  intro s t p bytes hf hp hrun
  obtain ⟨t', hrun', hbits, hstored, -⟩ := runAll_pkClr_pkPush hf hp (octalSymbols bytes)
  obtain rfl : t = t' := Host.Outcome.next.inj (hrun.symm.trans hrun')
  have hlen : (octalSymbols bytes).length = (8 * bytes.length + 2) / 3 := by
    rw [octalSymbols_eq, streamSymbols_length]
  have hlt : streamNumber bytes < 256 ^ bytes.length := by
    have h := streamNumber_lt bytes
    rwa [Nat.pow_mul] at h
  have hpad : 3 * (octalSymbols bytes).length = 8 * bytes.length + bytes.length % 3 := by omega
  refine ⟨BitVec.eq_of_toNat_eq ?_, by omega, by omega⟩
  rw [hstored, symbolNumber_octalSymbols, show 3 * (octalSymbols bytes).length / 8 = bytes.length by omega,
    Nat.div_eq_of_lt hlt]
  rfl

/-- The number of the first `n` symbols is the low `n` octal digits of the number of all. -/
theorem symbolNumber_take (a : List Symbol) (n : Nat) : symbolNumber (a.take n) = symbolNumber a % 8 ^ n := by
  induction n generalizing a with
  | zero => simp [symbolNumber, Nat.mod_one]
  | succ n ih =>
    cases a with
    | nil => simp [symbolNumber]
    | cons y ys =>
      have hy : y.toNat < 8 := y.isLt
      rw [List.take_succ_cons, symbolNumber, symbolNumber, ih, Nat.pow_succ', Nat.mod_mul,
        show (y.toNat + 8 * symbolNumber ys) % 8 = y.toNat by omega,
        show (y.toNat + 8 * symbolNumber ys) / 8 = symbolNumber ys by omega]

/-- A byte of a number that lies whole within its low octal digits is a byte of the number of these digits. -/
theorem byte_mod_octal (v : Nat) {j n : Nat} (h : 8 * (j + 1) ≤ 3 * n) :
    v % 8 ^ n / 256 ^ j % 256 = v / 2 ^ (8 * j) % 256 := by
  have hsplit : 8 ^ n = 256 ^ j * 2 ^ (3 * n - 8 * j) := by
    rw [show (8 : Nat) = 2 ^ 3 from rfl, show (256 : Nat) = 2 ^ 8 from rfl, ← Nat.pow_mul, ← Nat.pow_mul, ← Nat.pow_add]
    congr 1
    omega
  have hdvd : 256 ∣ 2 ^ (3 * n - 8 * j) := Nat.pow_dvd_pow 2 (show 8 ≤ 3 * n - 8 * j by omega)
  rw [hsplit, Nat.mod_mul_right_div_self, Nat.mod_mod_of_dvd _ hdvd, Nat.pow_mul]

/-- Settles O31: push number `k` completes a byte exactly when `3(k + 1)` bits hold one byte more than `3k` bits, and
that byte lies whole within the symbols pushed so far. -/
theorem packerGeneralLaw : Obligations.PackerGeneralLaw := by
  intro s p syms k hf hp hk
  obtain ⟨t, hrun, -, -, hresp⟩ := runAll_pkClr_pkPush hf hp (syms.take (k + 1))
  have hlen : (syms.take (k + 1)).length = k + 1 := List.length_take_of_le hk
  have hne : syms.take (k + 1) ≠ [] := List.ne_nil_of_length_eq_add_one hlen
  have hresp := hresp hne
  rw [hlen, Nat.add_sub_cancel, symbolNumber_take] at hresp
  refine ⟨t, hrun, fun j hj => ?_, fun hnone => ?_⟩
  · have hbytes : 3 * (k + 1) / 8 = j + 1 := by omega
    have hbefore : 3 * k / 8 = j := by omega
    rw [hresp, hbytes, hbefore, if_neg (by omega), Nat.add_sub_cancel, byte_mod_octal _ (by omega)]
  · have hsame := hnone (3 * (k + 1) / 8 - 1)
    rw [hresp, if_pos (by omega)]

/-! ### The pseudo-instructions -/

/-- SQ.PUTS appends its bytes when there is room. -/
theorem runAll_sqPut (bytes : List Byte) {s : State} (hf : s.fault.valid = false)
    (hroom : s.mem.sq.length + bytes.length ≤ s.cfg.sqDepth) :
    runAll (bytes.map .sqPut) s = .next { s with
      mem := { s.mem with sq := s.mem.sq ++ bytes }
      resp := if bytes = [] then s.resp else 0x00000000 } := by
  induction bytes generalizing s with
  | nil => simp
  | cons b bytes ih =>
    rw [List.length_cons] at hroom
    rw [List.map_cons, runAll_cons (execSqPut_eq hf (by omega) b)]
    have hrest := ih (s := { s with mem := s.mem.srcPush b }.respond .done 0 0) hf (by simp; omega)
    rw [hrest]
    simpa using fun _ => respWord_done

/-- TR.ADDS does not look at the response word, and always writes it. -/
theorem execTrAdds_withResp {s : State} (hf : s.fault.valid = false) (r : Word) :
    exec .trAdds { s with resp := r } = exec .trAdds s := by
  have hf' : ({ s with resp := r } : State).fault.valid = false := hf
  rcases execTrAdds_cases hf with ⟨m, hm, he⟩ | ⟨m, hm, he⟩ | ⟨hm, he⟩
  · rw [he, execTrAdds_done hf' hm]
    rfl
  · rw [he, execTrAdds_full hf' hm]
    rfl
  · rw [he]
    rcases execTrAdds_cases hf' with ⟨m, hm', -⟩ | ⟨m, hm', -⟩ | ⟨-, he'⟩
    · cases hm.symm.trans hm'
    · cases hm.symm.trans hm'
    · exact he'

/-- Settles O59: the expansions by definition, SQ.PUTS by induction on its bytes, and the two others as SQ.PUTS followed
by a command that writes the response word itself. -/
theorem pseudoInstructionsExpandAsTheyRead : Obligations.PseudoInstructionsExpandAsTheyRead := by
  refine ⟨fun _ _ => ⟨rfl, rfl, rfl⟩, fun s bytes hf hroom => runAll_sqPut bytes hf hroom,
    fun s bytes w hf hempty hroom => ?_⟩
  have hputs := runAll_sqPut bytes hf (by rw [hempty]; simpa using hroom)
  rw [hempty, List.nil_append] at hputs
  constructor
  · rw [Pseudo.expand, runAll_append hputs, runAll_singleton]
    exact execTrAdds_withResp (s := { s with mem := { s.mem with sq := bytes } }) hf _
  · rw [Pseudo.expand, runAll_append hputs, runAll_singleton]
    exact (execFsBind_eq (by exact hf) w).trans
      (execFsBind_eq (s := { s with mem := { s.mem with sq := bytes } }) hf w).symm

end Sys2Proof.Machine
end

section
/-! What a command answers (30_encoding.md rule R100), and the addresses it answers or passes through (42_trie.md rules
R162, R164). -/

namespace Sys2Proof.Machine

/-- Two responses are one word only with the same value. -/
theorem respWord_value_inj {k k' : RespKind} {y y' : Symbol} {v v' : Value} (h : respWord k y v = respWord k' y' v') :
    v = v' := by
  have hv := congrArg (fun w : Word => w.extractLsb' 0 16) h
  simpa only [respWord_value] using hv

/-- Two responses are one word only with the same kind. -/
theorem respWord_kind_inj {k k' : RespKind} {y y' : Symbol} {v v' : Value} (h : respWord k y v = respWord k' y' v') :
    k = k' := by
  have hk := congrArg (fun w : Word => w.extractLsb' 28 4) h
  simp only [respWord_kind] at hk
  revert hk
  cases k <;> cases k' <;> decide

/-- The response word that carries a byte (41_packer.md rule R143). -/
theorem respWord_byte (b : Byte) : respWord .val 0 (b.setWidth 16) = 0x1000#16 ++ 0#8 ++ b := by
  revert b
  decide

/-- The symbol that `SplitStep` answers fits the width (40_splitter.md rule R121). -/
theorem splitStep_result (fs : Splitter) (m : Memory) :
    (splitStep fs m).result = .endOfSeq ∨
      ∃ rem, (splitStep fs m).result = .sym (lowSymbol fs.w rem) := by
  rcases splitStep_cases fs m with ⟨-, h⟩ | ⟨-, -, h⟩ | ⟨-, -, b, rest, -, h⟩ | ⟨-, -, -, h⟩ <;> rw [h]
  · exact .inl rfl
  · exact .inr ⟨_, rfl⟩
  · exact .inr ⟨_, rfl⟩
  · by_cases h0 : fs.bits = 0
    · exact .inl (if_pos h0)
    · exact .inr ⟨_, if_neg h0⟩

/-- A fault that a command leaves is in its response word (60_exceptions.md rules R203, R204). -/
theorem exec_fault_resp {i : Instr} {s t : State} (h : exec i s = .next t) (ht : t.fault.valid = true) :
    t.resp = 0xF00000#24 ++ t.fault.code := by
  cases hf : s.fault.valid with
  | true =>
    rw [exec_of_faulted i s hf] at h
    cases h
    exact respWord_fault s.fault.code
  | false =>
    obtain ⟨-, hentry⟩ := faultEntry
    rcases hentry i s t hf h with hkeep | ⟨c, hfault, hresp⟩
    · rw [hkeep, hf] at ht
      cases ht
    · rw [hfault, hresp]

/-- Settles O53: the ways `exec_cases` gives, each answering the word of its row of R100; the values by the laws of the
unit that answers. -/
theorem responseWordOfEachCommand : Obligations.ResponseWordOfEachCommand := by
  intro i s t hi h
  refine ⟨exec_fault_resp h, fun ht => ?_⟩
  have hf := not_faulted_before h ht
  rcases exec_cases h with ⟨hf', -⟩ | ⟨-, ⟨c, rfl⟩ | ⟨rfl, rfl⟩ | ⟨a, y, c, m, rfl, hn, rfl⟩ | ⟨a, n, rfl, hn, rfl⟩ |
    ⟨m, rfl, -, rfl⟩ | ⟨m, rfl, -, rfl⟩ | ⟨e, a, rfl, -, -, rfl⟩ | ⟨e, n, y, rfl, -, -, hn, hy, rfl⟩ |
    ⟨e, n, rfl, -, -, -, -, rfl⟩ | ⟨e, rfl, -, rfl⟩ | ⟨w, rfl, rfl⟩ | ⟨rfl, -, rfl⟩ | ⟨b, rfl, -, rfl⟩ |
    ⟨rfl, rfl⟩ | ⟨p, rfl, -, rfl⟩ | ⟨p, y, rfl, -, rfl⟩ | ⟨d, q, rfl, -, -, rfl⟩ | ⟨n, x, r, rfl, hr, rfl⟩⟩
  -- a refusal, a fault
  · exact absurd hf' (by simp [hf])
  · cases ht
  -- TR.NEW, TR.NAV, TR.CNT, TR.ADDS completed and stopped
  · rfl
  · obtain ⟨-, -, -, hslot, hne⟩ := navigate_arena hi.legal.nodeMax_le hi.arena hn
    exact ⟨c, rfl, hslot, hne⟩
  · exact ⟨childCount n, childCount_le n, rfl, by simp [childCount_eq_card, Memory.nodeRead_of_getElem hn]⟩
  · rfl
  · cases ht
  -- EN.OPEN, EN.NEXT with a pair and at the end, EN.CLOSE
  · rfl
  · exact .inr ⟨y, n.slot y, rfl, Memory.nodeRead_of_getElem hn y, (nextChild_eq_some.1 hy).2.1⟩
  · exact .inl rfl
  · rfl
  -- FS.BIND, FS.NEXT, SQ.PUT, SQ.CLR
  · rfl
  · rcases splitStep_result s.fs s.mem with hend | ⟨rem, hsym⟩
    · rw [hend]
      exact .inl rfl
    · rw [hsym]
      refine .inr ⟨rem.toNat % 2 ^ symbolWidth s.fs.w, Nat.mod_lt _ (Nat.two_pow_pos _), ?_⟩
      rw [← lowSymbol_setWidth]
      rfl
  · rfl
  · rfl
  -- PK.CLR, PK.PUSH, PK.COPY, CSR.RD
  · rfl
  · cases (packStep (s.pk p) y).1 with
    | none => exact .inl rfl
    | some b => exact .inr ⟨b, respWord_byte b⟩
  · rfl
  · exact ⟨r, csrOperand_eq_ok hr, rfl⟩

/-- A walk depends on the nodes alone. -/
theorem walk_of_nodes {m m' : Memory} {a b : NodeAddr} {p : List Symbol} (h : walk m a p = some b)
    (hn : m'.nodes = m.nodes) : walk m' a p = some b := walk_grows (.of_nodes hn) h

/-- Settles O37: with room for the path its insertion is never stopped, and adds at most one node a symbol. -/
theorem trAddsCompletesWhenThereIsRoom : Obligations.TrAddsCompletesWhenThereIsRoom := by
  intro s hi hf hroom
  have hlen : (octalSymbols s.mem.sq).length = symbolCount .w3 s.mem.sq.length := by simp [octalSymbols]
  obtain ⟨-, hdone, -⟩ := trAddsInsertsTheSymbolPath s hi hf
  obtain ⟨-, hgrows, hsize, hwalk, hwhole⟩ :=
    insertPath_arena hi.legal.nodeMax_le (octalSymbols s.mem.sq) 0 s.mem hi.arena hi.arena.root
  have hleft := hwhole (by omega)
  obtain ⟨b, hb⟩ := hwalk hleft
  exact ⟨_, hdone hleft, rfl, hf, rfl, rfl, hgrows.size, hlen ▸ hsize,
    Option.isSome_iff_exists.2 ⟨b, walk_of_nodes hb rfl⟩⟩

/-- The arena after TR.ADDS is the one that the insertion of its path leaves, completed or not. -/
theorem execTrAdds_nodes {s t : State} (hi : s.Inv) (hf : s.fault.valid = false) (h : exec .trAdds s = .next t) :
    t.mem.nodes = (insertPath s.cfg (octalSymbols s.mem.sq) 0 s.mem).2.nodes := by
  obtain ⟨-, hdone, hfull⟩ := trAddsInsertsTheSymbolPath s hi hf
  by_cases hleft : (insertPath s.cfg (octalSymbols s.mem.sq) 0 s.mem).1 = []
  · cases h.symm.trans (hdone hleft)
    rfl
  · cases h.symm.trans (hfull hleft)
    rfl

/-- Settles O39: growth by `exec_tree`; the slot that holds an answered address is in an arena that meets its invariant;
and what TR.ADDS has passed can be walked to. -/
theorem addressSpaceIsMonotonic : Obligations.AddressSpaceIsMonotonic := by
  intro i s t hi hne h
  obtain ⟨htree, hgrows⟩ := exec_tree hi.legal hi.arena h
  refine ⟨(hgrows hne).size, (hgrows hne).child, ?_, ?_, ?_⟩
  · rintro a y c rfl ht hresp
    obtain ⟨c', hc', hslot, hc'ne⟩ := (responseWordOfEachCommand _ s t hi h).2 ht
    have hword : respWord .val 0 c = respWord .val 0 c' := hresp.symm.trans hc'
    obtain rfl := respWord_value_inj hword
    exact htree.valid a y c hslot hc'ne
  · rintro e y c rfl ht hresp
    rcases (responseWordOfEachCommand _ s t hi h).2 ht with hend | ⟨y', c', hc', hslot, hc'ne⟩
    · have hword : respWord .val y c = respWord .endOfSeq 0 0 := hresp.symm.trans hend
      cases respWord_kind_inj hword
    · have hword : respWord .val y c = respWord .val y' c' := hresp.symm.trans hc'
      obtain rfl := respWord_value_inj hword
      exact htree.valid _ y' c hslot hc'ne
  · rintro rfl hf path left k hk
    obtain ⟨c, hc⟩ := insertPath_passed hi.legal.nodeMax_le hi.arena (a := 0) hi.arena.root path k hk
    have hwalk := walk_of_nodes hc (execTrAdds_nodes hi hf h)
    exact ⟨c, hwalk, walk_lt_size hwalk⟩

end Sys2Proof.Machine
end

section
/-! A whole enumeration (43_enumerator.md rule R179). -/

namespace Sys2Proof.Machine

/-! ### The pairs still to come -/

/-- A symbol with a child, at or above a position. -/
def hasChildFrom (n : Node) (k : Nat) (y : Symbol) : Bool := decide (k ≤ y.toNat) && (n.slot y != absent)

theorem hasChildFrom_iff {n : Node} {k : Nat} {y : Symbol} :
    hasChildFrom n k y = true ↔ k ≤ y.toNat ∧ n.slot y ≠ absent := by
  simp [hasChildFrom]

/-- The scan of EN.NEXT looks for the first such symbol. -/
theorem nextChild_eq_find? (n : Node) (pos : BitVec 4) :
    nextChild n pos = allSymbols.find? (hasChildFrom n pos.toNat) := rfl

/-- The pairs of a node from a position on, in ascending symbol order. -/
def pairsFrom (n : Node) (k : Nat) : List (Symbol × SlotWord) :=
  (allSymbols.filter (hasChildFrom n k)).map (fun y => (y, n.slot y))

/-- From position 0 they are all the pairs of the node. -/
theorem pairsFrom_zero (n : Node) : pairsFrom n 0 = childPairs n := by
  have hall : hasChildFrom n 0 = fun y => n.slot y != absent := by
    funext y
    simp [hasChildFrom]
  rw [pairsFrom, hall]
  rfl

/-- Where the scan finds nothing no pair is left. -/
theorem pairsFrom_of_none {n : Node} {pos : BitVec 4} (h : nextChild n pos = none) : pairsFrom n pos.toNat = [] := by
  rw [nextChild_eq_find?, List.find?_eq_none] at h
  rw [pairsFrom, List.filter_eq_nil_iff.2 h, List.map_nil]

/-- No symbol is at or above position 8. -/
theorem pairsFrom_eight (n : Node) : pairsFrom n 8 = [] :=
  pairsFrom_of_none (pos := 8) (nextChild_eq_none.2 fun z hz => absurd z.isLt (Nat.not_lt.2 hz))

/-- The symbol that the scan finds is that of the first pair, and the rest are the pairs after it: the symbols are
listed in ascending order. -/
theorem pairsFrom_of_some {n : Node} {pos : BitVec 4} {y : Symbol} (h : nextChild n pos = some y) :
    pairsFrom n pos.toNat = (y, n.slot y) :: pairsFrom n (y.toNat + 1) := by
  rw [nextChild_eq_find?, List.find?_eq_some_iff_append] at h
  obtain ⟨hy, before, after, hsplit, hbefore⟩ := h
  have hsorted : allSymbols.Pairwise (fun a b => a.toNat < b.toNat) := by decide
  rw [hsplit, List.pairwise_append, List.pairwise_cons] at hsorted
  obtain ⟨-, ⟨hafter, -⟩, hlt⟩ := hsorted
  have hfirst : allSymbols.filter (hasChildFrom n pos.toNat) = y :: after.filter (hasChildFrom n pos.toNat) := by
    have hnone : before.filter (hasChildFrom n pos.toNat) = [] :=
      List.filter_eq_nil_iff.2 fun z hz => by simpa using hbefore z hz
    rw [hsplit, List.filter_append, hnone, List.nil_append, List.filter_cons_of_pos hy]
  have hrest : allSymbols.filter (hasChildFrom n (y.toNat + 1)) = after.filter (hasChildFrom n (y.toNat + 1)) := by
    have hnone : before.filter (hasChildFrom n (y.toNat + 1)) = [] :=
      List.filter_eq_nil_iff.2 fun z hz hc => by
        have hzy := hlt z hz y List.mem_cons_self
        have hyz := (hasChildFrom_iff.1 hc).1
        omega
    have hself : ¬ hasChildFrom n (y.toNat + 1) y = true := fun hc => absurd (hasChildFrom_iff.1 hc).1 (by omega)
    rw [hsplit, List.filter_append, hnone, List.nil_append, List.filter_cons_of_neg hself]
  have hsame : after.filter (hasChildFrom n pos.toNat) = after.filter (hasChildFrom n (y.toNat + 1)) :=
    List.filter_congr fun z hz => by
      have hyz := hafter z hz
      have hpos := (hasChildFrom_iff.1 hy).1
      simp only [hasChildFrom, show pos.toNat ≤ z.toNat by omega, show y.toNat + 1 ≤ z.toNat by omega]
  rw [pairsFrom, pairsFrom, hfirst, hrest, hsame, List.map_cons]

/-! ### The answers of EN.NEXT -/

/-- The first `k` answers of EN.NEXT from a position on: the pairs still to come, then END. -/
def enumerationWords (n : Node) (pos k : Nat) : List Word :=
  ((pairsFrom n pos).map (fun q : Symbol × SlotWord => 0x1#4 ++ 0#9 ++ q.1 ++ q.2) ++
    List.replicate k 0x20000000).take k

/-- More END than are asked for make no difference. -/
theorem take_append_replicate_succ {α : Type} (l : List α) (a : α) (k : Nat) :
    (l ++ List.replicate (k + 1) a).take k = (l ++ List.replicate k a).take k := by
  rw [List.replicate_succ', ← List.append_assoc, List.take_append_of_le_length (by simp)]

/-- The first answer is the pair found. -/
theorem enumerationWords_of_some {n : Node} {pos : BitVec 4} {y : Symbol} (h : nextChild n pos = some y) (k : Nat) :
    enumerationWords n pos.toNat (k + 1) = respWord .val y (n.slot y) :: enumerationWords n (y.toNat + 1) k := by
  rw [enumerationWords, pairsFrom_of_some h, List.map_cons, List.cons_append, List.take_succ_cons,
    take_append_replicate_succ]
  rfl

/-- With no pair left the first answer is END. -/
theorem enumerationWords_of_none {n : Node} {pos : BitVec 4} (h : nextChild n pos = none) (k : Nat) :
    enumerationWords n pos.toNat (k + 1) = respWord .endOfSeq 0 0 :: enumerationWords n 8 k := by
  rw [enumerationWords, enumerationWords, pairsFrom_of_none h, pairsFrom_eight, List.map_nil, List.nil_append,
    List.nil_append, List.replicate_succ, List.take_succ_cons]
  rfl

/-- An enumeration in progress: commands run, and the context, which exists, is open on a node that exists. -/
structure Enumerating (s : State) (e : CtxIdx) (n : Node) : Prop where
  running : s.fault.valid = false
  context : e.toNat < s.cfg.nen
  isOpen : (s.en e).isOpen = true
  node : s.mem.nodes[(s.en e).node.toNat]? = some n

/-- It stays in progress when its position moves and an answer is given. -/
theorem Enumerating.setPos {s : State} {e : CtxIdx} {n : Node} (h : Enumerating s e n) (p : BitVec 4) (k : RespKind)
    (y : Symbol) (v : Value) : Enumerating ((s.setEn e { s.en e with pos := p }).respond k y v) e n where
  running := h.running
  context := h.context
  isOpen := by simpa using h.isOpen
  node := by simpa using h.node

/-- It stays in progress, at its position, over a command that neither writes the arena nor names the context. -/
theorem Enumerating.exec_other {s t : State} {e : CtxIdx} {n : Node} (h : Enumerating s e n) {i : Instr}
    (hexec : exec i s = .next t) (ht : t.fault.valid = false) (hw : writesArena i = false)
    (hi : enumeratorNamed i ≠ some e) : Enumerating t e n ∧ t.en e = s.en e := by
  have hnew : i ≠ .trNew := by
    rintro rfl
    cases hw
  have hen : t.en e = s.en e := (enumeratorsAreIndependent i s t hexec).1 e hi hnew
  refine ⟨⟨ht, (exec_cfg hexec).symm ▸ h.context, hen ▸ h.isOpen, ?_⟩, hen⟩
  rw [exec_nodes hexec hw, hen]
  exact h.node

/-- The EN commands are all that name a context. -/
theorem enumeratorNamed_ne {i : Instr} {e : CtxIdx} (hclose : i ≠ .enClose e) (hopen : ∀ a, i ≠ .enOpen e a)
    (hnext : i ≠ .enNext e) : enumeratorNamed i ≠ some e := by
  cases i
  case enOpen e' a => exact fun h => hopen a (congrArg (fun x => Instr.enOpen x a) (Option.some.inj h))
  case enNext e' => exact fun h => hnext (congrArg Instr.enNext (Option.some.inj h))
  case enClose e' => exact fun h => hclose (congrArg Instr.enClose (Option.some.inj h))
  all_goals exact nofun

/-- From an enumeration in progress, EN.NEXT answers the pairs still to come and then END, whatever commands stand
between that neither write the arena nor open or close the context. -/
theorem Enumerating.responsesOf_enNext {e : CtxIdx} {n : Node} (prog : List Instr) {s t : State}
    (hs : Enumerating s e n)
    (hprog : ∀ i ∈ prog, writesArena i = false ∧ i ≠ .enClose e ∧ ∀ b, i ≠ .enOpen e b)
    (hrun : runAll prog s = .next t) (ht : t.fault.valid = false) :
    responsesOf (.enNext e) prog s = enumerationWords n (s.en e).pos.toNat (prog.count (.enNext e)) := by
  induction prog generalizing s with
  | nil => simp [responsesOf, enumerationWords]
  | cons i prog ih =>
    obtain ⟨u, hexec, hrest⟩ := exec_of_runAll_cons hrun
    obtain ⟨⟨hw, hclose, hopen⟩, hprog'⟩ := List.forall_mem_cons.1 hprog
    rw [responsesOf_cons hexec]
    by_cases hi : i = .enNext e
    · subst hi
      rw [if_pos rfl, List.count_cons_self]
      cases hy : nextChild n (s.en e).pos with
      | some y =>
        obtain rfl := Host.Outcome.next.inj
          (hexec.symm.trans (execEnNext_pair hs.running hs.context hs.isOpen hs.node hy))
        rw [ih (hs.setPos _ _ _ _) hprog' hrest, enumerationWords_of_some hy, State.respond_en, State.setEn_en_same,
          succ_symbol_toNat]
        rfl
      | none =>
        obtain rfl := Host.Outcome.next.inj
          (hexec.symm.trans (execEnNext_end hs.running hs.context hs.isOpen hs.node hy))
        rw [ih (hs.setPos _ _ _ _) hprog' hrest, enumerationWords_of_none hy, State.respond_en, State.setEn_en_same]
        rfl
    · obtain ⟨hu, hen⟩ := hs.exec_other hexec (not_faulted_before_runAll hrest ht) hw
        (enumeratorNamed_ne hclose hopen hi)
      rw [if_neg hi, List.count_cons_of_ne hi, ih hu hprog' hrest, hen]

/-- Settles O45: EN.OPEN puts an enumeration in progress at position 0, from which all pairs are still to come; their
number is the count of TR.CNT. -/
theorem enumerationAgreesWithTheCount : Obligations.EnumerationAgreesWithTheCount := by
  intro s t e a n prog hf he hn hprog hrun ht pairs asked
  have ha : a.toNat < s.mem.size := (List.getElem?_eq_some_iff.1 hn).1
  have hopened := execEnOpen_eq hf he ha
  have hstart : Enumerating ((s.setEn e (.opened a)).respond .done 0 0) e n :=
    ⟨hf, he, by simp [Enumerator.opened], by simpa [Enumerator.opened] using hn⟩
  refine ⟨?_, ?_, ?_⟩
  · rw [responsesOf_cons hopened, if_neg nofun,
      hstart.responsesOf_enNext prog hprog ((runAll_cons hopened prog).symm.trans hrun) ht, State.respond_en,
      State.setEn_en_same, show (Enumerator.opened a).pos.toNat = 0 from rfl, enumerationWords, pairsFrom_zero]
  · rw [childPairs_length]
    exact execTrCnt_eq hf hn
  · have hslots : (fun y => s.mem.nodeRead a y != some absent) = fun y => n.slot y != absent := by
      funext y
      rw [Memory.nodeRead_of_getElem hn]
      rfl
    rw [hslots]
    rfl

end Sys2Proof.Machine
end
